-- ==== Sys2Proof/Word.lean ====
section
/-! DEFINITION. The widths the spec fixes: a byte (R82), a register index (R123), the 32-bit logical snapshot word (R120), a signed 16-bit sample (R205, R281), and the type of a byte array in one canonical form. -/

namespace Sys2Proof

/-- The only access width of the bus and of the chip register space (R82, R96). -/
abbrev Byte := BitVec 8

/-- A chip register index, 0 to 31 (R32, R123). -/
abbrev RegIx := BitVec 5

/-- The logical snapshot as one word, for AW = 16 and NCS = 4 (R120). -/
abbrev SnapWord := BitVec 32

/-- A chip's output sample, two's complement s16 (R205, R281). -/
abbrev Sample := BitVec 16

/-- A byte array held sparse: addresses strictly rising, no listed byte equal to what an unlisted address
reads as (`Sys2Proof.Machine.Memory.get`). It holds the read-back image (R46), the detection snapshot (R44),
the registers of TESTCHIP (R208) and the special region's table (R90). -/
abbrev Memory := List Host.Cell

end Sys2Proof
end

