-- ==== Sys2Proof/Config.lean ====
section
/-! DEFINITION. What is fixed before a session runs: the implementation parameters of R11 as plain data, the session configuration of R56, the events that cross the queue (R38), and the FREE VALUES, opaque constants with no body. -/

namespace Sys2Proof

/-- The three chip slots (R30). -/
inductive ChipId where
  | sid1 | sid2 | fm
  deriving DecidableEq, Repr, Inhabited

/-- The two synthesizer slots, the only ones with detection state (R43). -/
inductive SynthId where
  | sid1 | sid2
  deriving DecidableEq, Repr, Inhabited

/-- The chip slot of a synthesizer slot. -/
def SynthId.chip : SynthId → ChipId
  | .sid1 => .sid1
  | .sid2 => .sid2

/-- The two kinds of chip core (R200). -/
inductive ChipKind where
  | synth | fmchip
  deriving DecidableEq, Repr

/-- `kind(SID1) = kind(SID2) = SYNTH`, `kind(FM) = FMCHIP` (R200). -/
def ChipId.kind : ChipId → ChipKind
  | .sid1 => .synth
  | .sid2 => .synth
  | .fm => .fmchip

/-- One value per chip slot. -/
structure PerChip (α : Type) where
  sid1 : α
  sid2 : α
  fm : α
  deriving DecidableEq, Repr

/-- One value per synthesizer slot. -/
structure PerSynth (α : Type) where
  sid1 : α
  sid2 : α
  deriving DecidableEq, Repr

/-- The value of one chip slot. -/
def PerChip.get {α : Type} (p : PerChip α) : ChipId → α
  | .sid1 => p.sid1
  | .sid2 => p.sid2
  | .fm => p.fm

/-- One chip slot replaced. -/
def PerChip.set {α : Type} (p : PerChip α) (c : ChipId) (v : α) : PerChip α :=
  match c with
  | .sid1 => { p with sid1 := v }
  | .sid2 => { p with sid2 := v }
  | .fm => { p with fm := v }

/-- One value per kind of chip core. -/
structure PerKind (α : Type) where
  synth : α
  fm : α
  deriving DecidableEq, Repr

/-- The value of one kind. -/
def PerKind.get {α : Type} (p : PerKind α) : ChipKind → α
  | .synth => p.synth
  | .fmchip => p.fm

/-- The value of one synthesizer slot. -/
def PerSynth.get {α : Type} (p : PerSynth α) : SynthId → α
  | .sid1 => p.sid1
  | .sid2 => p.sid2

/-- One synthesizer slot replaced. -/
def PerSynth.set {α : Type} (p : PerSynth α) (c : SynthId) (v : α) : PerSynth α :=
  match c with
  | .sid1 => { p with sid1 := v }
  | .sid2 => { p with sid2 := v }

/-- The chip variants a configuration may name (R56, N6). The spec names MODEL_A and MODEL_B and calls the set
closed without listing it; `other` stands for the rest (log 17). -/
inductive ChipModel where
  | modelA
  | modelB
  | other (n : Nat)
  deriving DecidableEq, Repr, Inhabited

/-- An observed register write, stamped with its bus cycle (R38). The timestamp is a natural number (R33, R357; log 6). -/
structure BusEvent where
  chip : ChipId
  reg : RegIx
  val : Byte
  ts : Nat
  deriving DecidableEq, Repr, Inhabited

/-- A chip-select region of 32 consecutive bus addresses (R84). `cs = none` needs no chip-select line. -/
structure Window where
  cs : Option Nat
  base : Nat
  deriving DecidableEq, Repr

/-- The special region: 256 consecutive bus addresses answered from a read-only table (R90). -/
structure SpecialRegion where
  cs : Option Nat
  base : Nat
  bytes : Memory
  deriving DecidableEq, Repr

/-- The address-mapping modes (R86, R87). -/
inductive MapMode where
  | single (winA : Window)
  | sideBySide (winA winB : Window)
  | sharedSel (win : Window) (selBit : Nat)
  deriving DecidableEq, Repr

/-- The two interchangeable sinks, one of which a session uses (R56, R284). -/
inductive SinkSel where
  | direct | stream
  deriving DecidableEq, Repr

/-- The configuration of a session (R56). -/
structure SessionConfig where
  modelSid1 : ChipModel
  modelSid2 : Option ChipModel
  fmEnabled : Bool
  readEmu : Bool
  stereoMix : Bool
  mapMode : MapMode
  fmWindow : Window
  special : Option SpecialRegion
  volume : PerChip Nat
  pan : PerChip Nat
  sinkSel : SinkSel
  deriving DecidableEq, Repr

/-- Which chip core a machine carries: the spec's test double TESTCHIP (R208), or a core of which nothing is
assumed but the laws R201 to R207 (log 4, log 5). -/
inductive ChipImpl where
  | testchip | opaqueCore
  deriving DecidableEq, Repr

/-- Which PanLaw a machine carries: the reference law of R286, or one of which nothing is assumed (R285, log 18). -/
inductive PanLawSel where
  | reference | custom
  deriving DecidableEq, Repr

/-- Which PinMap a machine carries: the identity of REFCFG (R11), or one of which nothing is assumed (R122, log 19). -/
inductive PinMapSel where
  | identity | custom
  deriving DecidableEq, Repr

/-- The implementation parameters of R11, plain data that no step changes (log 1). DW, RW_REG and RATE_STEP are
fixed by the spec at 8, 5 and 1; CLK is the state's own field (R12). -/
structure Params where
  aw : Nat
  ncs : Nat
  qcap : Nat
  idxw : Nat
  tRst : Nat
  sliceMax : Nat
  nominalRate : Nat
  rateMin : Nat
  rateMax : Nat
  window : Nat
  acqWindows : Nat
  minWatermark : Nat
  marginLo : Nat
  marginHi : Nat
  detSeq : List (RegIx × Byte)
  probeReg : RegIx
  sentinel : List (ChipModel × Byte)
  /-- ROREGS, per chip kind; R204 states its law of synthesizer cores only, so no read depends on the set of FMCHIP. -/
  roRegs : PerKind (List RegIx)
  sampleMin : Int
  sampleMax : Int
  wshift : Nat
  panLaw : PanLawSel
  pinMap : PinMapSel
  chipImpl : ChipImpl
  deriving DecidableEq, Repr

/-- How a session ended (R54, R319). -/
inductive ExitReason where
  | normalExit | forcedReturn
  deriving DecidableEq, Repr

/-- The session phase (R54). -/
inductive Phase where
  | notStarted
  | measuring
  | running
  | exited (reason : ExitReason)
  deriving DecidableEq, Repr

/-- The clauses of the validity predicate (R340). -/
inductive Violation where
  | v1 | v2 | v3 | v4 | v5 | v6 | v7 | v8 | v9
  deriving DecidableEq, Repr

/-- The logical snapshot (R120, R121): address lines, data lines, direction (true = READ), reset line (true =
asserted), and the chip-select lines as the bits of a number (bit i = line i asserted). -/
structure Snap where
  a : Nat
  d : Byte
  rw : Bool
  rst : Bool
  cs : Nat
  deriving DecidableEq, Repr, Inhabited

/-- Who owns an entry of the window list of a session (R88). -/
inductive Owner where
  | chip (c : ChipId)
  | special
  deriving DecidableEq, Repr

/-- An entry of the window list (R88): 2^bits consecutive addresses from `base` (5 bits for a chip window, R84; 8 for
the special region, R90), recognised with a chip-select line or without one. -/
structure Region where
  owner : Owner
  cs : Option Nat
  base : Nat
  bits : Nat
  deriving DecidableEq, Repr

/-- What was done to a chip core (R200): a register write, or k cycles of its clock. -/
inductive ChipOp where
  | write (r : RegIx) (v : Byte)
  | clock (k : Nat)
  deriving DecidableEq, Repr

/-- FREE VALUE (log 4): what a chip core of unknown inside reads at a register after a history, newest operation
first. The spec gives no inside (R8, R200, U8, U9); only the round trip R204 constrains a read, and it is applied
by `Sys2Proof.Machine.chipRead`, not here. -/
opaque Config.coreRead : ChipKind → Option ChipModel → List ChipOp → RegIx → Byte

/-- FREE VALUE (log 4): what such a core outputs after a history (R205). -/
opaque Config.coreOutput : ChipKind → Option ChipModel → List ChipOp → Sample

/-- FREE VALUE (log 18): a PanLaw of which R285 assumes only that it is a function into integers. -/
opaque Config.customPanLaw : Nat → Nat → Bool → Int × Int

/-- FREE VALUE (log 19): PinMap, from the raw lines to the logical snapshot (R122, OPEN), with every address and
chip-select line a machine may have. -/
opaque Config.pinMap : Nat → Snap

/-- FREE VALUE (log 16): what SENTINEL gives for a model at which it is not defined; V7 keeps such a model out of
a session that could read it. -/
opaque Config.undefinedSentinel : ChipModel → Byte

/-- FREE VALUE (log 15): the content of a queue slot that nothing has written (R37, U6). -/
opaque Config.unwrittenSlot : Nat → BusEvent

/-- The reference parameter set REFCFG (R11). -/
def refParams : Params :=
  { aw := 16, ncs := 4, qcap := 32768, idxw := 32, tRst := 4, sliceMax := 8
    nominalRate := 44100, rateMin := 41895, rateMax := 46305
    window := 32, acqWindows := 4, minWatermark := 256, marginLo := 64, marginHi := 64
    detSeq := [(18, 0xFF), (14, 0xFF), (15, 0xFF), (18, 0x20)]
    probeReg := 27
    sentinel := [(.modelA, 3), (.modelB, 2)]
    roRegs := ⟨[27], [27]⟩
    sampleMin := -32768, sampleMax := 32767, wshift := 8
    panLaw := .reference, pinMap := .identity, chipImpl := .testchip }

/-- The two-chip configuration of REFCFG (R88, R133), with the FM chip and the special region present; the points
R88 does not give (volumes, pans, stereo mode, the table's bytes, the sink) are those of the vectors or zero (log 2). -/
def refConfig : SessionConfig :=
  { modelSid1 := .modelA, modelSid2 := some .modelB
    fmEnabled := true, readEmu := true, stereoMix := false
    mapMode := .sideBySide ⟨none, 0xD400⟩ ⟨none, 0xD420⟩
    fmWindow := ⟨some 1, 0xDF40⟩
    special := some ⟨some 0, 0xDE00, []⟩
    volume := ⟨15, 15, 15⟩, pan := ⟨7, 7, 7⟩
    sinkSel := .direct }

end Sys2Proof
end

