-- ==== Sys2Proof/Machine/Memory.lean ====
section
/-! DEFINITION. Byte arrays and queue slots as plain data in one canonical form: reading, writing, filling, and the form itself. -/

namespace Sys2Proof.Machine

/-- One byte. An unlisted address reads 0: the reset value of every byte array of the core (R60; log 14). -/
def Memory.get : Memory → Nat → Byte
  | [], _ => 0
  | (b, w) :: m, a => if b = a then w else Memory.get m a

/-- One byte written. Writing 0 removes the entry, so equal arrays are equal data. -/
def Memory.set : Memory → Nat → Byte → Memory
  | [], a, v => if v = 0 then [] else [(a, v)]
  | (b, w) :: m, a, v =>
    if a < b then (if v = 0 then (b, w) :: m else (a, v) :: (b, w) :: m)
    else if a = b then (if v = 0 then m else (a, v) :: m)
    else (b, w) :: Memory.set m a v

/-- The array whose `count` bytes from address `lo` on are those of `f`, and all others 0. -/
def Memory.tabulateFrom (f : Nat → Byte) : Nat → Nat → Memory
  | _, 0 => []
  | lo, count + 1 =>
    if f lo = 0 then Memory.tabulateFrom f (lo + 1) count
    else (lo, f lo) :: Memory.tabulateFrom f (lo + 1) count

/-- The array of the bytes `f 0 … f (n - 1)`. -/
def Memory.tabulate (n : Nat) (f : Nat → Byte) : Memory := Memory.tabulateFrom f 0 n

/-- Addresses strictly rising from `lo` on, no listed byte 0. -/
def Memory.wfFrom : Nat → Memory → Bool
  | _, [] => true
  | lo, (b, w) :: m => decide (lo ≤ b) && decide (w ≠ 0) && Memory.wfFrom (b + 1) m

/-- The canonical form. -/
def Memory.wf (m : Memory) : Bool := Memory.wfFrom 0 m

/-- Every listed address lies below `n`. -/
def Memory.within (n : Nat) (m : Memory) : Bool := m.all fun c => decide (c.1 < n)

/-- The queue's storage (R37), sparse by slot number. A slot nothing has written is not listed. -/
abbrev Slots := List (Nat × BusEvent)

/-- The event a slot holds; the content of a slot that nothing has written is a free value (R37, U6; log 15). -/
def Slots.get : Slots → Nat → BusEvent
  | [], k => Config.unwrittenSlot k
  | (j, ev) :: m, k => if j = k then ev else Slots.get m k

/-- One slot written, all four fields (R101). -/
def Slots.set : Slots → Nat → BusEvent → Slots
  | [], k, ev => [(k, ev)]
  | (j, old) :: m, k, ev =>
    if k < j then (k, ev) :: (j, old) :: m
    else if k = j then (k, ev) :: m
    else (j, old) :: Slots.set m k ev

/-- Slot numbers strictly rising from `lo` on and below `n`. -/
def Slots.wfFrom (n : Nat) : Nat → Slots → Bool
  | _, [] => true
  | lo, (j, _) :: m => decide (lo ≤ j) && decide (j < n) && Slots.wfFrom n (j + 1) m

/-- The canonical form of the storage of a queue of capacity `n` (R92). -/
def Slots.wf (n : Nat) (m : Slots) : Bool := Slots.wfFrom n 0 m

end Sys2Proof.Machine
end

