-- ==== Sys2Proof/Syntax.lean ====
section
/-! DEFINITION. The operations of the core (30_encoding R132), one constructor per row of spec/opcode_table.json (R137). -/

namespace Sys2Proof

/-- The 34 rows of the operation table. The bus operations carry the fields of the snapshot that their rule names as
operands; the others carry the operands of their rule (log 27). -/
inductive Instr where
  /-- R166 -/
  | busMeasure
  /-- R152 -/
  | busReset
  /-- R157, the window of SID1 -/
  | busWriteSid1 (reg : RegIx) (val : Byte)
  /-- R157, the window of SID2 -/
  | busWriteSid2 (reg : RegIx) (val : Byte)
  /-- R158 -/
  | busWriteFm (reg : RegIx) (val : Byte)
  /-- R162, SID1 -/
  | busReadProbe1
  /-- R162, SID2 -/
  | busReadProbe2
  /-- R160, the window of SID1 -/
  | busReadSid1 (reg : RegIx)
  /-- R160, the window of SID2 -/
  | busReadSid2 (reg : RegIx)
  /-- R163 -/
  | busReadSpecial (off : Byte)
  /-- R164 -/
  | busNop
  /-- R180 -/
  | qEnqueue (ev : BusEvent)
  /-- R182 -/
  | qDrainUpTo (currentCycle : Nat)
  /-- R183 -/
  | qPeek
  /-- R184 -/
  | qFlush
  /-- R241 -/
  | detAdvance (ch : SynthId) (reg : RegIx) (val : Byte)
  /-- R242 -/
  | detMiss (ch : SynthId) (reg : RegIx) (val : Byte)
  /-- R243 -/
  | detProbe (ch : SynthId)
  /-- R222 -/
  | enExit (reason : ExitReason)
  /-- R212; its operand, the head event, is read from the queue -/
  | enApply
  /-- R214, with the slice length of R215 -/
  | enStep (k : Nat)
  /-- R217 -/
  | enSample
  /-- R218 -/
  | enPublish
  /-- R220 -/
  | enIdle
  /-- R282, one sample per chip slot; those of inactive chips are not looked at -/
  | mix (samples : PerChip Sample)
  /-- R283 -/
  | sinkWrite (left right : Int)
  /-- R258 -/
  | rateAccum (occ : Nat)
  /-- R259 -/
  | rateWindow
  /-- R260 -/
  | rateAcquire (avg : Nat)
  /-- R261 -/
  | rateUp
  /-- R262 -/
  | rateDown
  /-- R263 -/
  | rateHold
  /-- R341 -/
  | sessionStart (config : SessionConfig) (clk : Nat)
  /-- R345 -/
  | resetCommit
  deriving DecidableEq, Repr

end Sys2Proof
end

