-- ==== Sys2Proof/Machine/State.lean ====
section
/-! DEFINITION. The state of the core (10_state R30 to R61) as plain data, with the inputs of a run (R61), the reasons a step can stop, and the state after reset. -/

namespace Sys2Proof.Machine

/-- A chip core (R200). TESTCHIP is the test double of R208: 32 registers and a 16-bit phase. Any other core is the
history of what was done to it since ChipReset, newest first, zero-length and adjacent clock runs merged, so that the
laws R201 to R207 hold by construction (log 4). -/
inductive ChipCore where
  | testchip (regs : Memory) (phase : BitVec 16)
  | history (kind : ChipKind) (model : Option ChipModel) (ops : List ChipOp)
  deriving DecidableEq, Repr

/-- ChipState (R31). -/
structure ChipState where
  core : ChipCore
  emu : Nat
  deriving DecidableEq, Repr

/-- DetectionState (R43, R44). -/
structure DetState where
  step : Nat
  snapshot : Memory
  deriving DecidableEq, Repr

/-- RateControlState (R47 to R52). -/
structure RateState where
  n : Nat
  sum : Nat
  mc : Nat
  rate : Nat
  wm : Nat
  deriving DecidableEq, Repr

/-- The response of an activation (R55, R128). -/
structure BusOut where
  drive : Option Byte
  done : Bool
  deriving DecidableEq, Repr

/-- The two fatal conditions (R53, R300). -/
inductive FatalReason where
  | queueOverflow
  | deadlineMiss
  deriving DecidableEq, Repr

/-- The inputs of one engine turn (R61, R219, R257, R288, R319): the sink's availability, its occupancy after a write,
the exit condition, the requested slice length (R215), and whether EN's views are refreshed first (R100). -/
structure EngineInput where
  sink : Bool
  occ : Nat
  exit : Option ExitReason
  slice : Nat
  fresh : Bool
  deriving DecidableEq, Repr

/-- A reading of a shared word by the other domain (R100): which word, and for a counter which of the values it has held
since the last reading (log 8). -/
inductive ViewSync where
  /-- EN reads cycleCount as c, and after it writeIndex as w (the read order of R102) -/
  | now (c w : Nat)
  /-- EN reads writeIndex as i -/
  | writeIx (i : Nat)
  /-- BD reads readIndex as i -/
  | readIx (i : Nat)
  /-- the present read-back image sets out for BD -/
  | capture
  /-- the oldest image on its way reaches BD -/
  | image
  deriving DecidableEq, Repr

/-- One entry of the schedule (R4, R61, R104; log 9): which agent moves next, with its inputs. -/
inductive Turn where
  /-- a strobe of the bus with its logical snapshot (R306); `fresh` refreshes BD's views first (R100) -/
  | strobe (snap : Snap) (fresh : Bool)
  /-- a strobe with a raw snapshot, through the machine's PinMap (R122) -/
  | strobeRaw (raw : Nat) (fresh : Bool)
  /-- a turn of the engine (R211) -/
  | engine (inp : EngineInput)
  /-- a shared word reaches the other domain (R100) -/
  | sync (v : ViewSync)
  /-- start(config) as one step, with the measured clock (R341) -/
  | start (config : SessionConfig) (clk : Nat)
  /-- the first half of start(config), up to phase Measuring (R341) -/
  | beginSession (config : SessionConfig)
  /-- the second half, when the measurement gives CLK (R341, R342) -/
  | finishSession (clk : Nat)
  deriving DecidableEq, Repr

/-- The synthetic sink of R289: a test double that a machine may carry (log 21). -/
structure SynthSink where
  q : Nat
  t : Nat
  c : Nat
  rate : Nat
  deriving DecidableEq, Repr

/-- Why the machine stops with a fault. -/
inductive Fault where
  /-- raised by every step and every operation once `fault` is not NONE: "no BD activation has a step, no EN operation
  has a step" (R300). Safe: the spec gives no continuation. -/
  | fatal (reason : FatalReason)
  deriving DecidableEq, Repr

/-- Why an operation is refused. -/
inductive Refusal where
  /-- no meaning yet: raised by no arm of this model. Safe. -/
  | notModelled (mnemonic : String)
  /-- the operation's agent has no step in this phase (R54, R156, R341). Safe: the spec gives no effect. -/
  | wrongPhase (now : Phase)
  /-- the operation's guard is false, so the spec gives it no step (R132). Safe. -/
  | notSelected (mnemonic : String)
  /-- SESSION.START with a configuration or a clock that fails a clause (R305, R340), also at either half of a split start
  (log 13). Safe: no session runs. -/
  | invalidConfig (clause : Violation)
  deriving DecidableEq, Repr

/-- The state of the machine. The section comments name the rule of each field. -/
structure State where
  -- configuration of the machine and of the session (R11, R56, R12, R57)
  params : Params
  cfg : SessionConfig
  clk : Nat
  weights : PerChip (Int × Int)
  -- session (R54, R53); the count of strobes in phase Measuring is the model's own (log 13)
  phase : Phase
  fault : Option FatalReason
  measureCount : Nat
  -- sequencing (R33, R35, R34, R36)
  cycleCount : Nat
  resetRun : Nat
  E : Nat
  prevS : Nat
  -- event queue (R37, R42, R40)
  slots : Slots
  writeIndex : Nat
  readIndex : Nat
  -- views (R100); rbFlight is the model's own: the images on their way to BD, oldest first (log 8)
  nowView : Nat
  wView : Nat
  rView : Nat
  rbView : PerChip Memory
  rbFlight : List (PerChip Memory)
  -- chips, detection, read-back image, rate control (R31, R43, R46, R47)
  chip : PerChip ChipState
  det : PerSynth DetState
  rb : PerChip Memory
  rc : RateState
  -- bus outputs (R55)
  out : BusOut
  -- inputs as last latched (R120, R288, R257, R319) and the schedule (R61)
  snap : Snap
  sinkAvailable : Bool
  occIn : Nat
  exitCond : Option ExitReason
  script : List Turn
  -- the model's own: pairs handed to the sink, results of Q.PEEK, Q.DRAINUPTO and MIX (log 20), the synthetic sink (log 21)
  sinkOut : List (Int × Int)
  peeked : Option Nat
  drained : List BusEvent
  mixed : Int × Int
  synth : Option SynthSink
  deriving DecidableEq, Repr

/-- A fresh TESTCHIP (R208). -/
def freshTestchip : ChipState := ⟨.testchip [] 0, 0⟩

/-- The state after SESSION.START (R60, first column) with the parameters and the two-chip configuration of REFCFG, TESTCHIP
cores and CLK = 1000000 (log 1, 2, 3, 5). -/
def State.reset : State :=
  { params := refParams, cfg := refConfig, clk := 1000000
    weights := ⟨(128, 128), (128, 128), (128, 128)⟩
    phase := .running, fault := none, measureCount := 0
    cycleCount := 0, resetRun := 0, E := 0, prevS := 0
    slots := [], writeIndex := 0, readIndex := 0
    nowView := 0, wView := 0, rView := 0, rbView := ⟨[], [], []⟩, rbFlight := []
    chip := ⟨freshTestchip, freshTestchip, freshTestchip⟩
    det := ⟨⟨0, []⟩, ⟨0, []⟩⟩
    rb := ⟨[], [], []⟩
    rc := ⟨0, 0, 0, 44100, 0⟩
    out := ⟨none, false⟩
    snap := ⟨0, 0, false, false, 0⟩
    sinkAvailable := false, occIn := 0, exitCond := none, script := []
    sinkOut := [], peeked := none, drained := [], mixed := (0, 0), synth := none }

/-- The state before any session: phase NotStarted (R54, R341), no clock and no weights yet (log 3). -/
def State.powerOn : State :=
  { State.reset with phase := .notStarted, clk := 0, weights := ⟨(0, 0), (0, 0), (0, 0)⟩ }

end Sys2Proof.Machine
end

