-- ==== Sys2Proof/Machine/ChipCores.lean ====
section
/-! DEFINITION. The five chip-core functions (42_chip_engine R200 to R208): TESTCHIP as the spec gives it, and the core of which nothing is assumed but the laws. -/

namespace Sys2Proof.Machine

/-- The register of TESTCHIP that is read-only (R208). -/
def testReadOnly : RegIx := 27

/-- The 16-bit frequency of TESTCHIP: registers 0 and 1 (R208). -/
def testFrequency (regs : Memory) : BitVec 16 := Memory.get regs 1 ++ Memory.get regs 0

/-- The high byte of TESTCHIP's phase (R208). -/
def phaseHigh (phase : BitVec 16) : Byte := phase.extractLsb' 8 8

/-- ChipReset: a constant of the kind and the model (R201); for FMCHIP the model is ignored. -/
def chipReset (impl : ChipImpl) (kind : ChipKind) (model : Option ChipModel) : ChipCore :=
  match impl with
  | .testchip => .testchip [] 0
  | .opaqueCore =>
    match kind with
    | .synth => .history .synth model []
    | .fmchip => .history .fmchip none []

/-- ChipWrite: one register write, no clock (R202). -/
def chipWrite (core : ChipCore) (r : RegIx) (v : Byte) : ChipCore :=
  match core with
  | .testchip regs phase => if r = testReadOnly then core else .testchip (Memory.set regs r.toNat v) phase
  | .history kind model ops => .history kind model (.write r v :: ops)

/-- k cycles on a history: adjacent runs merge and no run is empty, which is the additivity of R203. -/
def clockHistory (ops : List ChipOp) (k : Nat) : List ChipOp :=
  if k = 0 then ops
  else
    match ops with
    | .clock j :: rest => .clock (j + k) :: rest
    | _ => .clock k :: ops

/-- ChipClock: k cycles (R203). -/
def chipClock (core : ChipCore) (k : Nat) : ChipCore :=
  match core with
  | .testchip regs phase => .testchip regs (phase + BitVec.ofNat 16 k * testFrequency regs)
  | .history kind model ops => .history kind model (clockHistory ops k)

/-- What a core of unknown inside reads (R204): of a synthesizer core, the value of the write just made, for a register
that is not read-only; all else is free. -/
def historyRead (roRegs : PerKind (List RegIx)) (kind : ChipKind) (model : Option ChipModel) (ops : List ChipOp) (r : RegIx) : Byte :=
  match kind, ops with
  | .synth, .write r' v :: _ => if r' = r ∧ r ∉ roRegs.synth then v else Config.coreRead kind model ops r
  | _, _ => Config.coreRead kind model ops r

/-- ChipRead: register read-back (R200, R204, R208). -/
def chipRead (roRegs : PerKind (List RegIx)) (core : ChipCore) (r : RegIx) : Byte :=
  match core with
  | .testchip regs phase => if r = testReadOnly then phaseHigh phase else Memory.get regs r.toNat
  | .history kind model ops => historyRead roRegs kind model ops r

/-- ChipOutput: the current sample (R205, R208). -/
def chipOutput (core : ChipCore) : Sample :=
  match core with
  | .testchip regs phase =>
    BitVec.ofNat 16 ((Memory.get regs 24 &&& 0x0F#8).toNat * (phaseHigh phase).toNat * 8)
  | .history kind model ops => Config.coreOutput kind model ops

/-- The bytes ChipRead gives at registers 0 to 31 (R46, R218). -/
def chipImage (roRegs : PerKind (List RegIx)) (core : ChipCore) : Memory :=
  Memory.tabulate 32 fun r => chipRead roRegs core (BitVec.ofNat 5 r)

/-- The read-only registers of the core a machine carries: 27 of TESTCHIP (R208), else the parameter of its kind (R11). -/
def readOnlyRegs (roRegs : PerKind (List RegIx)) (core : ChipCore) : List RegIx :=
  match core with
  | .testchip _ _ => [testReadOnly]
  | .history kind _ _ => roRegs.get kind

end Sys2Proof.Machine
end

