-- ==== Sys2Proof/Machine/Operands.lean ====
section
/-! DEFINITION. The operand forms: which chips a session has (R30), the window list and the window match (20_memory R84 to R90), the fields of a snapshot (30_encoding R120 to R125), the packed event slot and the packed volume and pan (R126, R127), and the hardware's wrapped queue indices (41_event_queue R186). -/

namespace Sys2Proof

/-- The set Active of R30: SID1 always, SID2 when its model is not NONE, FM when enabled. -/
def SessionConfig.active (cfg : SessionConfig) : ChipId → Bool
  | .sid1 => true
  | .sid2 => cfg.modelSid2.isSome
  | .fm => cfg.fmEnabled

/-- The model of a chip slot; FM has none, and ChipReset ignores it there (R201). -/
def SessionConfig.model (cfg : SessionConfig) : ChipId → Option ChipModel
  | .sid1 => some cfg.modelSid1
  | .sid2 => cfg.modelSid2
  | .fm => none

/-- The window of a chip as an entry of the window list (R84, R88). -/
def Window.region (w : Window) (c : ChipId) : Region := ⟨.chip c, w.cs, w.base, 5⟩

/-- The windows of the synthesizer chips by mapping mode (R86 to R88). The shared region is two entries, the second
with address bit `s` set. -/
def MapMode.regions : MapMode → List Region
  | .single a => [a.region .sid1]
  | .sideBySide a b => [a.region .sid1, b.region .sid2]
  | .sharedSel w s => [w.region .sid1, (Window.mk w.cs (w.base ||| 2 ^ s)).region .sid2]

/-- The window list of a session in decode order (R88). -/
def SessionConfig.windows (cfg : SessionConfig) : List Region :=
  cfg.mapMode.regions
    ++ (if cfg.fmEnabled then [cfg.fmWindow.region .fm] else [])
    ++ (match cfg.special with
        | some sp => [⟨.special, sp.cs, sp.base, 8⟩]
        | none => [])

/-- The chip-select requirement of a window holds on the lines of a snapshot (R83, R85). -/
def csMatches (need : Option Nat) (lines : Nat) : Bool :=
  match need with
  | none => true
  | some i => lines.testBit i

/-- Match(w, A, CS) of R85, and of R90 for the special region: the address agrees above the low bits. -/
def Region.matchesSnap (r : Region) (sn : Snap) : Bool :=
  csMatches r.cs sn.cs && decide (sn.a / 2 ^ r.bits = r.base / 2 ^ r.bits)

/-- The synthesizer chip that owns a region, if one does. -/
def Region.synth (r : Region) : Option SynthId :=
  match r.owner with
  | .chip .sid1 => some .sid1
  | .chip .sid2 => some .sid2
  | _ => none

/-- The synthesizer chip whose window a snapshot matches (R124). -/
def SessionConfig.synthAt (cfg : SessionConfig) (sn : Snap) : Option SynthId :=
  cfg.windows.findSome? fun r => if r.matchesSnap sn then r.synth else none

/-- A snapshot matches the window of a chip, or the special region. -/
def SessionConfig.ownerAt (cfg : SessionConfig) (o : Owner) (sn : Snap) : Bool :=
  cfg.windows.any fun r => decide (r.owner = o) && r.matchesSnap sn

/-- The register index A[4:0] (R123). -/
def Snap.reg (sn : Snap) : RegIx := BitVec.ofNat 5 sn.a

/-- The offset A[7:0] in the special region (R90). -/
def Snap.off (sn : Snap) : Byte := BitVec.ofNat 8 sn.a

/-- Only AW address lines and NCS chip-select lines exist (R81, R83; log 23). -/
def Snap.onLines (p : Params) (sn : Snap) : Snap :=
  { sn with a := sn.a % 2 ^ p.aw, cs := sn.cs % 2 ^ p.ncs }

/-- The fields of the 32-bit logical snapshot (R120, R121). Bits 31 and 30 are ignored. -/
def Snap.ofWord (w : SnapWord) : Snap :=
  { a := (w.extractLsb' 0 16).toNat
    d := w.extractLsb' 16 8
    rw := w.getLsbD 24
    rst := w.getLsbD 25
    cs := (w.extractLsb' 26 4).toNat }

/-- The fields of R120's record read off `raw` from bit 0 up: A of AW bits, D, RW, RST, CS of NCS bits. With AW = 16 and
NCS = 4 this is the word of R120; for other widths the order is carried over (log 19). -/
def Snap.ofLines (p : Params) (raw : Nat) : Snap :=
  { a := raw % 2 ^ p.aw
    d := BitVec.ofNat 8 (raw / 2 ^ p.aw)
    rw := raw.testBit (p.aw + 8)
    rst := raw.testBit (p.aw + 9)
    cs := raw / 2 ^ (p.aw + 10) % 2 ^ p.ncs }

/-- PinMap (R122): the identity of REFCFG on the logical record (R11), or a map the spec leaves open. -/
def Params.readPins (p : Params) (raw : Nat) : Snap :=
  match p.pinMap with
  | .identity => Snap.ofLines p raw
  | .custom => Config.pinMap raw

/-- The 32-bit word of a snapshot with 16 address lines and 4 chip-select lines, bits 31 and 30 written as 0 (R120). -/
def Snap.toWord (sn : Snap) : SnapWord :=
  (0#2 ++ BitVec.ofNat 4 sn.cs ++ BitVec.ofBool sn.rst ++ BitVec.ofBool sn.rw ++ sn.d ++ BitVec.ofNat 16 sn.a : BitVec (2 + 4 + 1 + 1 + 8 + 16))

/-- The chip field of the packed event (R126). -/
def ChipId.code : ChipId → BitVec 2
  | .sid1 => 0b00
  | .sid2 => 0b01
  | .fm => 0b10

/-- The chip a code names; 0b11 is never written and names none (R126, R131, U7). -/
def ChipId.ofCode (c : BitVec 2) : Option ChipId :=
  if c = 0b00 then some .sid1 else if c = 0b01 then some .sid2 else if c = 0b10 then some .fm else none

/-- The 79-bit event slot (R126): ts[63:0], val, reg, chip from the top down. -/
def BusEvent.pack (ev : BusEvent) : BitVec 79 :=
  (BitVec.ofNat 64 ev.ts ++ ev.val ++ ev.reg ++ ev.chip.code : BitVec (64 + 8 + 5 + 2))

/-- The event a packed slot holds; none for the chip code 0b11 (R126). -/
def BusEvent.unpack (w : BitVec 79) : Option BusEvent :=
  (ChipId.ofCode (w.extractLsb' 0 2)).map fun c =>
    { chip := c, reg := w.extractLsb' 2 5, val := w.extractLsb' 7 8, ts := (w.extractLsb' 15 64).toNat }

/-- A source's volume and pan as one byte, pan in the high half (R127). -/
def packVolumePan (volume pan : BitVec 4) : Byte := (pan ++ volume : BitVec (4 + 4))

/-- The volume and pan of a packed byte; pan 15 is illegal (R127). -/
def unpackVolumePan (b : Byte) : Option (BitVec 4 × BitVec 4) :=
  if b.extractLsb' 4 4 = 15#4 then none else some (b.extractLsb' 0 4, b.extractLsb' 4 4)

/-- A queue index as the IDXW-bit word the hardware holds (R40, R186). -/
def wordIndex (idxw i : Nat) : Nat := i % 2 ^ idxw

/-- The occupancy the hardware computes from two index words, modulo 2^IDXW (R186). -/
def wordOccupancy (idxw w r : Nat) : Nat := (w + (2 ^ idxw - r)) % 2 ^ idxw

/-- The slot number of an index (R92). -/
def slotNumber (qcap i : Nat) : Nat := i % qcap

/-- SENTINEL at a model (R11, R162). Where it is not defined the value is free (V7, log 16). -/
def Params.sentinelOf (p : Params) (m : ChipModel) : Byte :=
  match p.sentinel.find? (fun e => decide (e.1 = m)) with
  | some e => e.2
  | none => Config.undefinedSentinel m

end Sys2Proof
end

