-- ==== Sys2Proof/Machine/Flags.lean ====
section
/-! DEFINITION. The conditions that rules test (10_state R58): the core has no condition-code register, each condition is a function of the state or an input. -/

namespace Sys2Proof.Machine

/-- The snapshot has the reset line asserted (R58, read by R152). -/
def resetSeen (s : State) : Bool := s.snap.rst

/-- The reset run has reached the threshold (R58, R153). -/
def resetQualified (s : State) : Bool := decide (s.params.tRst ≤ s.resetRun)

/-- L, the length of the handshake (R43). -/
def detLength (s : State) : Nat := s.params.detSeq.length

/-- The detection counter of a chip is at its terminal step (R58, R162). -/
def detTerminal (s : State) (ch : SynthId) : Bool := decide ((s.det.get ch).step = detLength s)

/-- A write is the one the handshake expects: k < L and DET_SEQ[k] = (reg, val) (R241). -/
def detExpected (s : State) (ch : SynthId) (reg : RegIx) (val : Byte) : Bool :=
  decide (s.params.detSeq[(s.det.get ch).step]? = some (reg, val))

/-- The watermark is still being acquired (R50, R260). -/
def acquiring (s : State) : Bool := decide (s.rc.mc < s.params.acqWindows)

/-- Occupancy of the queue (R41, R185). -/
def occupancy (s : State) : Nat := s.writeIndex - s.readIndex

/-- writeIndex = readIndex (R58). -/
def queueEmpty (s : State) : Bool := decide (s.writeIndex = s.readIndex)

/-- writeIndex - readIndex = QCAP (R58). -/
def queueFull (s : State) : Bool := decide (occupancy s = s.params.qcap)

/-- The test of Q.ENQUEUE, on BD's view of readIndex (R180, R181). -/
def enqueueOverflows (s : State) : Bool := decide (s.params.qcap ≤ s.writeIndex - s.rView)

/-- The event at the head of the queue (R212). -/
def headEvent (s : State) : BusEvent := Slots.get s.slots (slotNumber s.params.qcap s.readIndex)

/-- The head is visible to EN (R212). -/
def headVisible (s : State) : Bool := decide (s.readIndex ≠ s.wView)

/-- The head is visible and due (R212). -/
def headDue (s : State) : Bool := headVisible s && decide ((headEvent s).ts ≤ s.E)

/-- EN is behind the bus as it sees it (R214). -/
def engineBehind (s : State) : Bool := decide (s.E < s.nowView)

/-- E equals EN's view of cycleCount (R58, R220). -/
def caughtUp (s : State) : Bool := decide (s.E = s.nowView)

/-- The floor average of the window (R259). -/
def windowAverage (s : State) : Nat := s.rc.sum / s.params.window

/-- The window is complete (R258, R259). -/
def windowComplete (s : State) : Bool := decide (s.rc.n = s.params.window)

/-- The sink runs dry: avg + MARGIN_LO < rc.wm (R261, R268). -/
def sinkLow (s : State) (avg : Nat) : Bool := decide (avg + s.params.marginLo < s.rc.wm)

/-- The sink fills up: avg > rc.wm + MARGIN_HI (R262, R268). -/
def sinkHigh (s : State) (avg : Nat) : Bool := decide (s.rc.wm + s.params.marginHi < avg)

/-- The sample index at an engine position (R216): (E * rc.rate) div CLK, exact. -/
def sampleIndexAt (s : State) (e : Nat) : Nat := e * s.rc.rate / s.clk

/-- The session is running with no fault: the agents have a step (R54, R156, R300). -/
def live (s : State) : Bool := decide (s.fault = none) && decide (s.phase = .running)

end Sys2Proof.Machine
end

