-- ==== Sys2Proof/Machine/Ops.lean ====
section
/-! DEFINITION. The shared operations: when an operation has a step, the fatal raise (60_exceptions R300), the activation frame (40_bus_decoder R156), the queue (41_event_queue), publication of the read-back image (R218), and the baseline that a reset commit and a session start share (R345, R60). -/

namespace Sys2Proof.Machine

/-- The outcome of an operation that runs in phase `ph` when its guard `sel` holds: its next state. With a fault no
agent has a step (R300); in another phase, or with a false guard, the operation has none (R54, R132). -/
def perform (ph : Phase) (s : State) (name : String) (sel : Bool) (t : State) :
    Host.Outcome State Fault Refusal :=
  match s.fault with
  | some f => .fault (.fatal f)
  | none =>
    if s.phase = ph then
      (if sel then .next t else .refused (.notSelected name))
    else .refused (.wrongPhase s.phase)

/-- raise Fatal(reason) (R300): the first fault stays. -/
def raiseFatal (reason : FatalReason) (s : State) : State :=
  match s.fault with
  | none => { s with fault := some reason }
  | some _ => s

/-- The codes of R300. -/
def FatalReason.code : FatalReason → Nat
  | .queueOverflow => 1
  | .deadlineMiss => 2

/-- The entry of an activation with the reset line released (R156, R154): no drive, no completion, the reset run ends. -/
def enterActivation (s : State) : State :=
  { s with out := ⟨none, false⟩, resetRun := 0 }

/-- The end of an activation (R151, R165): the cycle count is published last and completion is signalled. A fatal raise
stops the activation before it (R156). -/
def completeActivation (c : Nat) (s : State) : State :=
  match s.fault with
  | none => { s with cycleCount := c, out := { s.out with done := true } }
  | some _ => s

/-- One activation with the reset line released (R156): `body` is the bus operation, given the cycle number c. -/
def activation (body : Nat → State → State) (s : State) : State :=
  completeActivation (s.cycleCount + 1) (body (s.cycleCount + 1) (enterActivation s))

/-- drive(v): the core puts a byte on the data lines of this bus cycle (R16, R55). -/
def driveByte (v : Byte) (s : State) : State := { s with out := { s.out with drive := some v } }

/-- Q.ENQUEUE (R180, R181): overflow is tested first, then the slot is written, then writeIndex (R101). -/
def enqueue (ev : BusEvent) (s : State) : State :=
  if enqueueOverflows s then raiseFatal .queueOverflow s
  else
    { s with
      slots := Slots.set s.slots (slotNumber s.params.qcap s.writeIndex) ev
      writeIndex := s.writeIndex + 1 }

/-- Q.PEEK (R183): the timestamp of the next unapplied visible event. -/
def peek (s : State) : Option Nat := if headVisible s then some (headEvent s).ts else none

/-- The loop of drainUpTo (R182) over at most `fuel` visible events from index `r`: the events due and the index after them. -/
def drainLoop (slots : Slots) (qcap cycle : Nat) : Nat → Nat → List BusEvent × Nat
  | 0, r => ([], r)
  | fuel + 1, r =>
    let ev := Slots.get slots (slotNumber qcap r)
    if ev.ts ≤ cycle then
      let rest := drainLoop slots qcap cycle fuel (r + 1)
      (ev :: rest.1, rest.2)
    else ([], r)

/-- Q.DRAINUPTO (R182): the events with ts ≤ currentCycle in queue order, and the state past them. -/
def drainUpTo (cycle : Nat) (s : State) : List BusEvent × Nat :=
  drainLoop s.slots s.params.qcap cycle (s.wView - s.readIndex) s.readIndex

/-- Q.FLUSH (R184): both indices to 0, the slots' contents kept. The views of the indices begin anew with them (R345; log 30). -/
def flush (s : State) : State :=
  { s with writeIndex := 0, readIndex := 0, wView := 0, rView := 0 }

/-- A per-chip value changed for the active chips only (R30). -/
def onActive {α : Type} (cfg : SessionConfig) (old new : PerChip α) : PerChip α :=
  { sid1 := if cfg.active .sid1 then new.sid1 else old.sid1
    sid2 := if cfg.active .sid2 then new.sid2 else old.sid2
    fm := if cfg.active .fm then new.fm else old.fm }

/-- A per-synthesizer value changed for the active chips only (R43). -/
def onActiveSynth {α : Type} (cfg : SessionConfig) (old new : PerSynth α) : PerSynth α :=
  { sid1 := if cfg.active .sid1 then new.sid1 else old.sid1
    sid2 := if cfg.active .sid2 then new.sid2 else old.sid2 }

/-- The image ChipRead gives of each chip slot. -/
def images (p : Params) (chip : PerChip ChipState) : PerChip Memory :=
  { sid1 := chipImage p.roRegs chip.sid1.core
    sid2 := chipImage p.roRegs chip.sid2.core
    fm := chipImage p.roRegs chip.fm.core }

/-- EN.PUBLISH (R218): the read-back image of every active chip. -/
def publish (s : State) : State :=
  { s with rb := onActive s.cfg s.rb (images s.params s.chip) }

/-- A chip slot at its defaults (R31, R201). -/
def freshChip (p : Params) (cfg : SessionConfig) (c : ChipId) : ChipState :=
  ⟨chipReset p.chipImpl c.kind (cfg.model c), 0⟩

/-- Every chip slot at its defaults. -/
def freshChips (p : Params) (cfg : SessionConfig) : PerChip ChipState :=
  ⟨freshChip p cfg .sid1, freshChip p cfg .sid2, freshChip p cfg .fm⟩

/-- The rate controller at its defaults (R60, R265). -/
def freshRate (p : Params) : RateState := ⟨0, 0, 0, p.nominalRate, 0⟩

/-- Detection state at its defaults (R45, R247). -/
def freshDet : PerSynth DetState := ⟨⟨0, []⟩, ⟨0, []⟩⟩

/-- The clean cycle-zero baseline that a reset commit and a session start share (R60, R345, R346). -/
def baseline (s : State) : State :=
  let s1 : State :=
    { flush s with
      chip := onActive s.cfg s.chip (freshChips s.params s.cfg)
      E := 0
      prevS := 0
      det := onActiveSynth s.cfg s.det freshDet
      rc := freshRate s.params }
  let s2 := publish s1
  { s2 with cycleCount := 0, nowView := 0, rbView := s2.rb, rbFlight := [] }

end Sys2Proof.Machine
end

