-- ==== Sys2Proof/Machine/Detection.lean ====
section
/-! DEFINITION. The auto-detection responder (43_detection): DET.ADVANCE, DET.MISS, DET.PROBE. -/

namespace Sys2Proof.Machine

/-- det[ch].step <- k. -/
def setDetStep (ch : SynthId) (k : Nat) (s : State) : State :=
  { s with det := s.det.set ch { s.det.get ch with step := k } }

/-- det[ch].snapshot[reg] <- val (R246). -/
def recordWrite (ch : SynthId) (reg : RegIx) (val : Byte) (s : State) : State :=
  { s with
    det := s.det.set ch
      { s.det.get ch with snapshot := Memory.set (s.det.get ch).snapshot reg.toNat val } }

/-- DET.ADVANCE: the expected write arrived (R241). -/
def detAdvance (ch : SynthId) (s : State) : State := setDetStep ch ((s.det.get ch).step + 1) s

/-- DET.MISS: any other write to the chip resets the counter, the first pair of the sequence included (R242). -/
def detMiss (ch : SynthId) (s : State) : State := setDetStep ch 0 s

/-- DET.PROBE: the sentinel has been read (R243). -/
def detProbe (ch : SynthId) (s : State) : State := setDetStep ch 0 s

/-- The detection update of a write (R157, R241, R242). -/
def detWrite (ch : SynthId) (reg : RegIx) (val : Byte) (s : State) : State :=
  if detExpected s ch reg val then detAdvance ch s else detMiss ch s

/-- DET.ADVANCE, selected by R241's guard. -/
def execDetAdvance (ch : SynthId) (reg : RegIx) (val : Byte) (s : State) : Host.Outcome State Fault Refusal :=
  perform .running s "DET.ADVANCE" (s.cfg.active ch.chip && detExpected s ch reg val) (detAdvance ch s)

/-- DET.MISS, selected when R241's guard is false (R242). -/
def execDetMiss (ch : SynthId) (reg : RegIx) (val : Byte) (s : State) : Host.Outcome State Fault Refusal :=
  perform .running s "DET.MISS" (s.cfg.active ch.chip && !detExpected s ch reg val) (detMiss ch s)

/-- DET.PROBE, selected at the terminal step with read emulation on (R243). -/
def execDetProbe (ch : SynthId) (s : State) : Host.Outcome State Fault Refusal :=
  perform .running s "DET.PROBE" (s.cfg.active ch.chip && s.cfg.readEmu && detTerminal s ch) (detProbe ch s)

end Sys2Proof.Machine
end

