-- ==== Sys2Proof/Machine/Bus.lean ====
section
/-! DEFINITION. The bus-domain operations (40_bus_decoder R150 to R166) and the reset commit (70_reset R345). Each BUS.* meaning is the whole activation of R156. -/

namespace Sys2Proof.Machine

/-- RESET.COMMIT (R345): the baseline for both domains in one step. -/
def resetCommit (s : State) : State := baseline s

/-- The counting of a reset-asserted cycle: the run saturates at T_RST (R152, R35). -/
def countReset (s : State) : State :=
  { s with out := ⟨none, false⟩, resetRun := min (s.resetRun + 1) s.params.tRst }

/-- Bus completion (R165). -/
def signalDone (s : State) : State := { s with out := { s.out with done := true } }

/-- BUS.RESET (R152, R153): the run is counted; when it qualifies the core commits a reset, else the cycle counts. -/
def busReset (s : State) : State :=
  signalDone
    (if resetQualified (countReset s) then resetCommit (countReset s)
     else { countReset s with cycleCount := s.cycleCount + 1 })

/-- BUS.WRITE.SID (R157): detection, then the snapshot, then the queue. -/
def busWriteSid (ch : SynthId) (reg : RegIx) (val : Byte) : State → State :=
  activation fun c s => enqueue ⟨ch.chip, reg, val, c⟩ (recordWrite ch reg val (detWrite ch reg val s))

/-- BUS.WRITE.FM (R158): no detection state is touched. -/
def busWriteFm (reg : RegIx) (val : Byte) : State → State :=
  activation fun c s => enqueue ⟨.fm, reg, val, c⟩ s

/-- The model of a synthesizer slot; an absent SID2 has none, and is never probed. -/
def synthModel (cfg : SessionConfig) : SynthId → ChipModel
  | .sid1 => cfg.modelSid1
  | .sid2 => cfg.modelSid2.getD .modelA

/-- BUS.READ.PROBE (R162): the sentinel is driven, then the counter resets. -/
def busReadProbe (ch : SynthId) : State → State :=
  activation fun _ s => detProbe ch (driveByte (s.params.sentinelOf (synthModel s.cfg ch)) s)

/-- BUS.READ.SID (R160): the read-back image as BD sees it (R100). -/
def busReadSid (ch : SynthId) (reg : RegIx) : State → State :=
  activation fun _ s => driveByte (Memory.get (s.rbView.get ch.chip) reg.toNat) s

/-- The table of the special region; with none configured the row is not selected. -/
def specialBytes (cfg : SessionConfig) : Memory :=
  match cfg.special with
  | some sp => sp.bytes
  | none => []

/-- BUS.READ.SPECIAL (R163): not gated by read emulation. -/
def busReadSpecial (off : Byte) : State → State :=
  activation fun _ s => driveByte (Memory.get (specialBytes s.cfg) off.toNat) s

/-- BUS.NOP (R164): nothing beyond the frame. -/
def busNop : State → State := activation fun _ s => s

/-- BUS.MEASURE (R166): one bus cycle counted toward the measurement of CLK, nothing else (log 13). -/
def execBusMeasure (s : State) : Host.Outcome State Fault Refusal :=
  perform .measuring s "BUS.MEASURE" true { s with measureCount := s.measureCount + 1 }

/-- BUS.RESET (R152). -/
def execBusReset (s : State) : Host.Outcome State Fault Refusal :=
  perform .running s "BUS.RESET" true (busReset s)

/-- BUS.WRITE.SID, SID1 (R157). -/
def execBusWriteSid1 (reg : RegIx) (val : Byte) (s : State) : Host.Outcome State Fault Refusal :=
  perform .running s "BUS.WRITE.SID" (s.cfg.active .sid1) (busWriteSid .sid1 reg val s)

/-- BUS.WRITE.SID, SID2 (R157): SID2 in Active. -/
def execBusWriteSid2 (reg : RegIx) (val : Byte) (s : State) : Host.Outcome State Fault Refusal :=
  perform .running s "BUS.WRITE.SID" (s.cfg.active .sid2) (busWriteSid .sid2 reg val s)

/-- BUS.WRITE.FM (R158): cfg.fmEnabled. -/
def execBusWriteFm (reg : RegIx) (val : Byte) (s : State) : Host.Outcome State Fault Refusal :=
  perform .running s "BUS.WRITE.FM" (s.cfg.active .fm) (busWriteFm reg val s)

/-- BUS.READ.PROBE, SID1 (R162): cfg.readEmu and det[SID1].step = L. -/
def execBusReadProbe1 (s : State) : Host.Outcome State Fault Refusal :=
  perform .running s "BUS.READ.PROBE" (s.cfg.active .sid1 && s.cfg.readEmu && detTerminal s .sid1) (busReadProbe .sid1 s)

/-- BUS.READ.PROBE, SID2 (R162): cfg.readEmu and det[SID2].step = L and SID2 in Active. -/
def execBusReadProbe2 (s : State) : Host.Outcome State Fault Refusal :=
  perform .running s "BUS.READ.PROBE" (s.cfg.active .sid2 && s.cfg.readEmu && detTerminal s .sid2) (busReadProbe .sid2 s)

/-- BUS.READ.SID, SID1 (R160): cfg.readEmu, and not the case of R162. -/
def execBusReadSid1 (reg : RegIx) (s : State) : Host.Outcome State Fault Refusal :=
  perform .running s "BUS.READ.SID"
    (s.cfg.active .sid1 && s.cfg.readEmu && !(detTerminal s .sid1 && decide (reg = s.params.probeReg)))
    (busReadSid .sid1 reg s)

/-- BUS.READ.SID, SID2 (R160): cfg.readEmu and SID2 in Active, and not the case of R162. -/
def execBusReadSid2 (reg : RegIx) (s : State) : Host.Outcome State Fault Refusal :=
  perform .running s "BUS.READ.SID"
    (s.cfg.active .sid2 && s.cfg.readEmu && !(detTerminal s .sid2 && decide (reg = s.params.probeReg)))
    (busReadSid .sid2 reg s)

/-- BUS.READ.SPECIAL (R163): cfg.special is present. -/
def execBusReadSpecial (off : Byte) (s : State) : Host.Outcome State Fault Refusal :=
  perform .running s "BUS.READ.SPECIAL" s.cfg.special.isSome (busReadSpecial off s)

/-- BUS.NOP (R164). -/
def execBusNop (s : State) : Host.Outcome State Fault Refusal :=
  perform .running s "BUS.NOP" true (busNop s)

/-- RESET.COMMIT executed by itself, when the run qualifies (R345). -/
def execResetCommit (s : State) : Host.Outcome State Fault Refusal :=
  perform .running s "RESET.COMMIT" (resetQualified s) (resetCommit s)

end Sys2Proof.Machine
end

