-- ==== Sys2Proof/Machine/Mixer.lean ====
section
/-! DEFINITION. The mixer, its weights and the sink interface (45_mixer R280 to R289). -/

namespace Sys2Proof.Machine

/-- floor_shift(v, n): the arithmetic shift right that rounds toward minus infinity (R15). -/
def floorShift (v : Int) (n : Nat) : Int := v / (2 : Int) ^ n

/-- clamp(lo, hi, v) = max(lo, min(hi, v)) (R15). -/
def clampInt (lo hi v : Int) : Int := max lo (min hi v)

/-- The reference PanLaw (R286). -/
def referencePanLaw (volume pan : Nat) (stereo : Bool) : Int × Int :=
  if stereo then
    (((volume * (14 - pan) * 256 / 210 : Nat) : Int), ((volume * pan * 256 / 210 : Nat) : Int))
  else
    (((volume * 256 / 30 : Nat) : Int), ((volume * 256 / 30 : Nat) : Int))

/-- PanLaw (R285): the reference law, or one the spec leaves open. -/
def panLaw (sel : PanLawSel) (volume pan : Nat) (stereo : Bool) : Int × Int :=
  match sel with
  | .reference => referencePanLaw volume pan stereo
  | .custom => Config.customPanLaw volume pan stereo

/-- The weights of one source (R285). -/
def weightOf (p : Params) (cfg : SessionConfig) (c : ChipId) : Int × Int :=
  panLaw p.panLaw (cfg.volume.get c) (cfg.pan.get c) cfg.stereoMix

/-- The weights of a session, for the active chips (R57, R285). -/
def sessionWeights (p : Params) (cfg : SessionConfig) : PerChip (Int × Int) :=
  onActive cfg ⟨(0, 0), (0, 0), (0, 0)⟩ ⟨weightOf p cfg .sid1, weightOf p cfg .sid2, weightOf p cfg .fm⟩

/-- What one source adds to an accumulator: nothing when it is not active (R282). -/
def contribution (s : State) (c : ChipId) (weight : Int) (samples : PerChip Sample) : Int :=
  if s.cfg.active c then weight * (samples.get c).toInt else 0

/-- The left accumulator (R282), with no truncation. -/
def accLeft (s : State) (samples : PerChip Sample) : Int :=
  contribution s .sid1 s.weights.sid1.1 samples + contribution s .sid2 s.weights.sid2.1 samples
    + contribution s .fm s.weights.fm.1 samples

/-- The right accumulator (R282), with no truncation. -/
def accRight (s : State) (samples : PerChip Sample) : Int :=
  contribution s .sid1 s.weights.sid1.2 samples + contribution s .sid2 s.weights.sid2.2 samples
    + contribution s .fm s.weights.fm.2 samples

/-- Shift by WSHIFT, then clamp once (R282, R287). -/
def finishChannel (p : Params) (acc : Int) : Int :=
  clampInt p.sampleMin p.sampleMax (floorShift acc p.wshift)

/-- MIX: weigh, sum, shift, clamp (R282). -/
def mixPair (s : State) (samples : PerChip Sample) : Int × Int :=
  (finishChannel s.params (accLeft s samples), finishChannel s.params (accRight s samples))

/-- SINK.WRITE: one pair, left then right, appended to what the sink was given (R283, R288); the synthetic sink queues it (R289). -/
def sinkWrite (left right : Int) (s : State) : State :=
  { s with
    sinkOut := s.sinkOut ++ [(left, right)]
    synth := s.synth.map fun y => { y with q := y.q + 1 } }

/-- SINK.queryQueueOccupancy() (R257, R288): the input, or what the synthetic sink returns (R289). -/
def sinkOccupancy (s : State) : Nat :=
  match s.synth with
  | some y => y.q
  | none => s.occIn

/-- One tick of the synthetic sink (R289): it consumes what its clock asks for; on an underrun it plays silence. -/
def tickSink (clk : Nat) (y : SynthSink) : SynthSink :=
  let want := (y.t + 1) * y.rate / clk
  { y with t := y.t + 1, c := max y.c want, q := y.q - min y.q (want - y.c) }

/-- MIX executed by itself: the pair is left in `mixed` (log 20); MIX writes no state of the core (R282). -/
def execMix (samples : PerChip Sample) (s : State) : Host.Outcome State Fault Refusal :=
  perform .running s "MIX" true { s with mixed := mixPair s samples }

/-- SINK.WRITE, when the sink is available (R283). -/
def execSinkWrite (left right : Int) (s : State) : Host.Outcome State Fault Refusal :=
  perform .running s "SINK.WRITE" s.sinkAvailable (sinkWrite left right s)

end Sys2Proof.Machine
end

