-- ==== Sys2Proof/Machine/RateControl.lean ====
section
/-! DEFINITION. The adaptive sample-rate controller (44_rate_controller R255 to R268). All quantities are naturals and no comparison subtracts (R268). -/

namespace Sys2Proof.Machine

/-- RATE.ACQUIRE (R260). -/
def rateAcquire (avg : Nat) (s : State) : State :=
  { s with rc := { s.rc with wm := max avg s.params.minWatermark } }

/-- RATE.UP (R261): RATE_STEP is 1. -/
def rateUp (s : State) : State :=
  { s with rc := { s.rc with rate := min (s.rc.rate + 1) s.params.rateMax } }

/-- RATE.DOWN (R262). -/
def rateDown (s : State) : State :=
  { s with rc := { s.rc with rate := max (s.rc.rate - 1) s.params.rateMin } }

/-- RATE.HOLD (R263): the rate is unchanged. -/
def rateHold (s : State) : State := s

/-- The decision of a closing window, the four cases in the order written (R259). -/
def rateDecide (avg : Nat) (s : State) : State :=
  if acquiring s then rateAcquire avg s
  else if sinkLow s avg then rateUp s
  else if sinkHigh s avg then rateDown s
  else rateHold s

/-- The bookkeeping of a closing window (R259). -/
def closeWindow (s : State) : State :=
  { s with rc := { s.rc with mc := min (s.rc.mc + 1) s.params.acqWindows, sum := 0, n := 0 } }

/-- RATE.WINDOW (R259). -/
def rateWindow (s : State) : State := closeWindow (rateDecide (windowAverage s) s)

/-- The counting part of RATE.ACCUM (R258). -/
def countSample (occ : Nat) (s : State) : State :=
  { s with rc := { s.rc with sum := s.rc.sum + occ, n := s.rc.n + 1 } }

/-- RATE.ACCUM (R258). -/
def rateAccum (occ : Nat) (s : State) : State :=
  if windowComplete (countSample occ s) then rateWindow (countSample occ s) else countSample occ s

/-- RATE.ACCUM, when the sink is available (R258, R266). -/
def execRateAccum (occ : Nat) (s : State) : Host.Outcome State Fault Refusal :=
  perform .running s "RATE.ACCUM" s.sinkAvailable (rateAccum occ s)

/-- RATE.WINDOW, when the window is complete (R259). -/
def execRateWindow (s : State) : Host.Outcome State Fault Refusal :=
  perform .running s "RATE.WINDOW" (windowComplete s) (rateWindow s)

/-- RATE.ACQUIRE, when the window closes during acquisition (R260). -/
def execRateAcquire (avg : Nat) (s : State) : Host.Outcome State Fault Refusal :=
  perform .running s "RATE.ACQUIRE" (windowComplete s && acquiring s) (rateAcquire avg s)

/-- RATE.UP, when the window closes after acquisition with the sink running dry (R261; log 29). -/
def execRateUp (s : State) : Host.Outcome State Fault Refusal :=
  perform .running s "RATE.UP" (windowComplete s && !acquiring s && sinkLow s (windowAverage s)) (rateUp s)

/-- RATE.DOWN, when the window closes after acquisition with the sink filling up and not RATE.UP (R262; log 29). -/
def execRateDown (s : State) : Host.Outcome State Fault Refusal :=
  perform .running s "RATE.DOWN"
    (windowComplete s && !acquiring s && !sinkLow s (windowAverage s) && sinkHigh s (windowAverage s)) (rateDown s)

/-- RATE.HOLD, when the window closes after acquisition inside the dead band (R263; log 29). -/
def execRateHold (s : State) : Host.Outcome State Fault Refusal :=
  perform .running s "RATE.HOLD"
    (windowComplete s && !acquiring s && !sinkLow s (windowAverage s) && !sinkHigh s (windowAverage s)) (rateHold s)

end Sys2Proof.Machine
end

