-- ==== Sys2Proof/Machine/Engine.lean ====
section
/-! DEFINITION. The engine (42_chip_engine R210 to R222): its choice of operation, the stepper, the sample, the application of an event, publication, idling and exit. -/

namespace Sys2Proof.Machine

/-- The current output of each chip slot (R217). -/
def chipOutputs (s : State) : PerChip Sample :=
  ⟨chipOutput s.chip.sid1.core, chipOutput s.chip.sid2.core, chipOutput s.chip.fm.core⟩

/-- EN.SAMPLE (R217): the pair is mixed; with the sink available it is written and the rate controller counts it, else it
is dropped (R266, R283). -/
def takeSample (s : State) : State :=
  let pair := mixPair s (chipOutputs s)
  let s1 : State := { s with mixed := pair }
  if s1.sinkAvailable then
    let s2 := sinkWrite pair.1 pair.2 s1
    rateAccum (sinkOccupancy s2) s2
  else s1

/-- One chip clocked k cycles (R214). -/
def clockChip (k : Nat) (c : ChipState) : ChipState := ⟨chipClock c.core k, c.emu + k⟩

/-- Every active chip clocked k cycles, and E with them (R214). -/
def clockChips (k : Nat) (s : State) : State :=
  { s with
    chip := onActive s.cfg s.chip
      ⟨clockChip k s.chip.sid1, clockChip k s.chip.sid2, clockChip k s.chip.fm⟩
    E := s.E + k }

/-- The sample check at E (R216): one sample when S differs from prevS, whatever the difference. -/
def sampleCheck (s : State) : State :=
  if sampleIndexAt s s.E ≠ s.prevS then takeSample { s with prevS := sampleIndexAt s s.E } else s

/-- EN.STEP (R214): clock, publish, check for a sample. -/
def engineStep (k : Nat) (s : State) : State := sampleCheck (publish (clockChips k s))

/-- EN.APPLY (R212): the head event is written into its chip. -/
def applyHead (s : State) : State :=
  let ev := headEvent s
  let target := s.chip.get ev.chip
  publish
    { s with
      chip := s.chip.set ev.chip { target with core := chipWrite target.core ev.reg ev.val }
      readIndex := s.readIndex + 1 }

/-- A slice of k cycles stays short of the next visible event (R215). -/
def sliceBeforeHead (k : Nat) (s : State) : Bool :=
  match peek s with
  | some t => decide (s.E + k ≤ t)
  | none => true

/-- No sample check inside a slice of k cycles would have fired: E + j for j in 1 .. k-1 (R215). -/
def sliceQuiet (k : Nat) (s : State) : Bool :=
  (List.range (k - 1)).all fun j => decide (sampleIndexAt s (s.E + (j + 1)) = s.prevS)

/-- A slice of k cycles equals k single steps (R215). One cycle always does. -/
def sliceAllowed (k : Nat) (s : State) : Bool :=
  decide (k = 1) ||
    (decide (1 ≤ k) && decide (k ≤ s.params.sliceMax) && decide (s.E + k ≤ s.nowView) &&
      sliceBeforeHead k s && sliceQuiet k s)

/-- Which operation the engine performs at its turn (R211), with the slice length asked for where it is allowed and one
cycle where it is not. -/
def selectEngine (slice : Nat) (s : State) : Instr :=
  match s.exitCond with
  | some r => .enExit r
  | none =>
    if headDue s then .enApply
    else if engineBehind s then .enStep (if sliceAllowed slice s then slice else 1)
    else .enIdle

/-- EN.EXIT (R222): only for the exit condition that is present. -/
def execEnExit (reason : ExitReason) (s : State) : Host.Outcome State Fault Refusal :=
  perform .running s "EN.EXIT" (decide (s.exitCond = some reason)) { s with phase := .exited reason }

/-- EN.APPLY, when the head is visible and due (R212). -/
def execEnApply (s : State) : Host.Outcome State Fault Refusal :=
  perform .running s "EN.APPLY" (headDue s) (applyHead s)

/-- EN.STEP, when no visible event is due, the engine is behind, and the slice is allowed (R214, R215). -/
def execEnStep (k : Nat) (s : State) : Host.Outcome State Fault Refusal :=
  perform .running s "EN.STEP" (!headDue s && engineBehind s && sliceAllowed k s) (engineStep k s)

/-- EN.SAMPLE executed by itself (R217). -/
def execEnSample (s : State) : Host.Outcome State Fault Refusal :=
  perform .running s "EN.SAMPLE" true (takeSample s)

/-- EN.PUBLISH executed by itself (R218). -/
def execEnPublish (s : State) : Host.Outcome State Fault Refusal :=
  perform .running s "EN.PUBLISH" true (publish s)

/-- EN.IDLE (R220): a stutter. -/
def execEnIdle (s : State) : Host.Outcome State Fault Refusal :=
  perform .running s "EN.IDLE" (decide (s.exitCond = none) && !headDue s && !engineBehind s) s

end Sys2Proof.Machine
end

