-- ==== Sys2Proof/Machine/Queue.lean ====
section
/-! DEFINITION. The event queue's operations executed by themselves (41_event_queue R180 to R184). -/

namespace Sys2Proof.Machine

/-- Q.ENQUEUE (R180): on a full queue it raises the fault and changes nothing else (R187). -/
def execQEnqueue (ev : BusEvent) (s : State) : Host.Outcome State Fault Refusal :=
  perform .running s "Q.ENQUEUE" true (enqueue ev s)

/-- Q.DRAINUPTO (R182): the drained events are left in `drained` (log 20). -/
def execQDrainUpTo (currentCycle : Nat) (s : State) : Host.Outcome State Fault Refusal :=
  perform .running s "Q.DRAINUPTO" true
    { s with drained := (drainUpTo currentCycle s).1, readIndex := (drainUpTo currentCycle s).2 }

/-- Q.PEEK (R183): the answer is left in `peeked` (log 20); nothing of the core changes. -/
def execQPeek (s : State) : Host.Outcome State Fault Refusal :=
  perform .running s "Q.PEEK" true { s with peeked := peek s }

/-- Q.FLUSH (R184). -/
def execQFlush (s : State) : Host.Outcome State Fault Refusal :=
  perform .running s "Q.FLUSH" true (flush s)

end Sys2Proof.Machine
end

