-- ==== Sys2Proof/Machine/Validity.lean ====
section
/-! DEFINITION. The validity predicate V1 to V9 of 70_reset R340. -/

namespace Sys2Proof

/-- A chip window lies in the address space, 32-aligned, with a line that exists (V2). -/
def windowOk (p : Params) (cs : Option Nat) (base bits : Nat) : Bool :=
  decide (base % 2 ^ bits = 0) && decide (base < 2 ^ p.aw) &&
    (match cs with
     | none => true
     | some i => decide (i < p.ncs))

/-- Two entries of the window list cover disjoint address ranges (V5, C10). -/
def regionsDisjoint (r t : Region) : Bool :=
  decide (r.base + 2 ^ r.bits ≤ t.base) || decide (t.base + 2 ^ t.bits ≤ r.base)

/-- All entries of a list are pairwise disjoint (V5). -/
def allDisjoint : List Region → Bool
  | [] => true
  | r :: rs => rs.all (regionsDisjoint r) && allDisjoint rs

/-- SENTINEL is defined at a model (V7). -/
def sentinelDefined (p : Params) (m : ChipModel) : Bool :=
  p.sentinel.any fun e => decide (e.1 = m)

/-- V1: the mapping mode fits the number of synthesizer chips. -/
def clauseV1 (cfg : SessionConfig) : Bool :=
  match cfg.mapMode, cfg.modelSid2 with
  | .single _, none => true
  | .sideBySide _ _, some _ => true
  | .sharedSel _ _, some _ => true
  | _, _ => false

/-- V2: every chip window is aligned, in the address space, on an existing line. -/
def clauseV2 (p : Params) (cfg : SessionConfig) : Bool :=
  cfg.windows.all fun r => decide (r.owner = .special) || windowOk p r.cs r.base r.bits

/-- V3: the select bit of the shared window. -/
def clauseV3 (p : Params) (cfg : SessionConfig) : Bool :=
  match cfg.mapMode with
  | .sharedSel w s => decide (5 ≤ s) && decide (s < p.aw) && !w.base.testBit s
  | _ => true

/-- V4: the special region; its 256 bytes are given, as a canonical table with no address past 255. -/
def clauseV4 (p : Params) (cfg : SessionConfig) : Bool :=
  match cfg.special with
  | some sp => windowOk p sp.cs sp.base 8 && Machine.Memory.wf sp.bytes && Machine.Memory.within 256 sp.bytes
  | none => true

/-- V5: the address ranges are pairwise disjoint. -/
def clauseV5 (cfg : SessionConfig) : Bool := allDisjoint cfg.windows

/-- V6: volume 0 to 15 and pan 0 to 14 for every active chip. -/
def clauseV6 (cfg : SessionConfig) : Bool :=
  [ChipId.sid1, .sid2, .fm].all fun c =>
    !cfg.active c || (decide (cfg.volume.get c ≤ 15) && decide (cfg.pan.get c ≤ 14))

/-- V7: with read emulation on, SENTINEL is defined for every active synthesizer chip. -/
def clauseV7 (p : Params) (cfg : SessionConfig) : Bool :=
  !cfg.readEmu ||
    (sentinelDefined p cfg.modelSid1 &&
      (match cfg.modelSid2 with
       | some m => sentinelDefined p m
       | none => true))

/-- V8: the parameter constraints, with those of R11 on AW and NCS. Register indices are 0 to 31 by their type. -/
def clauseV8 (p : Params) : Bool :=
  decide (6 ≤ p.aw) && decide (1 ≤ p.ncs) &&
  decide (2 ≤ p.qcap) && decide (2 ^ Nat.log2 p.qcap = p.qcap) && decide (p.qcap ≤ 2 ^ (p.idxw - 1)) &&
  decide (1 ≤ p.tRst) && decide (1 ≤ p.sliceMax) && decide (1 ≤ p.window) && decide (1 ≤ p.acqWindows) &&
  decide (1 ≤ p.detSeq.length) &&
  decide (0 < p.rateMin) && decide (p.rateMin ≤ p.nominalRate) && decide (p.nominalRate ≤ p.rateMax)

/-- V9: the measured clock is positive and not below the highest sample rate. -/
def clauseV9 (p : Params) (clk : Nat) : Bool := decide (0 < clk) && decide (p.rateMax ≤ clk)

/-- The first clause of V1 to V8 that a configuration fails; none when it passes them all. -/
def configViolation (p : Params) (cfg : SessionConfig) : Option Violation :=
  if !clauseV1 cfg then some .v1
  else if !clauseV2 p cfg then some .v2
  else if !clauseV3 p cfg then some .v3
  else if !clauseV4 p cfg then some .v4
  else if !clauseV5 cfg then some .v5
  else if !clauseV6 cfg then some .v6
  else if !clauseV7 p cfg then some .v7
  else if !clauseV8 p then some .v8
  else none

/-- The first clause of V1 to V9 that a configuration and a measured clock fail (R340). -/
def sessionViolation (p : Params) (cfg : SessionConfig) (clk : Nat) : Option Violation :=
  match configViolation p cfg with
  | some v => some v
  | none => if clauseV9 p clk then none else some .v9

end Sys2Proof
end

