-- ==== Sys2Proof/Machine/Session.lean ====
section
/-! DEFINITION. The start of a session (70_reset R340 to R343): as one step, and split at the measuring phase. -/

namespace Sys2Proof.Machine

/-- The first half of SESSION.START (R341): the configuration is copied, the weights derived, the measurement begins. -/
def openSession (config : SessionConfig) (s : State) : State :=
  { s with cfg := config, weights := sessionWeights s.params config, phase := .measuring, measureCount := 0 }

/-- The second half (R341, R60): CLK is the measured value, every state word takes its value after session start. -/
def runSession (clk : Nat) (s : State) : State :=
  let s1 := baseline { s with clk := clk }
  { s1 with resetRun := 0, fault := none, out := ⟨none, false⟩, phase := .running }

/-- start(config) with the measured clock, as one step (R341). -/
def startSession (config : SessionConfig) (clk : Nat) (s : State) : State :=
  runSession clk (openSession config s)

/-- A start that would run is refused when a clause of the validity predicate fails (R305). -/
def refuseInvalid (v : Option Violation) (o : Host.Outcome State Fault Refusal) : Host.Outcome State Fault Refusal :=
  match o, v with
  | .next _, some clause => .refused (.invalidConfig clause)
  | _, _ => o

/-- SESSION.START (R341): once, from NotStarted, with a configuration and a clock that pass V1 to V9 (R305, R340). -/
def execSessionStart (config : SessionConfig) (clk : Nat) (s : State) : Host.Outcome State Fault Refusal :=
  refuseInvalid (sessionViolation s.params config clk)
    (perform .notStarted s "SESSION.START" true (startSession config clk s))

end Sys2Proof.Machine
end

