-- ==== Sys2Proof/Machine/Dispatch.lean ====
section
/-! DEFINITION. The dispatch: one arm per constructor of Instr, one direct call of its meaning. -/

namespace Sys2Proof.Machine

def exec (i : Instr) (s : State) : Host.Outcome State Fault Refusal :=
  match i with
  | .busMeasure => Sys2Proof.Machine.execBusMeasure s
  | .busReset => Sys2Proof.Machine.execBusReset s
  | .busWriteSid1 reg val => Sys2Proof.Machine.execBusWriteSid1 reg val s
  | .busWriteSid2 reg val => Sys2Proof.Machine.execBusWriteSid2 reg val s
  | .busWriteFm reg val => Sys2Proof.Machine.execBusWriteFm reg val s
  | .busReadProbe1 => Sys2Proof.Machine.execBusReadProbe1 s
  | .busReadProbe2 => Sys2Proof.Machine.execBusReadProbe2 s
  | .busReadSid1 reg => Sys2Proof.Machine.execBusReadSid1 reg s
  | .busReadSid2 reg => Sys2Proof.Machine.execBusReadSid2 reg s
  | .busReadSpecial off => Sys2Proof.Machine.execBusReadSpecial off s
  | .busNop => Sys2Proof.Machine.execBusNop s
  | .qEnqueue ev => Sys2Proof.Machine.execQEnqueue ev s
  | .qDrainUpTo currentCycle => Sys2Proof.Machine.execQDrainUpTo currentCycle s
  | .qPeek => Sys2Proof.Machine.execQPeek s
  | .qFlush => Sys2Proof.Machine.execQFlush s
  | .detAdvance ch reg val => Sys2Proof.Machine.execDetAdvance ch reg val s
  | .detMiss ch reg val => Sys2Proof.Machine.execDetMiss ch reg val s
  | .detProbe ch => Sys2Proof.Machine.execDetProbe ch s
  | .enExit reason => Sys2Proof.Machine.execEnExit reason s
  | .enApply => Sys2Proof.Machine.execEnApply s
  | .enStep k => Sys2Proof.Machine.execEnStep k s
  | .enSample => Sys2Proof.Machine.execEnSample s
  | .enPublish => Sys2Proof.Machine.execEnPublish s
  | .enIdle => Sys2Proof.Machine.execEnIdle s
  | .mix samples => Sys2Proof.Machine.execMix samples s
  | .sinkWrite left right => Sys2Proof.Machine.execSinkWrite left right s
  | .rateAccum occ => Sys2Proof.Machine.execRateAccum occ s
  | .rateWindow => Sys2Proof.Machine.execRateWindow s
  | .rateAcquire avg => Sys2Proof.Machine.execRateAcquire avg s
  | .rateUp => Sys2Proof.Machine.execRateUp s
  | .rateDown => Sys2Proof.Machine.execRateDown s
  | .rateHold => Sys2Proof.Machine.execRateHold s
  | .sessionStart config clk => Sys2Proof.Machine.execSessionStart config clk s
  | .resetCommit => Sys2Proof.Machine.execResetCommit s

end Sys2Proof.Machine
end

