-- ==== Sys2Proof/Decode.lean ====
section
/-! DEFINITION. The decode of one activation (30_encoding R130): from the phase, the configuration, the detection counters and the snapshot to a bus operation; the mask and match rows of R133; the encoder; and the table word the host asks for. -/

namespace Sys2Proof

/-- Why the bus domain decodes nothing. -/
inductive DecodeError where
  /-- phase NotStarted: no activation has a step (R156) -/
  | notStarted
  /-- phase Exited: no activation has a step (R156) -/
  | exited
  /-- a word that is not the 32-bit snapshot; there is no other form (R134) -/
  | badWidth (nbits : Nat)
  deriving DecidableEq, Repr

/-- BUS.WRITE.SID of a synthesizer chip. -/
def writeSidOf : SynthId → RegIx → Byte → Instr
  | .sid1, reg, val => .busWriteSid1 reg val
  | .sid2, reg, val => .busWriteSid2 reg val

/-- BUS.READ.PROBE of a synthesizer chip. -/
def readProbeOf : SynthId → Instr
  | .sid1 => .busReadProbe1
  | .sid2 => .busReadProbe2

/-- BUS.READ.SID of a synthesizer chip. -/
def readSidOf : SynthId → RegIx → Instr
  | .sid1, reg => .busReadSid1 reg
  | .sid2, reg => .busReadSid2 reg

/-- Lines 3, 4 and 8 of R130, for a write. -/
def decodeWrite (cfg : SessionConfig) (sn : Snap) : Instr :=
  match cfg.synthAt sn with
  | some ch => writeSidOf ch sn.reg sn.d
  | none => if cfg.ownerAt (.chip .fm) sn then .busWriteFm sn.reg sn.d else .busNop

/-- Lines 7 and 8 of R130, for a read. -/
def decodeSpecial (cfg : SessionConfig) (sn : Snap) : Instr :=
  if cfg.ownerAt .special sn then .busReadSpecial sn.off else .busNop

/-- Lines 5 to 8 of R130, for a read: the detection override is tested before the normal read. -/
def decodeRead (p : Params) (cfg : SessionConfig) (steps : PerSynth Nat) (sn : Snap) : Instr :=
  match (if cfg.readEmu then cfg.synthAt sn else none) with
  | some ch =>
    if steps.get ch = p.detSeq.length ∧ sn.reg = p.probeReg then readProbeOf ch else readSidOf ch sn.reg
  | none => decodeSpecial cfg sn

/-- The decode order of R130 in phase Running. -/
def decodeRunning (p : Params) (cfg : SessionConfig) (steps : PerSynth Nat) (sn : Snap) : Instr :=
  if sn.rst then .busReset
  else if sn.rw then decodeRead p cfg steps sn
  else decodeWrite cfg sn

/-- The whole decode (R130, R156): `steps` are the detection counters. -/
def decode (p : Params) (cfg : SessionConfig) (ph : Phase) (steps : PerSynth Nat) (sn : Snap) :
    Except DecodeError Instr :=
  match ph with
  | .notStarted => .error .notStarted
  | .exited _ => .error .exited
  | .measuring => .ok .busMeasure
  | .running => .ok (decodeRunning p cfg steps sn)

/-- The decode of a word of `nbits` bits: only the 32-bit snapshot is one. -/
def decodeWord (p : Params) (cfg : SessionConfig) (ph : Phase) (steps : PerSynth Nat) (nbits w : Nat) :
    Except DecodeError Instr :=
  if nbits = 32 then decode p cfg ph steps (Snap.ofWord (BitVec.ofNat 32 w)) else .error (.badWidth nbits)

/-- The table's rows are those of REFCFG with two chips (R133, R137), each read with its `condition` column true: phase
Running, both detection counters terminal (log 28). -/
def tableSteps : PerSynth Nat := ⟨refParams.detSeq.length, refParams.detSeq.length⟩

/-- The instruction the decoder reads from a table word. -/
def decodeTableWord (nbits w : Nat) : Option Instr :=
  match decodeWord refParams refConfig .running tableSteps nbits w with
  | .ok i => some i
  | .error _ => none

/-- The row of the reset line: bit 25 (R133). -/
def rstBit : SnapWord := 0x02000000#32

/-- The direction bit: bit 24 (R121). -/
def rwBit : SnapWord := 0x01000000#32

/-- The bit of a chip-select line: bit 26 + i (R121). -/
def csBit (need : Option Nat) : SnapWord :=
  match need with
  | none => 0
  | some i => 1#32 <<< (26 + i)

/-- The address bits a window tests: A[15:bits] (R133). -/
def highAddressBits (bits : Nat) : SnapWord := BitVec.ofNat 32 (2 ^ 16 - 2 ^ bits)

/-- The general form of a window row's mask: RST, RW, the address above the low bits, and the chip-select bit (R133). -/
def rowMask (r : Region) : SnapWord := rstBit ||| rwBit ||| highAddressBits r.bits ||| csBit r.cs

/-- The general form of a window row's match: the base, RW for a read, and the chip-select bit (R133). -/
def rowMatch (r : Region) (read : Bool) : SnapWord :=
  BitVec.ofNat 32 r.base ||| (if read then rwBit else 0) ||| csBit r.cs

/-- For a probe row A[4:0] joins the mask (R133). -/
def probeMask (r : Region) : SnapWord := rowMask r ||| 0x1F#32

/-- For a probe row PROBE_REG joins the match (R133). -/
def probeMatch (p : Params) (r : Region) : SnapWord := rowMatch r true ||| p.probeReg.zeroExtend 32

/-- One row of the table of R133: mask, match, and the operation it stands for given the word's fields. -/
structure BusRow where
  mask : SnapWord
  mtch : SnapWord
  op : RegIx → Byte → Byte → Instr

/-- The rows of R133 under REFCFG with two chips, in order; the arguments of `op` are the register index A[4:0], the
data D and the offset A[7:0]. `t1` and `t2` say that the detection counters are terminal (the last column). -/
def refRows (t1 t2 : Bool) : List BusRow :=
  [⟨0x02000000#32, 0x02000000#32, fun _ _ _ => .busReset⟩,
   ⟨0x0300FFE0#32, 0x0000D400#32, fun r d _ => .busWriteSid1 r d⟩,
   ⟨0x0300FFE0#32, 0x0000D420#32, fun r d _ => .busWriteSid2 r d⟩,
   ⟨0x0B00FFE0#32, 0x0800DF40#32, fun r d _ => .busWriteFm r d⟩]
  ++ (if t1 then [⟨0x0300FFFF#32, 0x0100D41B#32, fun _ _ _ => .busReadProbe1⟩] else [])
  ++ (if t2 then [⟨0x0300FFFF#32, 0x0100D43B#32, fun _ _ _ => .busReadProbe2⟩] else [])
  ++ [⟨0x0300FFE0#32, 0x0100D400#32, fun r _ _ => .busReadSid1 r⟩,
      ⟨0x0300FFE0#32, 0x0100D420#32, fun r _ _ => .busReadSid2 r⟩,
      ⟨0x0700FF00#32, 0x0500DE00#32, fun _ _ o => .busReadSpecial o⟩,
      ⟨0x02000000#32, 0x00000000#32, fun _ _ _ => .busNop⟩]

/-- The first row a word selects, rows tried top to bottom (R133). -/
def selectRow (rows : List BusRow) (w : SnapWord) : Option Instr :=
  (rows.find? fun r => w &&& r.mask == r.mtch).map fun r =>
    r.op (w.extractLsb' 0 5) (w.extractLsb' 16 8) (w.extractLsb' 0 8)

/-- The entry of the window list that a chip or the special region has. -/
def SessionConfig.regionOf (cfg : SessionConfig) (o : Owner) : Option Region :=
  cfg.windows.find? fun r => decide (r.owner = o)

/-- The word of a transaction on the entry of an owner: its match, the low address bits, and the data (R133). -/
def regionWord (cfg : SessionConfig) (o : Owner) (read : Bool) (low : Nat) (d : Byte) : Option SnapWord :=
  (cfg.regionOf o).map fun r => rowMatch r read ||| BitVec.ofNat 32 low ||| (d.zeroExtend 32 <<< 16)

/-- A word that decodes to an instruction, for AW = 16 and NCS = 4 (R133, R136): BUS.RESET as `RST`, BUS.NOP as
`IDLE`; any word is BUS.MEASURE in phase Measuring. The operations of the GUARD rows have no word (R137). -/
def encode (p : Params) (cfg : SessionConfig) : Instr → Option SnapWord
  | .busMeasure => some 0
  | .busReset => some rstBit
  | .busWriteSid1 reg val => regionWord cfg (.chip .sid1) false reg.toNat val
  | .busWriteSid2 reg val => regionWord cfg (.chip .sid2) false reg.toNat val
  | .busWriteFm reg val => regionWord cfg (.chip .fm) false reg.toNat val
  | .busReadProbe1 => regionWord cfg (.chip .sid1) true p.probeReg.toNat 0
  | .busReadProbe2 => regionWord cfg (.chip .sid2) true p.probeReg.toNat 0
  | .busReadSid1 reg => regionWord cfg (.chip .sid1) true reg.toNat 0
  | .busReadSid2 reg => regionWord cfg (.chip .sid2) true reg.toNat 0
  | .busReadSpecial off => regionWord cfg .special true off.toNat 0
  | .busNop => some rwBit
  | .qEnqueue _ => none
  | .qDrainUpTo _ => none
  | .qPeek => none
  | .qFlush => none
  | .detAdvance _ _ _ => none
  | .detMiss _ _ _ => none
  | .detProbe _ => none
  | .enExit _ => none
  | .enApply => none
  | .enStep _ => none
  | .enSample => none
  | .enPublish => none
  | .enIdle => none
  | .mix _ => none
  | .sinkWrite _ _ => none
  | .rateAccum _ => none
  | .rateWindow => none
  | .rateAcquire _ => none
  | .rateUp => none
  | .rateDown => none
  | .rateHold => none
  | .sessionStart _ _ => none
  | .resetCommit => none

end Sys2Proof
end

