-- ==== Sys2Proof/Machine/Fetch.lean ====
section
/-! DEFINITION. The scheduler: the next entry of the script is taken, its inputs are latched, and the operation it selects is named. The core fetches no instruction (R16, R80); the snapshot of a strobe is what selects a bus operation (R130), the state is what selects an engine operation (R211). -/

namespace Sys2Proof.Machine

/-- What a turn comes to. -/
inductive Fetched where
  /-- an operation runs in a state -/
  | run (i : Instr) (s : State)
  /-- no operation of the core runs; the state after the turn -/
  | pass (s : State)
  /-- the turn cannot be taken -/
  | stop (r : Refusal)

/-- The detection counters as the decoder reads them (R130). -/
def detSteps (s : State) : PerSynth Nat := ⟨s.det.sid1.step, s.det.sid2.step⟩

/-- BD's views made exact (R100): an image still on its way is older than what BD has seen now, so it is dropped. A stale
value is read by a sync turn before a strobe that is not fresh (log 8). -/
def refreshBus (s : State) : State := { s with rView := s.readIndex, rbView := s.rb, rbFlight := [] }

/-- EN's views made exact: cycleCount, then writeIndex (R100, R102). A stale value is read by a sync turn before an engine
turn that is not fresh (log 8). -/
def refreshEngine (s : State) : State := { s with nowView := s.cycleCount, wView := s.writeIndex }

/-- The lines are sampled at the start of an activation (R120, R150); a running synthetic sink ticks (R289). -/
def latchStrobe (sn : Snap) (fresh : Bool) (s : State) : State :=
  let s1 : State :=
    { s with
      snap := sn.onLines s.params
      synth := if s.phase = .running then s.synth.map (tickSink s.clk) else s.synth }
  if fresh then refreshBus s1 else s1

/-- An exit condition stays once it is there (R319). -/
def keepExit : Option ExitReason → Option ExitReason → Option ExitReason
  | some r, _ => some r
  | none, e => e

/-- The engine's inputs are latched at its turn; an exit condition stays once it is there (R319). -/
def latchEngine (inp : EngineInput) (s : State) : State :=
  let s1 : State :=
    { s with
      sinkAvailable := inp.sink
      occIn := inp.occ
      exitCond := keepExit s.exitCond inp.exit }
  if inp.fresh then refreshEngine s1 else s1

/-- The operation the sampled snapshot selects (R130, R156). -/
def decodeState (s : State) : Except DecodeError Instr :=
  decode s.params s.cfg s.phase (detSteps s) s.snap

/-- A strobe: BD runs the operation its snapshot selects; in NotStarted and Exited BD has no step (R156). -/
def fetchStrobe (sn : Snap) (fresh : Bool) (s : State) : Fetched :=
  match decodeState (latchStrobe sn fresh s) with
  | .ok i => .run i (latchStrobe sn fresh s)
  | .error _ => .pass s

/-- An engine turn: EN runs only in phase Running (R54). -/
def fetchEngine (inp : EngineInput) (s : State) : Fetched :=
  if s.phase = .running then .run (selectEngine inp.slice (latchEngine inp s)) (latchEngine inp s) else .pass s

/-- A reading of a counter by the other domain (R100): the value asked for, but none older than the last one read and none
newer than the counter. Within an epoch a counter grows by one at a time, so each value between the two is one it held. -/
def readBetween (view word target : Nat) : Nat := max view (min target word)

/-- EN reads cycleCount as c and then writeIndex as w (R100): whatever w is, no event that is due by what EN saw of
cycleCount stays unseen (R101, R102). -/
def seeCycles (c w : Nat) (s : State) : State :=
  let now := readBetween s.nowView s.cycleCount c
  let seen := readBetween s.wView s.writeIndex w
  { s with
    nowView := now
    wView := (drainLoop s.slots s.params.qcap now (s.writeIndex - seen) seen).2 }

/-- The present read-back image sets out for BD (R100; log 8). -/
def captureImage (s : State) : State := { s with rbFlight := s.rbFlight ++ [s.rb] }

/-- The oldest image on its way reaches BD, or the present one when none is (R100; log 8). -/
def deliverImage (s : State) : State :=
  match s.rbFlight with
  | [] => { s with rbView := s.rb }
  | image :: rest => { s with rbView := image, rbFlight := rest }

/-- A shared word reaches the other domain, late or not (R100). -/
def syncView (v : ViewSync) (s : State) : State :=
  match v with
  | .now c w => seeCycles c w s
  | .writeIx i => { s with wView := readBetween s.wView s.writeIndex i }
  | .readIx i => { s with rView := readBetween s.rView s.readIndex i }
  | .capture => captureImage s
  | .image => deliverImage s

/-- The first half of a split start (R341). -/
def fetchBegin (config : SessionConfig) (s : State) : Fetched :=
  if s.phase = .notStarted then
    match configViolation s.params config with
    | some v => .stop (.invalidConfig v)
    | none => .pass (openSession config s)
  else .stop (.wrongPhase s.phase)

/-- The second half of a split start: V9 is checked when CLK is known (R340, R341). DESIGN CHOICE (log 13): a clock that
fails V9 is refused in phase Measuring, with the configuration and the weights of the first half still written; R305's
`phase` stays NotStarted speaks of the start as one step, and the spec names no phase for a split start that fails here. -/
def fetchFinish (clk : Nat) (s : State) : Fetched :=
  if s.phase = .measuring then
    (if clauseV9 s.params clk then .pass (runSession clk s) else .stop (.invalidConfig .v9))
  else .stop (.wrongPhase s.phase)

/-- The engine turn taken when the script is empty: nothing arrives from outside, the background loop goes on (R4; log 9). -/
def idleInput (s : State) : EngineInput := ⟨s.sinkAvailable, s.occIn, none, 1, true⟩

/-- One entry of the script. -/
def fetchTurn (t : Turn) (s : State) : Fetched :=
  match t with
  | .strobe sn fresh => fetchStrobe sn fresh s
  | .strobeRaw raw fresh => fetchStrobe (s.params.readPins raw) fresh s
  | .engine inp => fetchEngine inp s
  | .sync v => .pass (syncView v s)
  | .start config clk => .run (.sessionStart config clk) s
  | .beginSession config => fetchBegin config s
  | .finishSession clk => fetchFinish clk s

/-- The entry at the head of the script is used up. -/
def takeTurn (rest : List Turn) (s : State) : State := { s with script := rest }

/-- The next turn; after EN.EXIT no agent has a step (R222, R319). -/
def fetch (s : State) : Fetched :=
  match s.phase with
  | .exited r => .stop (.wrongPhase (.exited r))
  | _ =>
    match s.script with
    | [] => fetchEngine (idleInput s) s
    | t :: rest => fetchTurn t (takeTurn rest s)

/-- The detection counter that makes a probe word select its row (R133: the row also tests det[ch].step = L). -/
def armProbe (sn : Snap) (s : State) : State :=
  if sn.rw ∧ ¬ sn.rst ∧ s.cfg.readEmu ∧ sn.reg = s.params.probeReg then
    match s.cfg.synthAt sn with
    | some ch => setDetStep ch (detLength s) s
    | none => s
  else s

/-- A state whose next step is the activation of one snapshot word: the strobe stands first in the script, the session is
running without a fault, and the counter a probe row tests is terminal (log 28). -/
def placeWord (nbits w : Nat) (s : State) : State :=
  let sn := Snap.ofWord (BitVec.ofNat 32 (w % 2 ^ nbits))
  armProbe sn { s with script := .strobe sn true :: s.script, phase := .running, fault := none }

end Sys2Proof.Machine
end

