-- ==== Sys2Proof/Machine/Step.lean ====
section
/-! DEFINITION. One step of the machine: with a fault nothing has a step (R300); else the next turn is fetched and its operation executed. -/

namespace Sys2Proof.Machine

/-- One step: one turn of the schedule (R4, R104). -/
def step (s : State) : Host.Outcome State Fault Refusal :=
  match s.fault with
  | some f => .fault (.fatal f)
  | none =>
    match fetch s with
    | .run i t => exec i t
    | .pass t => .next t
    | .stop r => .refused r

/-- The state whose next step runs one snapshot word. -/
def State.withFetchWord (s : State) (nbits w : Nat) : State := placeWord nbits w s

end Sys2Proof.Machine
end

