-- ==== Sys2Proof/Machine/Script.lean ====
section
/-! DEFINITION. The bus-script notation of 30_encoding R135 and R136, as turns of the schedule. -/

namespace Sys2Proof.Machine

/-- `W addr, val [, cs=mask]` (R135). -/
def scriptWrite (addr : Nat) (val : Byte) (cs : Nat) : Snap := ⟨addr, val, false, false, cs⟩

/-- `R addr [, cs=mask]` (R135). -/
def scriptRead (addr cs : Nat) : Snap := ⟨addr, 0, true, false, cs⟩

/-- `RST` (R135). -/
def scriptReset : Snap := ⟨0, 0, false, true, 0⟩

/-- `IDLE`: R 0x0000 with no line asserted (R135, R136). -/
def scriptIdle : Snap := scriptRead 0 0

/-- `line xN` (R135). -/
def repeatLine (n : Nat) (sn : Snap) : List Turn := List.replicate n (.strobe sn true)

/-- `WAIT n`: IDLE repeated until cycleCount = n (R136). -/
def waitUntil (s : State) (n : Nat) : List Turn := repeatLine (n - s.cycleCount) scriptIdle

/-- The chip-select mask that satisfies a window (R136). -/
def selectMask (need : Option Nat) : Nat :=
  match need with
  | none => 0
  | some i => 2 ^ i

/-- `POKE c, r, v`: a write to register r of the window of chip c (R136). -/
def poke (cfg : SessionConfig) (c : ChipId) (r : RegIx) (v : Byte) : Option Snap :=
  (cfg.regionOf (.chip c)).map fun g => scriptWrite (g.base + r.toNat) v (selectMask g.cs)

/-- `PEEK c, r`: a read of register r of the window of chip c (R136). -/
def peekRegister (cfg : SessionConfig) (c : ChipId) (r : RegIx) : Option Snap :=
  (cfg.regionOf (.chip c)).map fun g => scriptRead (g.base + r.toNat) (selectMask g.cs)

/-- One engine turn with exact views, one-cycle slices and the sink away: `EN*` is enough of these (R135). -/
def engineTurn : Turn := .engine ⟨false, 0, none, 1, true⟩

/-- `EN*` for at most n operations (R135). -/
def eager (n : Nat) : List Turn := List.replicate n engineTurn

end Sys2Proof.Machine
end

