-- ==== Sys2Proof/Safety.lean ====
section
/-! DEFINITION. What counts as a good state: a live session, and the invariants the spec gives (10_state R34, R39, R41, R46; 20_memory R100; 42_chip_engine R213; 43_detection R248; 44_rate_controller R264). -/

namespace Sys2Proof.Machine

/-- The session runs and has no fault: both agents have a step (R54, R300). -/
abbrev Live (s : State) : Prop := s.fault = none ∧ s.phase = .running

/-- The event at an index of the queue (R92). -/
def eventAt (s : State) (i : Nat) : BusEvent := Slots.get s.slots (slotNumber s.params.qcap i)

/-- An index is occupied: readIndex ≤ i < writeIndex (R37). -/
abbrev Pending (s : State) (i : Nat) : Prop := s.readIndex ≤ i ∧ i < s.writeIndex

/-- A byte array in canonical form with all its addresses below n. -/
abbrev CanonicalBytes (n : Nat) (m : Memory) : Prop := Memory.wf m = true ∧ Memory.within n m = true

/-- A history with no empty and no adjacent clock runs. -/
def historyWf : List ChipOp → Bool
  | [] => true
  | .write _ _ :: ops => historyWf ops
  | .clock k :: ops =>
    decide (k ≠ 0) && (match ops with
      | .clock _ :: _ => false
      | _ => true) && historyWf ops

/-- A chip core in canonical form. -/
def CanonicalCore : ChipCore → Prop
  | .testchip regs _ => CanonicalBytes 32 regs
  | .history _ _ ops => historyWf ops = true

/-- Every piece of the state that is held sparse is in its canonical form (log 14, 15). -/
structure Canonical (s : State) : Prop where
  capacity : 0 < s.params.qcap
  slots : Slots.wf s.params.qcap s.slots = true
  images : ∀ c, CanonicalBytes 32 (s.rb.get c) ∧ CanonicalBytes 32 (s.rbView.get c)
  flight : ∀ m ∈ s.rbFlight, ∀ c, CanonicalBytes 32 (m.get c)
  snapshots : ∀ ch, CanonicalBytes 32 (s.det.get ch).snapshot
  cores : ∀ c, CanonicalCore (s.chip.get c).core
  special : CanonicalBytes 256 (specialBytes s.cfg)

/-- The counters and the views in order (R34, R35, R41, R100). -/
structure CountersOrdered (s : State) : Prop where
  engine : s.E ≤ s.nowView ∧ s.nowView ≤ s.cycleCount
  indices : s.rView ≤ s.readIndex ∧ s.readIndex ≤ s.wView ∧ s.wView ≤ s.writeIndex
  occupancy : s.writeIndex - s.readIndex ≤ s.params.qcap
  run : s.resetRun ≤ s.params.tRst

/-- The queue's events in time (R39, R102, R104, R213): timestamps rise along the queue, none is past the bus, none is
behind the engine, and every event the engine could reach is visible to it. -/
structure QueueTimely (s : State) : Prop where
  rising : ∀ i, s.readIndex ≤ i → i + 1 < s.writeIndex → (eventAt s i).ts < (eventAt s (i + 1)).ts
  observed : ∀ i, Pending s i → (eventAt s i).ts ≤ s.cycleCount
  ahead : ∀ i, Pending s i → s.E ≤ (eventAt s i).ts
  coherent : ∀ i, Pending s i → (eventAt s i).ts ≤ s.nowView → i < s.wView

/-- In a running session the active chips are in lockstep and their images are published (R34, R46, R218). -/
structure ChipsPublished (s : State) : Prop where
  lockstep : s.phase = .running → ∀ c, s.cfg.active c = true → (s.chip.get c).emu = s.E
  image : s.phase = .running → ∀ c, s.cfg.active c = true →
    s.rb.get c = chipImage s.params.roRegs (s.chip.get c).core

/-- The bounds of the detection counters and, in a running session, of the rate controller (R43, R48, R50, R51, R264). -/
structure ControlBounds (s : State) : Prop where
  params : clauseV8 s.params = true
  detection : ∀ ch, (s.det.get ch).step ≤ detLength s
  rate : s.phase = .running → s.params.rateMin ≤ s.rc.rate ∧ s.rc.rate ≤ s.params.rateMax
  count : s.phase = .running → s.rc.n < s.params.window
  windows : s.phase = .running → s.rc.mc ≤ s.params.acqWindows
  watermark : s.phase = .running → 1 ≤ s.rc.mc → s.params.minWatermark ≤ s.rc.wm

/-- The state EN owns and no bus operation but a reset commit writes (R59, R313). -/
structure EngineOwned where
  readIndex : Nat
  chip : PerChip ChipState
  e : Nat
  prevS : Nat
  rb : PerChip Memory
  rc : RateState
  sinkOut : List (Int × Int)
  deriving DecidableEq, Repr

/-- The part of a state that EN owns. -/
def engineOwned (s : State) : EngineOwned := ⟨s.readIndex, s.chip, s.E, s.prevS, s.rb, s.rc, s.sinkOut⟩

/-- The state BD owns and no engine operation writes (R59, R313). -/
structure BusOwned where
  cycleCount : Nat
  resetRun : Nat
  slots : Slots
  writeIndex : Nat
  det : PerSynth DetState
  out : BusOut
  deriving DecidableEq, Repr

/-- The part of a state that BD owns. -/
def busOwned (s : State) : BusOwned := ⟨s.cycleCount, s.resetRun, s.slots, s.writeIndex, s.det, s.out⟩

/-- What nobody writes after session start (R57, R59, R354). -/
structure Frozen where
  params : Params
  cfg : SessionConfig
  clk : Nat
  weights : PerChip (Int × Int)
  deriving DecidableEq, Repr

/-- The part of a state that is fixed for a session. -/
def frozenPart (s : State) : Frozen := ⟨s.params, s.cfg, s.clk, s.weights⟩

/-- The operations an activation may select in phase Running with the reset line released (R130). -/
def isTransaction : Instr → Bool
  | .busMeasure => false
  | .busReset => false
  | .busWriteSid1 _ _ => true
  | .busWriteSid2 _ _ => true
  | .busWriteFm _ _ => true
  | .busReadProbe1 => true
  | .busReadProbe2 => true
  | .busReadSid1 _ => true
  | .busReadSid2 _ => true
  | .busReadSpecial _ => true
  | .busNop => true
  | .qEnqueue _ => false
  | .qDrainUpTo _ => false
  | .qPeek => false
  | .qFlush => false
  | .detAdvance _ _ _ => false
  | .detMiss _ _ _ => false
  | .detProbe _ => false
  | .enExit _ => false
  | .enApply => false
  | .enStep _ => false
  | .enSample => false
  | .enPublish => false
  | .enIdle => false
  | .mix _ => false
  | .sinkWrite _ _ => false
  | .rateAccum _ => false
  | .rateWindow => false
  | .rateAcquire _ => false
  | .rateUp => false
  | .rateDown => false
  | .rateHold => false
  | .sessionStart _ _ => false
  | .resetCommit => false

/-- The operations of EN: the engine, its calls on the consumer end of the queue, the mixer, the sink and the rate controller (R132, R188). -/
def isEngineOp : Instr → Bool
  | .busMeasure => false
  | .busReset => false
  | .busWriteSid1 _ _ => false
  | .busWriteSid2 _ _ => false
  | .busWriteFm _ _ => false
  | .busReadProbe1 => false
  | .busReadProbe2 => false
  | .busReadSid1 _ => false
  | .busReadSid2 _ => false
  | .busReadSpecial _ => false
  | .busNop => false
  | .qEnqueue _ => false
  | .qDrainUpTo _ => true
  | .qPeek => true
  | .qFlush => false
  | .detAdvance _ _ _ => false
  | .detMiss _ _ _ => false
  | .detProbe _ => false
  | .enExit _ => true
  | .enApply => true
  | .enStep _ => true
  | .enSample => true
  | .enPublish => true
  | .enIdle => true
  | .mix _ => true
  | .sinkWrite _ _ => true
  | .rateAccum _ => true
  | .rateWindow => true
  | .rateAcquire _ => true
  | .rateUp => true
  | .rateDown => true
  | .rateHold => true
  | .sessionStart _ _ => false
  | .resetCommit => false

/-- The operations that may write the detection state of a chip: a write to it, its probe, the three DET.* on it, and the two baselines (R245, R248). BUS.RESET is judged by its threshold instead. -/
def touchesDetection (ch : SynthId) : Instr → Bool
  | .busMeasure => false
  | .busReset => false
  | .busWriteSid1 _ _ => decide (ch = .sid1)
  | .busWriteSid2 _ _ => decide (ch = .sid2)
  | .busWriteFm _ _ => false
  | .busReadProbe1 => decide (ch = .sid1)
  | .busReadProbe2 => decide (ch = .sid2)
  | .busReadSid1 _ => false
  | .busReadSid2 _ => false
  | .busReadSpecial _ => false
  | .busNop => false
  | .qEnqueue _ => false
  | .qDrainUpTo _ => false
  | .qPeek => false
  | .qFlush => false
  | .detAdvance c _ _ => decide (ch = c)
  | .detMiss c _ _ => decide (ch = c)
  | .detProbe c => decide (ch = c)
  | .enExit _ => false
  | .enApply => false
  | .enStep _ => false
  | .enSample => false
  | .enPublish => false
  | .enIdle => false
  | .mix _ => false
  | .sinkWrite _ _ => false
  | .rateAccum _ => false
  | .rateWindow => false
  | .rateAcquire _ => false
  | .rateUp => false
  | .rateDown => false
  | .rateHold => false
  | .sessionStart _ _ => true
  | .resetCommit => true

/-- The snapshot a turn samples, as the lines the machine has carry it (R120, R122); none for a turn that is no strobe. -/
def turnLines (p : Params) : Turn → Option Snap
  | .strobe sn _ => some (sn.onLines p)
  | .strobeRaw raw _ => some ((p.readPins raw).onLines p)
  | .engine _ => none
  | .sync _ => none
  | .start _ _ => none
  | .beginSession _ => none
  | .finishSession _ => none

/-- The register and the value a snapshot writes to a synthesizer chip (R130). -/
def writeToChip (cfg : SessionConfig) (ch : SynthId) (sn : Snap) : Option (RegIx × Byte) :=
  if sn.rst = false ∧ sn.rw = false ∧ cfg.synthAt sn = some ch then some (sn.reg, sn.d) else none

/-- A snapshot reads the probe register of a synthesizer chip (R130, R243). -/
abbrev ReadsProbe (p : Params) (cfg : SessionConfig) (ch : SynthId) (sn : Snap) : Prop :=
  sn.rst = false ∧ sn.rw = true ∧ cfg.synthAt sn = some ch ∧ sn.reg = p.probeReg

/-- Steps of the machine, one after the other. -/
def runSteps : Nat → State → Host.Outcome State Fault Refusal
  | 0, s => .next s
  | n + 1, s =>
    match step s with
    | .next t => runSteps n t
    | .fault r => .fault r
    | .refused r => .refused r

/-- A slice of k cycles gives what k single steps give: not past SLICE_MAX, not past the bus as EN sees it, not past the
next visible event, and no sample check inside it would have fired (R215). -/
structure SliceFits (k : Nat) (s : State) : Prop where
  length : 1 ≤ k ∧ k ≤ s.params.sliceMax
  behind : s.E + k ≤ s.nowView
  head : s.readIndex ≠ s.wView → s.E + k ≤ (eventAt s s.readIndex).ts
  quiet : ∀ j, 1 ≤ j → j < k → (s.E + j) * s.rc.rate / s.clk = s.prevS

/-- The clean cycle-zero baseline (R60, R345): the values a session start and a reset commit share, with the views
exact. -/
structure AtBaseline (t : State) : Prop where
  queue : t.writeIndex = 0 ∧ t.readIndex = 0
  position : t.cycleCount = 0 ∧ t.E = 0 ∧ t.prevS = 0
  views : t.nowView = 0 ∧ t.wView = 0 ∧ t.rView = 0 ∧ t.rbView = t.rb ∧ t.rbFlight = []
  rate : t.rc = ⟨0, 0, 0, t.params.nominalRate, 0⟩
  chips : ∀ c, t.cfg.active c = true → t.chip.get c = ⟨chipReset t.params.chipImpl c.kind (t.cfg.model c), 0⟩
  detection : ∀ ch, t.cfg.active ch.chip = true →
    (t.det.get ch).step = 0 ∧ ∀ r, Memory.get (t.det.get ch).snapshot r = 0
  image : ∀ c, t.cfg.active c = true → ∀ r : RegIx,
    Memory.get (t.rb.get c) r.toNat =
      chipRead t.params.roRegs (chipReset t.params.chipImpl c.kind (t.cfg.model c)) r

/-- Operations executed one after the other. -/
def execAll : List Instr → State → Host.Outcome State Fault Refusal
  | [], s => .next s
  | i :: is, s =>
    match exec i s with
    | .next t => execAll is t
    | .fault r => .fault r
    | .refused r => .refused r

end Sys2Proof.Machine
end

