-- ==== Sys2Proof/WellFormed.lean ====
section
/-! DEFINITION. Which instructions make sense under a parameter set and a configuration: the operand ranges and the parts of the `condition` column of the operation table that no run changes. -/

namespace Sys2Proof

/-- Why an instruction is ill-formed. -/
inductive IllFormed where
  /-- a slice length outside 1..SLICE_MAX (R215) -/
  | sliceLength
  /-- a sample outside SAMPLE_MIN..SAMPLE_MAX (R129) -/
  | sampleRange
  /-- a chip that is not in Active (R30) -/
  | chipAbsent
  /-- a read of a chip register with read emulation off (R161) -/
  | readEmuOff
  /-- no special region is configured (R163) -/
  | noSpecial
  /-- a configuration or a clock that fails a clause of R340 -/
  | invalidConfig (v : Violation)
  deriving DecidableEq, Repr

/-- The chip is active, else the instruction is ill-formed. -/
def needChip (cfg : SessionConfig) (c : ChipId) : Option IllFormed :=
  if cfg.active c then none else some .chipAbsent

/-- The chip is active and read emulation is on, else the instruction is ill-formed. -/
def needReadable (cfg : SessionConfig) (c : ChipId) : Option IllFormed :=
  if !cfg.active c then some .chipAbsent
  else if cfg.readEmu then none else some .readEmuOff

/-- What is wrong with an instruction, if anything. -/
def illFormed (p : Params) (cfg : SessionConfig) : Instr → Option IllFormed
  | .busMeasure => none
  | .busReset => none
  | .busWriteSid1 _ _ => needChip cfg .sid1
  | .busWriteSid2 _ _ => needChip cfg .sid2
  | .busWriteFm _ _ => needChip cfg .fm
  | .busReadProbe1 => needReadable cfg .sid1
  | .busReadProbe2 => needReadable cfg .sid2
  | .busReadSid1 _ => needReadable cfg .sid1
  | .busReadSid2 _ => needReadable cfg .sid2
  | .busReadSpecial _ => if cfg.special.isSome then none else some .noSpecial
  | .busNop => none
  | .qEnqueue ev => needChip cfg ev.chip
  | .qDrainUpTo _ => none
  | .qPeek => none
  | .qFlush => none
  | .detAdvance ch _ _ => needChip cfg ch.chip
  | .detMiss ch _ _ => needChip cfg ch.chip
  | .detProbe ch => needReadable cfg ch.chip
  | .enExit _ => none
  | .enApply => none
  | .enStep k => if 1 ≤ k ∧ k ≤ p.sliceMax then none else some .sliceLength
  | .enSample => none
  | .enPublish => none
  | .enIdle => none
  | .mix _ => none
  | .sinkWrite l r =>
    if p.sampleMin ≤ l ∧ l ≤ p.sampleMax ∧ p.sampleMin ≤ r ∧ r ≤ p.sampleMax then none else some .sampleRange
  | .rateAccum _ => none
  | .rateWindow => none
  | .rateAcquire _ => none
  | .rateUp => none
  | .rateDown => none
  | .rateHold => none
  | .sessionStart config clk => (sessionViolation p config clk).map .invalidConfig
  | .resetCommit => none

/-- An instruction is well-formed under a parameter set and a configuration. -/
abbrev WellFormed (p : Params) (cfg : SessionConfig) (i : Instr) : Prop := illFormed p cfg i = none

end Sys2Proof
end

