-- ==== Sys2Proof/Certificates/Slice0/Obligations.lean ====
section
/-! DEFINITION. The statements for the provers, one `def Obligations.<Name> : Prop` each. A statement writes the next state out in full where the rule gives it, so that its equation is the frame too. -/

open Sys2Proof Sys2Proof.Machine

/-! Decoding and formats. -/

/-- R130: one activation classifies its snapshot by the first line that applies; R156: none in NotStarted and Exited. -/
def Obligations.DecodeOrder : Prop :=
  ∀ (p : Params) (cfg : SessionConfig) (steps : PerSynth Nat) (sn : Snap),
    decode p cfg .measuring steps sn = .ok .busMeasure ∧
    (∃ e, decode p cfg .notStarted steps sn = .error e) ∧
    (∀ r, ∃ e, decode p cfg (.exited r) steps sn = .error e) ∧
    (sn.rst = true → decode p cfg .running steps sn = .ok .busReset) ∧
    (sn.rst = false → sn.rw = false →
      (∀ ch, cfg.synthAt sn = some ch → decode p cfg .running steps sn = .ok (writeSidOf ch sn.reg sn.d)) ∧
      (cfg.synthAt sn = none → cfg.ownerAt (.chip .fm) sn = true →
        decode p cfg .running steps sn = .ok (.busWriteFm sn.reg sn.d)) ∧
      (cfg.synthAt sn = none → cfg.ownerAt (.chip .fm) sn = false → decode p cfg .running steps sn = .ok .busNop)) ∧
    (sn.rst = false → sn.rw = true →
      (∀ ch, cfg.readEmu = true → cfg.synthAt sn = some ch →
        (steps.get ch = p.detSeq.length ∧ sn.reg = p.probeReg → decode p cfg .running steps sn = .ok (readProbeOf ch)) ∧
        (¬(steps.get ch = p.detSeq.length ∧ sn.reg = p.probeReg) →
          decode p cfg .running steps sn = .ok (readSidOf ch sn.reg))) ∧
      (cfg.readEmu = false ∨ cfg.synthAt sn = none →
        (cfg.ownerAt .special sn = true → decode p cfg .running steps sn = .ok (.busReadSpecial sn.off)) ∧
        (cfg.ownerAt .special sn = false → decode p cfg .running steps sn = .ok .busNop)))

/-- A few words of the spec's encoding tables, each with the instruction it stands for (R121, R133). -/
def Obligations.DecodeWords : Prop :=
  decodeTableWord 32 0x02000000 = some .busReset ∧
  decodeTableWord 32 0x00FFD412 = some (.busWriteSid1 18 0xFF) ∧
  decodeTableWord 32 0x0020D432 = some (.busWriteSid2 18 0x20) ∧
  decodeTableWord 32 0x087EDF5F = some (.busWriteFm 31 0x7E) ∧
  decodeTableWord 32 0x0100D41B = some .busReadProbe1 ∧
  decodeTableWord 32 0x0100D43B = some .busReadProbe2 ∧
  decodeTableWord 32 0x0177D418 = some (.busReadSid1 24) ∧
  decodeTableWord 32 0x0100D438 = some (.busReadSid2 24) ∧
  decodeTableWord 32 0x0500DEFF = some (.busReadSpecial 0xFF) ∧
  decodeTableWord 32 0x0001D440 = some .busNop

/-- R84, R85: an aligned window is the 32 addresses from its base on, on its chip-select line if it has one, and the low
five address bits are the register index. -/
def Obligations.WindowCovers : Prop :=
  ∀ (w : Window) (c : ChipId) (sn : Snap), w.base % 32 = 0 →
    ((w.region c).matchesSnap sn = true ↔
      (w.cs = none ∨ ∃ i, w.cs = some i ∧ sn.cs.testBit i = true) ∧ w.base ≤ sn.a ∧ sn.a ≤ w.base + 31) ∧
    ((w.region c).matchesSnap sn = true → sn.reg.toNat = sn.a - w.base)

/-- R87: in the shared window the address agrees with the base on every bit from 5 on but the select bit, which picks the
chip. -/
def Obligations.SharedWindowSelects : Prop :=
  ∀ (cfg : SessionConfig) (w : Window) (sel : Nat) (sn : Snap) (ch : SynthId),
    cfg.mapMode = .sharedSel w sel → 5 ≤ sel → w.base.testBit sel = false →
    (cfg.synthAt sn = some ch ↔
      (w.cs = none ∨ ∃ i, w.cs = some i ∧ sn.cs.testBit i = true) ∧
      (∀ i, 5 ≤ i → i ≠ sel → sn.a.testBit i = w.base.testBit i) ∧
      sn.a.testBit sel = decide (ch = .sid2))

/-- R88, R340 V5: in a valid session a snapshot matches at most one entry of the window list, so decode order never
matters. -/
def Obligations.OneOwner : Prop :=
  ∀ (p : Params) (cfg : SessionConfig) (sn : Snap) (r t : Region), configViolation p cfg = none →
    r ∈ cfg.windows → t ∈ cfg.windows → r.matchesSnap sn = true → t.matchesSnap sn = true → r = t

/-- R133, general form: a word agrees with a window's mask and match exactly when the reset line is released, the
direction is the row's and the window matches. -/
def Obligations.GeneralRow : Prop :=
  ∀ (r : Region) (read : Bool) (w : SnapWord), r.bits ≤ 16 → r.base < 2 ^ 16 → r.base % 2 ^ r.bits = 0 →
    (∀ i, r.cs = some i → i < 4) →
    ((w &&& rowMask r = rowMatch r read) ↔
      (Snap.ofWord w).rst = false ∧ (Snap.ofWord w).rw = read ∧ r.matchesSnap (Snap.ofWord w) = true)

/-- R133: under REFCFG with two chips the first row that a word selects is the operation the decode order gives, for
every word and every pair of detection counters. -/
def Obligations.ReferenceRows : Prop :=
  ∀ (w : SnapWord) (steps : PerSynth Nat),
    selectRow (refRows (decide (steps.sid1 = 4)) (decide (steps.sid2 = 4))) w =
      some (decodeRunning refParams refConfig steps (Snap.ofWord w))

/-- Decode and encode agree: under every valid configuration with 16 address and 4 chip-select lines, the word of a
well-formed bus operation decodes to it, with every operand at every value. A probe needs its counter terminal, a
plain read the absence of the override (R133), and IDLE a configuration whose windows exclude it (R136). -/
def Obligations.DecodeOfEncode : Prop :=
  ∀ (p : Params) (cfg : SessionConfig) (steps : PerSynth Nat) (i : Instr) (w : SnapWord),
    p.aw = 16 → p.ncs = 4 → configViolation p cfg = none → WellFormed p cfg i → encode p cfg i = some w →
    (i = .busReadProbe1 → steps.sid1 = p.detSeq.length) →
    (i = .busReadProbe2 → steps.sid2 = p.detSeq.length) →
    (i = .busReadSid1 p.probeReg → steps.sid1 ≠ p.detSeq.length) →
    (i = .busReadSid2 p.probeReg → steps.sid2 ≠ p.detSeq.length) →
    (i = .busNop → ∀ r ∈ cfg.windows, r.matchesSnap scriptIdle = false) →
    decodeWord p cfg (if i = .busMeasure then .measuring else .running) steps 32 w.toNat = .ok i

/-- R126, R127: the layout of the packed event slot and of the packed volume and pan, and that unpacking gives back what
was packed. -/
def Obligations.RecordFormats : Prop :=
  (∀ ev : BusEvent, ev.ts < 2 ^ 64 →
    ev.pack.toNat = ev.chip.code.toNat + 4 * ev.reg.toNat + 128 * ev.val.toNat + 32768 * ev.ts ∧
    BusEvent.unpack ev.pack = some ev) ∧
  (∀ volume pan : BitVec 4,
    (packVolumePan volume pan).toNat = 16 * pan.toNat + volume.toNat ∧
    (pan ≠ 15 → unpackVolumePan (packVolumePan volume pan) = some (volume, pan)) ∧
    (pan = 15 → unpackVolumePan (packVolumePan volume pan) = none))

/-- R136: WAIT n, under a configuration whose windows exclude IDLE, takes the bus to cycle n; resetRun, the outputs
and the views aside, no other state word that BD or EN owns changes. -/
def Obligations.WaitReachesCycle : Prop :=
  ∀ (s : State) (n : Nat) (rest : List Turn), Live s → s.cycleCount < n →
    (∀ r ∈ s.cfg.windows, r.matchesSnap scriptIdle = false) → s.script = waitUntil s n ++ rest →
    ∃ t, runSteps (n - s.cycleCount) s = .next t ∧ t.cycleCount = n ∧ t.script = rest ∧
      t.out = ⟨none, true⟩ ∧ t.resetRun = 0 ∧ t.det = s.det ∧ t.slots = s.slots ∧ t.writeIndex = s.writeIndex ∧
      engineOwned t = engineOwned s ∧ Live t

/-! The step. -/

/-- A strobe turn runs the instruction its snapshot decodes to, after the turn is taken and the lines are sampled (R150,
R156), whether the turn carries the logical snapshot or raw lines that the machine's PinMap reads as it (R122; the raw turn
is the model's own, log 19); with fresh views BD sees readIndex and the image as they are. A sync turn gives a view any
value R100 and R102 allow it, and changes nothing else; an image of rb reaches BD as it was when it set out (the form of
these turns is the model's own, log 8). -/
def Obligations.StrobeRunsDecoded : Prop :=
  (∀ (s : State) (sn : Snap) (fresh : Bool) (rest : List Turn) (i : Instr), s.fault = none →
    (s.script = .strobe sn fresh :: rest ∨
      ∃ raw, s.script = .strobeRaw raw fresh :: rest ∧ sn = s.params.readPins raw) →
    decode s.params s.cfg s.phase (detSteps s) (sn.onLines s.params) = .ok i →
    step s = exec i (latchStrobe sn fresh (takeTurn rest s)) ∧
    (latchStrobe sn fresh (takeTurn rest s)).snap = sn.onLines s.params ∧
    (fresh = true → (latchStrobe sn fresh (takeTurn rest s)).rView = s.readIndex ∧
      (latchStrobe sn fresh (takeTurn rest s)).rbView = s.rb)) ∧
  (∀ (s : State) (rest : List Turn), Live s →
    (∀ c w, s.script = .sync (.now c w) :: rest → s.nowView ≤ c → c ≤ s.cycleCount → s.wView ≤ w → w ≤ s.writeIndex →
      (∀ i, w ≤ i → i < s.writeIndex → c < (eventAt s i).ts) →
      step s = .next { s with script := rest, nowView := c, wView := w }) ∧
    (∀ i, s.script = .sync (.writeIx i) :: rest → s.wView ≤ i → i ≤ s.writeIndex →
      step s = .next { s with script := rest, wView := i }) ∧
    (∀ i, s.script = .sync (.readIx i) :: rest → s.rView ≤ i → i ≤ s.readIndex →
      step s = .next { s with script := rest, rView := i }) ∧
    (s.script = .sync .capture :: rest → step s = .next { s with script := rest, rbFlight := s.rbFlight ++ [s.rb] }) ∧
    (∀ image later, s.script = .sync .image :: rest → s.rbFlight = image :: later →
      step s = .next { s with script := rest, rbView := image, rbFlight := later }) ∧
    (s.script = .sync .image :: rest → s.rbFlight = [] → step s = .next { s with script := rest, rbView := s.rb }))

/-- R211: the operation the engine performs at its turn is the first whose guard holds; the slice asked for is taken where
R215 allows it. -/
def Obligations.EngineChoice : Prop :=
  ∀ (s u : State) (inp : EngineInput) (rest : List Turn), Live s → s.script = .engine inp :: rest →
    u = latchEngine inp (takeTurn rest s) →
    (inp.fresh = true → u.nowView = s.cycleCount ∧ u.wView = s.writeIndex) ∧
    (∀ r, u.exitCond = some r → step s = exec (.enExit r) u) ∧
    (u.exitCond = none → u.readIndex ≠ u.wView ∧ (eventAt u u.readIndex).ts ≤ u.E → step s = exec .enApply u) ∧
    (u.exitCond = none → ¬(u.readIndex ≠ u.wView ∧ (eventAt u u.readIndex).ts ≤ u.E) → u.E < u.nowView →
      (SliceFits inp.slice u → step s = exec (.enStep inp.slice) u) ∧
      (¬SliceFits inp.slice u → step s = exec (.enStep 1) u)) ∧
    (u.exitCond = none → ¬(u.readIndex ≠ u.wView ∧ (eventAt u u.readIndex).ts ≤ u.E) → ¬u.E < u.nowView →
      step s = exec .enIdle u)

/-- R300: the first fault stays; once there is one no operation and no agent has a step. -/
def Obligations.FaultStopsAll : Prop :=
  (∀ (s : State) (f : FatalReason), s.fault = some f →
    step s = .fault (.fatal f) ∧ (∀ i, exec i s = .fault (.fatal f)) ∧ ∀ g, raiseFatal g s = s) ∧
  (∀ (s : State) (g : FatalReason), s.fault = none → raiseFatal g s = { s with fault := some g }) ∧
  FatalReason.queueOverflow.code = 1 ∧ FatalReason.deadlineMiss.code = 2

/-- R54, R156, R343: outside phase Running no operation has a step but BUS.MEASURE in Measuring and SESSION.START in
NotStarted, and after EN.EXIT the machine has none. -/
def Obligations.PhaseGates : Prop :=
  ∀ s : State, s.fault = none →
    (∀ i, s.phase ≠ .running → ¬(s.phase = .measuring ∧ i = .busMeasure) →
      ¬(s.phase = .notStarted ∧ ∃ config clk, i = .sessionStart config clk) →
      exec i s = .refused (.wrongPhase s.phase)) ∧
    (∀ r, s.phase = .exited r → step s = .refused (.wrongPhase (.exited r)))

/-- R322: a running session without a fault is never stuck, whatever the snapshot, logical or raw (R122), the inputs and
the schedule of strobes, engine turns and synchronisations. -/
def Obligations.NeverStuck : Prop :=
  ∀ s : State, Live s → clauseV1 s.cfg = true →
    (s.script = [] ∨ (∃ sn fresh rest, s.script = .strobe sn fresh :: rest) ∨
      (∃ raw fresh rest, s.script = .strobeRaw raw fresh :: rest) ∨
      (∃ inp rest, s.script = .engine inp :: rest) ∨ ∃ v rest, s.script = .sync v :: rest) →
    ∃ t, step s = .next t

/-! Bus operations. -/

/-- R164 -/
def Obligations.NopOnlyCounts : Prop :=
  ∀ s : State, Live s →
    exec .busNop s = .next { s with out := ⟨none, true⟩, resetRun := 0, cycleCount := s.cycleCount + 1 }

/-- R157, R241, R242, R246, with room in the queue as BD sees it (R180). -/
def Obligations.WriteSidAccepted : Prop :=
  ∀ (ch : SynthId) (reg : RegIx) (val : Byte) (s : State), Live s → s.cfg.active ch.chip = true →
    s.writeIndex - s.rView < s.params.qcap →
    exec (writeSidOf ch reg val) s = .next
      { s with
        out := ⟨none, true⟩, resetRun := 0, cycleCount := s.cycleCount + 1
        det := s.det.set ch
          ⟨if s.params.detSeq[(s.det.get ch).step]? = some (reg, val) then (s.det.get ch).step + 1 else 0,
            Memory.set (s.det.get ch).snapshot reg.toNat val⟩
        slots := Slots.set s.slots (s.writeIndex % s.params.qcap) ⟨ch.chip, reg, val, s.cycleCount + 1⟩
        writeIndex := s.writeIndex + 1 }

/-- R158, with room in the queue: no detection state is touched. -/
def Obligations.WriteFmAccepted : Prop :=
  ∀ (reg : RegIx) (val : Byte) (s : State), Live s → s.cfg.fmEnabled = true →
    s.writeIndex - s.rView < s.params.qcap →
    exec (.busWriteFm reg val) s = .next
      { s with
        out := ⟨none, true⟩, resetRun := 0, cycleCount := s.cycleCount + 1
        slots := Slots.set s.slots (s.writeIndex % s.params.qcap) ⟨.fm, reg, val, s.cycleCount + 1⟩
        writeIndex := s.writeIndex + 1 }

/-- R302: a write on a full queue raises the fault before the slot is written; the detection update has happened, the
count and the completion have not. -/
def Obligations.WriteOverflows : Prop :=
  ∀ (reg : RegIx) (val : Byte) (s : State), Live s → s.params.qcap ≤ s.writeIndex - s.rView →
    (∀ ch, s.cfg.active ch.chip = true →
      exec (writeSidOf ch reg val) s = .next
        { s with
          fault := some .queueOverflow, out := ⟨none, false⟩, resetRun := 0
          det := s.det.set ch
            ⟨if s.params.detSeq[(s.det.get ch).step]? = some (reg, val) then (s.det.get ch).step + 1 else 0,
              Memory.set (s.det.get ch).snapshot reg.toNat val⟩ }) ∧
    (s.cfg.fmEnabled = true →
      exec (.busWriteFm reg val) s = .next
        { s with fault := some .queueOverflow, out := ⟨none, false⟩, resetRun := 0 })

/-- R162, R243: at the terminal step the probe drives the sentinel of the chip's model and the counter resets. -/
def Obligations.ProbeDrivesSentinel : Prop :=
  ∀ (ch : SynthId) (m : ChipModel) (s : State), Live s → s.cfg.model ch.chip = some m → s.cfg.readEmu = true →
    (s.det.get ch).step = s.params.detSeq.length →
    exec (readProbeOf ch) s = .next
      { s with
        out := ⟨some (s.params.sentinelOf m), true⟩, resetRun := 0, cycleCount := s.cycleCount + 1
        det := s.det.set ch { s.det.get ch with step := 0 } }

/-- R160, R244: any other read of a synthesizer register drives the read-back image as BD sees it and leaves the counter. -/
def Obligations.ReadSidDrivesImage : Prop :=
  ∀ (ch : SynthId) (reg : RegIx) (s : State), Live s → s.cfg.active ch.chip = true → s.cfg.readEmu = true →
    ¬((s.det.get ch).step = s.params.detSeq.length ∧ reg = s.params.probeReg) →
    exec (readSidOf ch reg) s = .next
      { s with
        out := ⟨some (Memory.get (s.rbView.get ch.chip) reg.toNat), true⟩
        resetRun := 0, cycleCount := s.cycleCount + 1 }

/-- R163 -/
def Obligations.ReadSpecialDrivesTable : Prop :=
  ∀ (off : Byte) (region : SpecialRegion) (s : State), Live s → s.cfg.special = some region →
    exec (.busReadSpecial off) s = .next
      { s with
        out := ⟨some (Memory.get region.bytes off.toNat), true⟩
        resetRun := 0, cycleCount := s.cycleCount + 1 }

/-- R166, R341, R342: BUS.MEASURE counts one bus cycle toward the measurement (in the model's own count, log 13) and does
nothing else, so whatever the host does while the clock is measured is lost: the split start ends as the one-step start
does, but for that count and the lines last sampled. -/
def Obligations.MeasurementLosesTraffic : Prop :=
  (∀ s : State, s.fault = none → s.phase = .measuring →
    exec .busMeasure s = .next { s with measureCount := s.measureCount + 1 }) ∧
  (∀ (s : State) (config : SessionConfig) (clk : Nat) (sns : List Snap) (rest : List Turn),
    s.fault = none → s.phase = .notStarted → sessionViolation s.params config clk = none →
    ∃ t u, step { s with script := .start config clk :: rest } = .next t ∧
      runSteps (sns.length + 2)
        { s with
          script := .beginSession config :: (sns.map (fun sn => Turn.strobe sn true) ++ .finishSession clk :: rest) } =
        .next u ∧
      u = { t with measureCount := sns.length, snap := u.snap })

/-- R347: a run of n reset cycles below the threshold changes only resetRun, to n and then back to 0, and cycleCount, by
n. -/
def Obligations.ShortResetRun : Prop :=
  ∀ (s : State) (n : Nat), Live s → s.resetRun = 0 → n < s.params.tRst →
    execAll (List.replicate n .busReset) s = .next
      { s with
        resetRun := n, cycleCount := s.cycleCount + n
        out := if n = 0 then s.out else ⟨none, true⟩ } ∧
    execAll (List.replicate n .busReset ++ [.busNop]) s = .next
      { s with resetRun := 0, cycleCount := s.cycleCount + n + 1, out := ⟨none, true⟩ }

/-- R344, R345, R348: the reset cycle in which the run reaches the threshold, and every later one of the run, commits; so
does RESET.COMMIT by itself when the run qualifies: all of R60's values, and nothing else changes. The model's own:
BD's views (rView, rbView) begin anew too, with no image on its way to BD (rbFlight, log 8; log 30, DEDUCED; R345 names
nowView and wView), and the words of an inactive chip are left open (log 22). -/
def Obligations.QualifiedResetCommits : Prop :=
  (∀ s : State, Live s → s.params.tRst ≤ s.resetRun + 1 →
    ∃ t, exec .busReset s = .next t ∧ AtBaseline t ∧
      t = { s with
        out := ⟨none, true⟩, resetRun := min (s.resetRun + 1) s.params.tRst
        cycleCount := 0, E := 0, prevS := 0, writeIndex := 0, readIndex := 0
        nowView := 0, wView := 0, rView := 0, rbView := t.rb, rbFlight := []
        chip := t.chip, det := t.det, rb := t.rb, rc := ⟨0, 0, 0, s.params.nominalRate, 0⟩ }) ∧
  (∀ s : State, Live s → s.params.tRst ≤ s.resetRun →
    ∃ t, exec .resetCommit s = .next t ∧ AtBaseline t ∧
      t = { s with
        cycleCount := 0, E := 0, prevS := 0, writeIndex := 0, readIndex := 0
        nowView := 0, wView := 0, rView := 0, rbView := t.rb, rbFlight := []
        chip := t.chip, det := t.det, rb := t.rb, rc := ⟨0, 0, 0, s.params.nominalRate, 0⟩ })

/-- R346: a second commit changes nothing, and the state after a commit does not depend on the state before it but for
what R346 and R348 except. -/
def Obligations.CommitIdempotent : Prop :=
  (∀ s t : State, 1 ≤ s.params.tRst → s.params.tRst ≤ s.resetRun + 1 → exec .busReset s = .next t →
    exec .busReset t = .next t) ∧
  (∀ s s' t t' : State, s.params = s'.params → s.cfg = s'.cfg → exec .resetCommit s = .next t →
    exec .resetCommit s' = .next t' →
    (∀ c, s.cfg.active c = true → t.chip.get c = t'.chip.get c ∧ t.rb.get c = t'.rb.get c) ∧
    (∀ ch, s.cfg.active ch.chip = true → t.det.get ch = t'.det.get ch) ∧
    t.rc = t'.rc ∧ t.E = t'.E ∧ t.prevS = t'.prevS ∧ t.cycleCount = t'.cycleCount ∧
    t.writeIndex = t'.writeIndex ∧ t.readIndex = t'.readIndex)

/-! The event queue. -/

/-- R180, R181: with room as BD sees it the slot and then writeIndex are written; else the fault is raised and nothing
else changes; a view never past readIndex keeps a truly full queue from passing. -/
def Obligations.EnqueueRoomOrFatal : Prop :=
  ∀ (ev : BusEvent) (s : State), Live s →
    (s.writeIndex - s.rView < s.params.qcap →
      exec (.qEnqueue ev) s = .next
        { s with
          slots := Slots.set s.slots (s.writeIndex % s.params.qcap) ev
          writeIndex := s.writeIndex + 1 }) ∧
    (s.params.qcap ≤ s.writeIndex - s.rView →
      exec (.qEnqueue ev) s = .next { s with fault := some .queueOverflow }) ∧
    (s.rView ≤ s.readIndex → s.params.qcap ≤ s.writeIndex - s.readIndex →
      exec (.qEnqueue ev) s = .next { s with fault := some .queueOverflow })

/-- R187: from an empty queue of capacity N, N events go in and are all there in order; event N + 1 is the fault and
leaves indices and slots as they were. -/
def Obligations.CapacityBoundary : Prop :=
  ∀ (s : State) (evs : List BusEvent) (ev : BusEvent), Live s → s.readIndex = s.writeIndex → s.rView = s.readIndex →
    0 < s.params.qcap → evs.length = s.params.qcap →
    ∃ t, execAll (evs.map .qEnqueue) s = .next t ∧ t.fault = none ∧
      t.writeIndex - t.readIndex = s.params.qcap ∧
      (∀ k, (h : k < evs.length) → eventAt t (t.readIndex + k) = evs[k]) ∧
      exec (.qEnqueue ev) t = .next { t with fault := some .queueOverflow }

/-- R182: drainUpTo takes the events from readIndex on, in queue order, while they are visible and due, stops at the first
that is not, and moves readIndex past them. The list is left in `drained`, the model's own field (log 20); the premise is
R100's order of the view. -/
def Obligations.DrainTakesDuePrefix : Prop :=
  ∀ (cycle : Nat) (s : State), Live s → s.readIndex ≤ s.wView →
    ∃ n, exec (.qDrainUpTo cycle) s = .next
        { s with
          readIndex := s.readIndex + n
          drained := (List.range n).map fun k => eventAt s (s.readIndex + k) } ∧
      s.readIndex + n ≤ s.wView ∧ (∀ k, k < n → (eventAt s (s.readIndex + k)).ts ≤ cycle) ∧
      (s.readIndex + n < s.wView → cycle < (eventAt s (s.readIndex + n)).ts)

/-- R183, the answer left in `peeked` (log 20); R184, both indices to 0, with the views of the two indices (log 30). -/
def Obligations.PeekAndFlush : Prop :=
  ∀ s : State, Live s →
    (s.readIndex = s.wView → exec .qPeek s = .next { s with peeked := none }) ∧
    (s.readIndex ≠ s.wView → exec .qPeek s = .next { s with peeked := some (eventAt s s.readIndex).ts }) ∧
    exec .qFlush s = .next { s with writeIndex := 0, readIndex := 0, wView := 0, rView := 0 }

/-- R186: on index words of IDXW bits the occupancy, the test for an empty queue and the slot number are those of the
natural indices. -/
def Obligations.WrappedIndicesAgree : Prop :=
  ∀ idxw qcap w r : Nat, 2 ≤ qcap → (∃ e, qcap = 2 ^ e) → qcap ≤ 2 ^ (idxw - 1) → r ≤ w → w - r ≤ qcap →
    wordOccupancy idxw (wordIndex idxw w) (wordIndex idxw r) = w - r ∧
    (wordIndex idxw w = wordIndex idxw r ↔ w = r) ∧
    slotNumber qcap (wordIndex idxw w) = slotNumber qcap w

/-! Detection. -/

/-- R241, R242, R243 -/
def Obligations.DetectionOperations : Prop :=
  ∀ (ch : SynthId) (reg : RegIx) (val : Byte) (s : State), Live s → s.cfg.active ch.chip = true →
    (s.params.detSeq[(s.det.get ch).step]? = some (reg, val) →
      exec (.detAdvance ch reg val) s = .next
        { s with det := s.det.set ch { s.det.get ch with step := (s.det.get ch).step + 1 } }) ∧
    (s.params.detSeq[(s.det.get ch).step]? ≠ some (reg, val) →
      exec (.detMiss ch reg val) s = .next { s with det := s.det.set ch { s.det.get ch with step := 0 } }) ∧
    (s.cfg.readEmu = true → (s.det.get ch).step = s.params.detSeq.length →
      exec (.detProbe ch) s = .next { s with det := s.det.set ch { s.det.get ch with step := 0 } })

/-- R244, R245: no operation touches the detection state of a chip but a write to it, its probe and a baseline; a reset
cycle below the threshold does not. -/
def Obligations.DetectionIsolated : Prop :=
  ∀ (i : Instr) (ch : SynthId) (s t : State), touchesDetection ch i = false →
    (i = .busReset → s.resetRun + 1 < s.params.tRst) → exec i s = .next t → t.det.get ch = s.det.get ch

/-- R249: from step 0 the writes of DET_SEQ, with anything between them that neither touches the chip's detection state
nor can commit a reset, and then the probe read, give the sentinel. The first clause is about operations performed one
after the other, each with its own effect. The second is about the steps of any script of turns, that is, under every
schedule that reaches the probe read (strobes, engine turns, synchronisations): the writes it makes to the chip are those
of DET_SEQ, and after the last of them no line but the last reads the chip's probe register. -/
def Obligations.HandshakeGivesSentinel : Prop :=
  (∀ (ch : SynthId) (m : ChipModel) (ops : List Instr) (s t : State), s.cfg.model ch.chip = some m →
    s.cfg.readEmu = true → (s.det.get ch).step = 0 →
    ops.filter (touchesDetection ch) = s.params.detSeq.map (fun e => writeSidOf ch e.1 e.2) →
    s.resetRun + ops.count .busReset < s.params.tRst →
    execAll ops s = .next t → Live t →
    ∃ u, exec (readProbeOf ch) t = .next u ∧ u.out = ⟨some (s.params.sentinelOf m), true⟩ ∧ (u.det.get ch).step = 0) ∧
  (∀ (ch : SynthId) (m : ChipModel) (turns rest : List Turn) (last : Turn) (probe : Snap) (s t : State), Live s →
    s.cfg.model ch.chip = some m → s.cfg.readEmu = true → (s.det.get ch).step = 0 →
    s.script = turns ++ last :: rest →
    (turns.filterMap (turnLines s.params)).filterMap (writeToChip s.cfg ch) = s.params.detSeq →
    (∀ before sn later, turns.filterMap (turnLines s.params) = before ++ sn :: later →
      ReadsProbe s.params s.cfg ch sn → later.filterMap (writeToChip s.cfg ch) ≠ []) →
    s.resetRun + (turns.filterMap (turnLines s.params)).countP (fun sn => sn.rst) < s.params.tRst →
    turnLines s.params last = some probe → ReadsProbe s.params s.cfg ch probe →
    runSteps turns.length s = .next t → Live t →
    ∃ u, step t = .next u ∧ u.out = ⟨some (s.params.sentinelOf m), true⟩ ∧ (u.det.get ch).step = 0)

/-! The engine. -/

/-- R212: the head event is written into its chip, readIndex moves past it and the images are published; E, prevS and the
chips' cycle counts stay. -/
def Obligations.ApplyInjectsHead : Prop :=
  ∀ (s : State) (ev : BusEvent), Live s → s.readIndex ≠ s.wView → ev = eventAt s s.readIndex → ev.ts ≤ s.E →
    ∃ t, exec .enApply s = .next t ∧
      t = { s with
        chip := s.chip.set ev.chip
          ⟨chipWrite (s.chip.get ev.chip).core ev.reg ev.val, (s.chip.get ev.chip).emu⟩
        readIndex := s.readIndex + 1, rb := t.rb } ∧
      ∀ c, if s.cfg.active c then
          ∀ r : RegIx, Memory.get (t.rb.get c) r.toNat = chipRead s.params.roRegs (t.chip.get c).core r
        else t.rb.get c = s.rb.get c

/-- R213: an event is applied when E equals its timestamp, every active chip having been clocked exactly that often. -/
def Obligations.AppliedAtOwnCycle : Prop :=
  ∀ s t : State, CountersOrdered s → QueueTimely s → ChipsPublished s → exec .enApply s = .next t →
    (eventAt s s.readIndex).ts = s.E ∧ t.E = s.E ∧
    ∀ c, s.cfg.active c = true → (s.chip.get c).emu = (eventAt s s.readIndex).ts

/-- R214, R216: every active chip is clocked k cycles and E with it, the images are published, and exactly one sample is
taken when the sample index at the new E differs from prevS. -/
def Obligations.StepClocksAndSamples : Prop :=
  ∀ (s : State) (k : Nat), Live s → SliceFits k s →
    ∃ u, u = { s with chip := u.chip, E := s.E + k, rb := u.rb } ∧
      (∀ c, if s.cfg.active c then
          u.chip.get c = ⟨chipClock (s.chip.get c).core k, (s.chip.get c).emu + k⟩ ∧
          ∀ r : RegIx, Memory.get (u.rb.get c) r.toNat = chipRead s.params.roRegs (u.chip.get c).core r
        else u.chip.get c = s.chip.get c ∧ u.rb.get c = s.rb.get c) ∧
      ((s.E + k) * s.rc.rate / s.clk = s.prevS → exec (.enStep k) s = .next u) ∧
      ((s.E + k) * s.rc.rate / s.clk ≠ s.prevS →
        ∃ t, exec (.enStep k) s = .next t ∧
          exec .enSample { u with prevS := (s.E + k) * s.rc.rate / s.clk } = .next t)

/-- R215: a slice that fits leaves exactly the state that single steps leave. -/
def Obligations.SliceEqualsSingleSteps : Prop :=
  ∀ (s : State) (k : Nat), Live s → SliceFits k s →
    ∃ t, exec (.enStep k) s = .next t ∧ execAll (List.replicate k (.enStep 1)) s = .next t

/-- R217, R266: the sample is MIX of the chips' outputs; with the sink available it is SINK.WRITE and then RATE.ACCUM of
the occupancy read after the write, else it is dropped: not written and not counted. Either way the pair stays in `mixed`,
the model's own field (log 20). -/
def Obligations.SampleMixesWritesCounts : Prop :=
  ∀ s : State, Live s →
    ∃ l r, exec (.mix ⟨chipOutput s.chip.sid1.core, chipOutput s.chip.sid2.core, chipOutput s.chip.fm.core⟩) s =
        .next { s with mixed := (l, r) } ∧
      (s.sinkAvailable = false → exec .enSample s = .next { s with mixed := (l, r) }) ∧
      (s.sinkAvailable = true →
        ∃ u t, exec (.sinkWrite l r) { s with mixed := (l, r) } = .next u ∧
          exec (.rateAccum (sinkOccupancy u)) u = .next t ∧ exec .enSample s = .next t)

/-- R218: every byte of the image of an active chip is what its core reads, and nothing else changes. -/
def Obligations.PublishCopiesReadback : Prop :=
  ∀ s : State, Live s →
    ∃ t, exec .enPublish s = .next t ∧ t = { s with rb := t.rb } ∧
      ∀ c, if s.cfg.active c then
          ∀ r : RegIx, Memory.get (t.rb.get c) r.toNat = chipRead s.params.roRegs (s.chip.get c).core r
        else t.rb.get c = s.rb.get c

/-- R220: with nothing to do the engine changes nothing. R222: an exit condition ends the session, and neither agent has a
step after it. -/
def Obligations.IdleAndExit : Prop :=
  ∀ s : State, Live s →
    (s.exitCond = none → (s.readIndex ≠ s.wView → s.E < (eventAt s s.readIndex).ts) → s.nowView ≤ s.E →
      exec .enIdle s = .next s) ∧
    (∀ r, s.exitCond = some r →
      exec (.enExit r) s = .next { s with phase := .exited r } ∧
      step { s with phase := .exited r } = .refused (.wrongPhase (.exited r)))

/-- R201 (FMCHIP ignores the model), R203, R204: the laws of the chip cores, for TESTCHIP and for the core of unknown
inside. -/
def Obligations.ChipCoreLaws : Prop :=
  (∀ impl m m', chipReset impl .fmchip m = chipReset impl .fmchip m') ∧
  (∀ core, chipClock core 0 = core) ∧
  (∀ core a b, chipClock (chipClock core a) b = chipClock core (a + b)) ∧
  (∀ (ro : PerKind (List RegIx)) (core : ChipCore) (r : RegIx) (v : Byte), CanonicalCore core →
    (∀ m ops, core ≠ .history .fmchip m ops) → r ∉ readOnlyRegs ro core → chipRead ro (chipWrite core r v) r = v)

/-! The mixer and the rate controller. -/

/-- R282, R287: weigh, sum over the active chips with no truncation, shift toward minus infinity, clamp once; the pair is
left in `mixed` (log 20) and lies in the output range. -/
def Obligations.MixWeighsAndClamps : Prop :=
  ∀ (samples : PerChip Sample) (s : State), Live s →
    ∃ l r, exec (.mix samples) s = .next { s with mixed := (l, r) } ∧
      l = max s.params.sampleMin (min s.params.sampleMax
        ((([ChipId.sid1, .sid2, .fm].filter s.cfg.active).map
          fun c => (s.weights.get c).1 * (samples.get c).toInt).sum / 2 ^ s.params.wshift)) ∧
      r = max s.params.sampleMin (min s.params.sampleMax
        ((([ChipId.sid1, .sid2, .fm].filter s.cfg.active).map
          fun c => (s.weights.get c).2 * (samples.get c).toInt).sum / 2 ^ s.params.wshift)) ∧
      (s.params.sampleMin ≤ s.params.sampleMax →
        s.params.sampleMin ≤ l ∧ l ≤ s.params.sampleMax ∧ s.params.sampleMin ≤ r ∧ r ≤ s.params.sampleMax)

/-- R283: with the sink available one pair, left first, is appended to what the sink was given (and counted by the
synthetic sink, R289, where there is one); with the sink away the operation has no step. -/
def Obligations.SinkWriteAppendsPair : Prop :=
  ∀ (l r : Int) (s : State), Live s →
    (s.sinkAvailable = true →
      exec (.sinkWrite l r) s = .next
        { s with
          sinkOut := s.sinkOut ++ [(l, r)]
          synth := s.synth.map fun y => { y with q := y.q + 1 } }) ∧
    (s.sinkAvailable = false → exec (.sinkWrite l r) s = .refused (.notSelected "SINK.WRITE"))

/-- R258, R266: one reading is added and one sample counted; when that completes the window RATE.WINDOW follows; with the
sink away the operation has no step. -/
def Obligations.AccumCountsOneReading : Prop :=
  ∀ (occ : Nat) (s u : State), Live s →
    u = { s with rc := { s.rc with sum := s.rc.sum + occ, n := s.rc.n + 1 } } →
    (s.sinkAvailable = true → s.rc.n + 1 ≠ s.params.window → exec (.rateAccum occ) s = .next u) ∧
    (s.sinkAvailable = true → s.rc.n + 1 = s.params.window →
      ∃ t, exec .rateWindow u = .next t ∧ exec (.rateAccum occ) s = .next t) ∧
    (s.sinkAvailable = false → exec (.rateAccum occ) s = .refused (.notSelected "RATE.ACCUM"))

/-- R259 to R263: the four cases of a closing window in the order written, and its bookkeeping. -/
def Obligations.WindowDecides : Prop :=
  ∀ (s : State) (avg : Nat), Live s → s.rc.n = s.params.window → avg = s.rc.sum / s.params.window →
    exec .rateWindow s = .next
      { s with
        rc :=
          { n := 0, sum := 0, mc := min (s.rc.mc + 1) s.params.acqWindows
            rate :=
              if s.rc.mc < s.params.acqWindows then s.rc.rate
              else if avg + s.params.marginLo < s.rc.wm then min (s.rc.rate + 1) s.params.rateMax
              else if s.rc.wm + s.params.marginHi < avg then max (s.rc.rate - 1) s.params.rateMin
              else s.rc.rate
            wm := if s.rc.mc < s.params.acqWindows then max avg s.params.minWatermark else s.rc.wm } }

/-- R259 to R263, each operation by itself, when the window closes in its case. That RATE.UP, DOWN and HOLD compute the
average from the state, and RATE.ACQUIRE takes the one it is given, is the model's choice (log 29, DESIGN CHOICE): R261 to
R263 speak of the average of R259 and do not say how an operation performed by itself comes by it. -/
def Obligations.RateOperations : Prop :=
  ∀ (s : State) (avg : Nat), Live s → s.rc.n = s.params.window →
    (s.rc.mc < s.params.acqWindows →
      exec (.rateAcquire avg) s = .next { s with rc := { s.rc with wm := max avg s.params.minWatermark } }) ∧
    (s.params.acqWindows ≤ s.rc.mc → avg = s.rc.sum / s.params.window →
      (avg + s.params.marginLo < s.rc.wm →
        exec .rateUp s = .next { s with rc := { s.rc with rate := min (s.rc.rate + 1) s.params.rateMax } }) ∧
      (s.rc.wm ≤ avg + s.params.marginLo → s.rc.wm + s.params.marginHi < avg →
        exec .rateDown s = .next { s with rc := { s.rc with rate := max (s.rc.rate - 1) s.params.rateMin } }) ∧
      (s.rc.wm ≤ avg + s.params.marginLo → avg ≤ s.rc.wm + s.params.marginHi → exec .rateHold s = .next s))

/-- R264: no operation but a baseline moves the rate by more than 1, or the watermark once the acquisition is over. -/
def Obligations.RateMovesByOne : Prop :=
  ∀ (i : Instr) (s t : State), s.phase = .running → ControlBounds s →
    i ≠ .resetCommit → (i = .busReset → s.resetRun + 1 < s.params.tRst) → exec i s = .next t →
    t.rc.rate ≤ s.rc.rate + 1 ∧ s.rc.rate ≤ t.rc.rate + 1 ∧
    (s.rc.mc = s.params.acqWindows → t.rc.wm = s.rc.wm)

/-! The session. -/

/-- R341, R60: a valid start gives the baseline in phase Running with the configuration, the clock and the weights of the
session; an invalid one is refused and so is a second one (R305). The model's own: the clause a refusal names is the
first that fails (log 12), the slots keep what they held (log 15; R60 leaves them unspecified), and the views are exact
(log 30, DEDUCED). -/
def Obligations.StartReachesBaseline : Prop :=
  ∀ (config : SessionConfig) (clk : Nat) (s : State), s.fault = none →
    (s.phase = .notStarted → sessionViolation s.params config clk = none →
      ∃ t, exec (.sessionStart config clk) s = .next t ∧ AtBaseline t ∧ Live t ∧
        t.cfg = config ∧ t.clk = clk ∧ t.params = s.params ∧ t.resetRun = 0 ∧ t.out = ⟨none, false⟩ ∧
        (∀ c, config.active c = true →
          t.weights.get c = panLaw s.params.panLaw (config.volume.get c) (config.pan.get c) config.stereoMix) ∧
        t.sinkOut = s.sinkOut ∧ t.script = s.script ∧ t.slots = s.slots) ∧
    (s.phase = .notStarted → ∀ v, sessionViolation s.params config clk = some v →
      exec (.sessionStart config clk) s = .refused (.invalidConfig v)) ∧
    (s.phase ≠ .notStarted → exec (.sessionStart config clk) s = .refused (.wrongPhase s.phase))

/-- The model's reset state is the one SESSION.START leaves from NotStarted under the model's choice of parameters,
configuration and clock (log 1, 2, 3, 5), with R60's values. -/
def Obligations.ResetIsAfterStart : Prop :=
  exec (.sessionStart refConfig 1000000) State.powerOn = .next State.reset ∧ AtBaseline State.reset ∧
    Live State.reset

/-! Whole-machine rules and invariants. -/

/-- R57, R59, R354: in a running session no step changes the parameters, the configuration, the clock or the weights. -/
def Obligations.ConfigurationFrozen : Prop :=
  ∀ s t : State, s.phase = .running → step s = .next t → frozenPart t = frozenPart s

/-- R59, R313: a bus transaction writes nothing EN owns, an operation of EN writes nothing BD owns and raises no fault. -/
def Obligations.OwnershipKept : Prop :=
  ∀ (i : Instr) (s t : State), exec i s = .next t →
    (isTransaction i = true → engineOwned t = engineOwned s ∧ t.phase = s.phase) ∧
    (isEngineOp i = true → busOwned t = busOwned s ∧ t.fault = s.fault)

/-- R104 (c), R309: a bus transaction and an engine operation that are both possible commute, so no observer can tell in
which order the two agents moved. -/
def Obligations.AgentsCommute : Prop :=
  ∀ (b e : Instr) (s t u : State), CountersOrdered s → isTransaction b = true →
    (e = .enApply ∨ e = .enIdle ∨ ∃ k, e = .enStep k) →
    exec b s = .next t → t.fault = none → exec e s = .next u →
    ∃ v, exec e t = .next v ∧ exec b u = .next v

/-- R301: no operation raises DeadlineMiss. -/
def Obligations.DeadlineMissNeverRaised : Prop :=
  ∀ (i : Instr) (s t : State), exec i s = .next t → t.fault = none ∨ t.fault = some .queueOverflow

/-- The model's choice, no rule of the spec: every piece of the state that the model holds sparse (byte arrays, log 14;
slots, log 15; histories of cores, log 4) keeps its canonical form at every step. -/
def Obligations.StepKeepsCanonical : Prop :=
  ∀ s t : State, Canonical s → step s = .next t → Canonical t

/-- R34, R35, R41, R100: every step keeps the counters, the indices and their views in order. -/
def Obligations.StepKeepsCounters : Prop :=
  ∀ s t : State, CountersOrdered s → step s = .next t → CountersOrdered t

/-- R39, R102, R104, R213: every step keeps the queue in time: timestamps rise along it, none is past the bus, none is
behind the engine, and the engine sees every event it could reach. -/
def Obligations.StepKeepsQueueTimely : Prop :=
  ∀ s t : State, CountersOrdered s → QueueTimely s → step s = .next t → QueueTimely t

/-- R34, R46, R218: every step keeps the active chips in lockstep with E and their images published. -/
def Obligations.StepKeepsChipsPublished : Prop :=
  ∀ s t : State, ChipsPublished s → step s = .next t → ChipsPublished t

/-- R43, R48, R50, R51, R264: every step keeps the bounds of the detection counters and of the rate controller. -/
def Obligations.StepKeepsControlBounds : Prop :=
  ∀ s t : State, ControlBounds s → step s = .next t → ControlBounds t

/-- The invariants hold in the model's reset state (its choices: log 1, 2, 3, 5; the canonical forms: log 14, 15). -/
def Obligations.ResetMeetsInvariants : Prop :=
  Canonical State.reset ∧ CountersOrdered State.reset ∧ QueueTimely State.reset ∧ ChipsPublished State.reset ∧
    ControlBounds State.reset
end

