-- ==== Sys2Proof/Laws/Memory.lean ====
section
/-! SUPPORT. The laws of the byte arrays and of the queue's storage: a read after a write, the canonical form kept, equal reads make equal arrays. -/

namespace Sys2Proof.Machine

theorem Memory.wfFrom_mono {m : Memory} {lo lo' : Nat} (h : Memory.wfFrom lo' m = true) (hl : lo ≤ lo') :
    Memory.wfFrom lo m = true := by
  cases m with
  | nil => rfl
  | cons c m =>
    obtain ⟨b, w⟩ := c
    simp only [Memory.wfFrom, Bool.and_eq_true, decide_eq_true_eq] at h ⊢
    exact ⟨⟨by omega, h.1.2⟩, h.2⟩

/-- Below the first address a canonical array reads 0. -/
theorem Memory.get_below {m : Memory} {lo a : Nat} (h : Memory.wfFrom lo m = true) (ha : a < lo) :
    Memory.get m a = 0 := by
  induction m generalizing lo with
  | nil => rfl
  | cons c m ih =>
    obtain ⟨b, w⟩ := c
    simp only [Memory.wfFrom, Bool.and_eq_true, decide_eq_true_eq] at h
    rw [Memory.get, if_neg (by omega)]
    exact ih h.2 (by omega)

/-- A read after a write (canonical array). -/
theorem Memory.get_set {m : Memory} {lo : Nat} (h : Memory.wfFrom lo m = true) (a b : Nat) (v : Byte) :
    Memory.get (Memory.set m a v) b = if b = a then v else Memory.get m b := by
  induction m generalizing lo with
  | nil =>
    simp only [Memory.set, Memory.get]
    split_ifs with hv hb hb <;> simp_all [Memory.get]
    omega
  | cons c m ih =>
    obtain ⟨c, w⟩ := c
    simp only [Memory.wfFrom, Bool.and_eq_true, decide_eq_true_eq] at h
    have hb := fun (h' : b < c + 1) => Memory.get_below h.2 h'
    simp only [Memory.set]
    repeat' split
    all_goals (try simp only [Memory.get, ih h.2])
    all_goals grind [Memory.get]

theorem Memory.wfFrom_set {m : Memory} {lo a : Nat} {v : Byte} (h : Memory.wfFrom lo m = true) (ha : lo ≤ a) :
    Memory.wfFrom lo (Memory.set m a v) = true := by
  induction m generalizing lo with
  | nil =>
    simp only [Memory.set]
    split_ifs <;> simp_all [Memory.wfFrom]
  | cons c m ih =>
    obtain ⟨c, w⟩ := c
    simp only [Memory.wfFrom, Bool.and_eq_true, decide_eq_true_eq] at h
    simp only [Memory.set]
    split_ifs with h1 hv h2 hv
    · simpa only [Memory.wfFrom, Bool.and_eq_true, decide_eq_true_eq] using h
    · simp only [Memory.wfFrom, Bool.and_eq_true, decide_eq_true_eq]
      exact ⟨⟨ha, hv⟩, ⟨by omega, h.1.2⟩, h.2⟩
    · exact Memory.wfFrom_mono h.2 (by omega)
    · simp only [Memory.wfFrom, Bool.and_eq_true, decide_eq_true_eq]
      exact ⟨⟨ha, hv⟩, h2 ▸ h.2⟩
    · simp only [Memory.wfFrom, Bool.and_eq_true, decide_eq_true_eq]
      exact ⟨h.1, ih h.2 (by omega)⟩

/-- A write keeps the canonical form. -/
theorem Memory.wf_set {m : Memory} (a : Nat) (v : Byte) (h : Memory.wf m = true) :
    Memory.wf (Memory.set m a v) = true := Memory.wfFrom_set h (Nat.zero_le a)

theorem Memory.within_set {m : Memory} {n a : Nat} (v : Byte) (h : Memory.within n m = true) (ha : a < n) :
    Memory.within n (Memory.set m a v) = true := by
  induction m with
  | nil =>
    simp only [Memory.set]
    split_ifs <;> simp_all [Memory.within]
  | cons c m ih =>
    obtain ⟨c, w⟩ := c
    simp only [Memory.within, List.all_cons, Bool.and_eq_true, decide_eq_true_eq] at h ih
    simp only [Memory.set]
    split_ifs
    all_goals simp only [Memory.within, List.all_cons, Bool.and_eq_true, decide_eq_true_eq]
    · exact h
    · exact ⟨ha, h⟩
    · exact h.2
    · exact ⟨ha, h.2⟩
    · exact ⟨h.1, ih h.2⟩

theorem Memory.wfFrom_tabulateFrom (f : Nat → Byte) (lo n : Nat) :
    Memory.wfFrom lo (Memory.tabulateFrom f lo n) = true := by
  induction n generalizing lo with
  | zero => rfl
  | succ n ih =>
    simp only [Memory.tabulateFrom]
    split_ifs with h
    · exact Memory.wfFrom_mono (ih (lo + 1)) (by omega)
    · simp only [Memory.wfFrom, Bool.and_eq_true, decide_eq_true_eq]
      exact ⟨⟨Nat.le_refl _, h⟩, ih (lo + 1)⟩

/-- A filled array is canonical. -/
theorem Memory.wf_tabulate (n : Nat) (f : Nat → Byte) : Memory.wf (Memory.tabulate n f) = true :=
  Memory.wfFrom_tabulateFrom f 0 n

theorem Memory.within_tabulateFrom (f : Nat → Byte) (lo n b : Nat) (h : lo + n ≤ b) :
    Memory.within b (Memory.tabulateFrom f lo n) = true := by
  induction n generalizing lo with
  | zero => rfl
  | succ n ih =>
    simp only [Memory.tabulateFrom]
    split_ifs
    · exact ih (lo + 1) (by omega)
    · simp only [Memory.within, List.all_cons, Bool.and_eq_true, decide_eq_true_eq]
      exact ⟨by omega, ih (lo + 1) (by omega)⟩

theorem Memory.within_tabulate (n : Nat) (f : Nat → Byte) : Memory.within n (Memory.tabulate n f) = true :=
  Memory.within_tabulateFrom f 0 n n (by omega)

theorem Memory.get_tabulateFrom (f : Nat → Byte) (lo n a : Nat) :
    Memory.get (Memory.tabulateFrom f lo n) a = if lo ≤ a ∧ a < lo + n then f a else 0 := by
  induction n generalizing lo with
  | zero => simp [Memory.tabulateFrom, Memory.get]
  | succ n ih =>
    simp only [Memory.tabulateFrom]
    split_ifs with h1 h2 h2 <;> simp only [Memory.get, ih] <;> grind

/-- What a filled array reads. -/
@[simp] theorem Memory.get_tabulate (n : Nat) (f : Nat → Byte) (a : Nat) :
    Memory.get (Memory.tabulate n f) a = if a < n then f a else 0 := by
  simp [Memory.tabulate, Memory.get_tabulateFrom]

theorem Memory.ext_from {m m' : Memory} {lo lo' : Nat} (h : Memory.wfFrom lo m = true) (h' : Memory.wfFrom lo' m' = true)
    (he : ∀ a, Memory.get m a = Memory.get m' a) : m = m' := by
  induction m generalizing lo lo' m' with
  | nil =>
    cases m' with
    | nil => rfl
    | cons c m' =>
      obtain ⟨b, w⟩ := c
      simp only [Memory.wfFrom, Bool.and_eq_true, decide_eq_true_eq] at h'
      have := he b
      simp only [Memory.get, if_true] at this
      exact absurd this.symm h'.1.2
  | cons c m ih =>
    obtain ⟨b, w⟩ := c
    simp only [Memory.wfFrom, Bool.and_eq_true, decide_eq_true_eq] at h
    cases m' with
    | nil =>
      have := he b
      simp only [Memory.get, if_true] at this
      exact absurd this h.1.2
    | cons c' m' =>
      obtain ⟨b', w'⟩ := c'
      simp only [Memory.wfFrom, Bool.and_eq_true, decide_eq_true_eq] at h'
      have hb : b = b' := by
        rcases Nat.lt_trichotomy b b' with hlt | heq | hgt
        · have := he b
          rw [Memory.get, if_pos rfl, Memory.get, if_neg (by omega), Memory.get_below h'.2 (by omega)] at this
          exact absurd this h.1.2
        · exact heq
        · have := he b'
          rw [Memory.get, if_neg (by omega), Memory.get_below h.2 (by omega), Memory.get, if_pos rfl] at this
          exact absurd this.symm h'.1.2
      subst hb
      have hw : w = w' := by simpa [Memory.get] using he b
      subst hw
      congr 1
      refine ih h.2 h'.2 fun a => ?_
      rcases Nat.lt_or_ge a (b + 1) with hlt | hge
      · rw [Memory.get_below h.2 hlt, Memory.get_below h'.2 hlt]
      · have := he a
        rwa [Memory.get, if_neg (by omega), Memory.get, if_neg (by omega)] at this

/-- Canonical arrays with equal reads are equal data. -/
theorem Memory.ext {m m' : Memory} (h : Memory.wf m = true) (h' : Memory.wf m' = true)
    (he : ∀ a, Memory.get m a = Memory.get m' a) : m = m' := Memory.ext_from h h' he

/-- A slot read after a write. -/
theorem Slots.get_set (m : Slots) (k j : Nat) (ev : BusEvent) :
    Slots.get (Slots.set m k ev) j = if j = k then ev else Slots.get m j := by
  induction m with
  | nil => simp only [Slots.set, Slots.get]; grind
  | cons c m ih =>
    obtain ⟨c, w⟩ := c
    simp only [Slots.set]
    split_ifs with h1 h2 h3 h3 h3 <;> simp only [Slots.get, ih] <;> grind

theorem Slots.wfFrom_mono {n lo lo' : Nat} {m : Slots} (h : Slots.wfFrom n lo' m = true) (hl : lo ≤ lo') :
    Slots.wfFrom n lo m = true := by
  cases m with
  | nil => rfl
  | cons c m =>
    obtain ⟨b, w⟩ := c
    simp only [Slots.wfFrom, Bool.and_eq_true, decide_eq_true_eq] at h ⊢
    exact ⟨⟨by omega, h.1.2⟩, h.2⟩

theorem Slots.wfFrom_set {n lo k : Nat} {m : Slots} (ev : BusEvent) (h : Slots.wfFrom n lo m = true)
    (hk : k < n) (hl : lo ≤ k) : Slots.wfFrom n lo (Slots.set m k ev) = true := by
  induction m generalizing lo with
  | nil => simp [Slots.set, Slots.wfFrom, hk, hl]
  | cons c m ih =>
    obtain ⟨c, w⟩ := c
    simp only [Slots.wfFrom, Bool.and_eq_true, decide_eq_true_eq] at h
    simp only [Slots.set]
    split_ifs with h1 h2
    all_goals simp only [Slots.wfFrom, Bool.and_eq_true, decide_eq_true_eq]
    · exact ⟨⟨hl, hk⟩, ⟨by omega, h.1.2⟩, h.2⟩
    · exact ⟨⟨hl, hk⟩, h2 ▸ h.2⟩
    · exact ⟨h.1, ih h.2 (by omega)⟩

/-- Writing a slot of the queue keeps the canonical form of its storage. -/
theorem Slots.wf_set {n k : Nat} {m : Slots} (ev : BusEvent) (h : Slots.wf n m = true) (hk : k < n) :
    Slots.wf n (Slots.set m k ev) = true := Slots.wfFrom_set ev h hk (Nat.zero_le k)

end Sys2Proof.Machine
end

