-- ==== Sys2Proof/Laws/State.lean ====
section
/-! SUPPORT. What each update of the state does to each field: one conjunction per update, tagged simp, so that no later proof unfolds a record update. A field that an update changes only in some cases is left out of its conjunction and has its own lemmas in Laws/Ops.lean. -/

namespace Sys2Proof.Machine

/-- The entry of an activation (R156). -/
@[simp] theorem enterActivation_fields (s : State) :
    (enterActivation s).params = s.params ∧ (enterActivation s).cfg = s.cfg ∧ (enterActivation s).clk = s.clk ∧
    (enterActivation s).weights = s.weights ∧ (enterActivation s).phase = s.phase ∧
    (enterActivation s).fault = s.fault ∧ (enterActivation s).measureCount = s.measureCount ∧
    (enterActivation s).cycleCount = s.cycleCount ∧ (enterActivation s).resetRun = 0 ∧
    (enterActivation s).E = s.E ∧ (enterActivation s).prevS = s.prevS ∧ (enterActivation s).slots = s.slots ∧
    (enterActivation s).writeIndex = s.writeIndex ∧ (enterActivation s).readIndex = s.readIndex ∧
    (enterActivation s).nowView = s.nowView ∧ (enterActivation s).wView = s.wView ∧
    (enterActivation s).rView = s.rView ∧ (enterActivation s).rbView = s.rbView ∧
    (enterActivation s).rbFlight = s.rbFlight ∧ (enterActivation s).chip = s.chip ∧
    (enterActivation s).det = s.det ∧ (enterActivation s).rb = s.rb ∧ (enterActivation s).rc = s.rc ∧
    (enterActivation s).out = ⟨none, false⟩ ∧ (enterActivation s).snap = s.snap ∧
    (enterActivation s).sinkAvailable = s.sinkAvailable ∧ (enterActivation s).occIn = s.occIn ∧
    (enterActivation s).exitCond = s.exitCond ∧ (enterActivation s).script = s.script ∧
    (enterActivation s).sinkOut = s.sinkOut ∧ (enterActivation s).peeked = s.peeked ∧
    (enterActivation s).drained = s.drained ∧ (enterActivation s).mixed = s.mixed ∧
    (enterActivation s).synth = s.synth := by
  refine ⟨rfl, rfl, rfl, rfl, rfl, rfl, rfl, rfl, rfl, rfl, rfl, rfl, rfl, rfl, rfl, rfl, rfl, rfl, rfl, rfl, rfl, rfl, rfl, rfl, rfl, rfl, rfl, rfl, rfl, rfl, rfl, rfl, rfl, rfl⟩

/-- drive(v) (R16). -/
@[simp] theorem driveByte_fields (v : Byte) (s : State) :
    (driveByte v s).params = s.params ∧ (driveByte v s).cfg = s.cfg ∧ (driveByte v s).clk = s.clk ∧
    (driveByte v s).weights = s.weights ∧ (driveByte v s).phase = s.phase ∧ (driveByte v s).fault = s.fault ∧
    (driveByte v s).measureCount = s.measureCount ∧ (driveByte v s).cycleCount = s.cycleCount ∧
    (driveByte v s).resetRun = s.resetRun ∧ (driveByte v s).E = s.E ∧ (driveByte v s).prevS = s.prevS ∧
    (driveByte v s).slots = s.slots ∧ (driveByte v s).writeIndex = s.writeIndex ∧
    (driveByte v s).readIndex = s.readIndex ∧ (driveByte v s).nowView = s.nowView ∧
    (driveByte v s).wView = s.wView ∧ (driveByte v s).rView = s.rView ∧ (driveByte v s).rbView = s.rbView ∧
    (driveByte v s).rbFlight = s.rbFlight ∧ (driveByte v s).chip = s.chip ∧ (driveByte v s).det = s.det ∧
    (driveByte v s).rb = s.rb ∧ (driveByte v s).rc = s.rc ∧ (driveByte v s).out = { s.out with drive := some v } ∧
    (driveByte v s).snap = s.snap ∧ (driveByte v s).sinkAvailable = s.sinkAvailable ∧
    (driveByte v s).occIn = s.occIn ∧ (driveByte v s).exitCond = s.exitCond ∧ (driveByte v s).script = s.script ∧
    (driveByte v s).sinkOut = s.sinkOut ∧ (driveByte v s).peeked = s.peeked ∧ (driveByte v s).drained = s.drained ∧
    (driveByte v s).mixed = s.mixed ∧ (driveByte v s).synth = s.synth := by
  refine ⟨rfl, rfl, rfl, rfl, rfl, rfl, rfl, rfl, rfl, rfl, rfl, rfl, rfl, rfl, rfl, rfl, rfl, rfl, rfl, rfl, rfl, rfl, rfl, rfl, rfl, rfl, rfl, rfl, rfl, rfl, rfl, rfl, rfl, rfl⟩

/-- raise Fatal changes `fault` only (R300). -/
@[simp] theorem raiseFatal_fields (f : FatalReason) (s : State) :
    (raiseFatal f s).params = s.params ∧ (raiseFatal f s).cfg = s.cfg ∧ (raiseFatal f s).clk = s.clk ∧
    (raiseFatal f s).weights = s.weights ∧ (raiseFatal f s).phase = s.phase ∧
    (raiseFatal f s).measureCount = s.measureCount ∧ (raiseFatal f s).cycleCount = s.cycleCount ∧
    (raiseFatal f s).resetRun = s.resetRun ∧ (raiseFatal f s).E = s.E ∧ (raiseFatal f s).prevS = s.prevS ∧
    (raiseFatal f s).slots = s.slots ∧ (raiseFatal f s).writeIndex = s.writeIndex ∧
    (raiseFatal f s).readIndex = s.readIndex ∧ (raiseFatal f s).nowView = s.nowView ∧
    (raiseFatal f s).wView = s.wView ∧ (raiseFatal f s).rView = s.rView ∧ (raiseFatal f s).rbView = s.rbView ∧
    (raiseFatal f s).rbFlight = s.rbFlight ∧ (raiseFatal f s).chip = s.chip ∧ (raiseFatal f s).det = s.det ∧
    (raiseFatal f s).rb = s.rb ∧ (raiseFatal f s).rc = s.rc ∧ (raiseFatal f s).out = s.out ∧
    (raiseFatal f s).snap = s.snap ∧ (raiseFatal f s).sinkAvailable = s.sinkAvailable ∧
    (raiseFatal f s).occIn = s.occIn ∧ (raiseFatal f s).exitCond = s.exitCond ∧
    (raiseFatal f s).script = s.script ∧ (raiseFatal f s).sinkOut = s.sinkOut ∧
    (raiseFatal f s).peeked = s.peeked ∧ (raiseFatal f s).drained = s.drained ∧ (raiseFatal f s).mixed = s.mixed ∧
    (raiseFatal f s).synth = s.synth := by
  unfold raiseFatal; cases s.fault <;> simp

/-- Completion changes the cycle count and the response only (R151, R165). -/
@[simp] theorem completeActivation_fields (c : Nat) (s : State) :
    (completeActivation c s).params = s.params ∧ (completeActivation c s).cfg = s.cfg ∧
    (completeActivation c s).clk = s.clk ∧ (completeActivation c s).weights = s.weights ∧
    (completeActivation c s).phase = s.phase ∧ (completeActivation c s).fault = s.fault ∧
    (completeActivation c s).measureCount = s.measureCount ∧ (completeActivation c s).resetRun = s.resetRun ∧
    (completeActivation c s).E = s.E ∧ (completeActivation c s).prevS = s.prevS ∧
    (completeActivation c s).slots = s.slots ∧ (completeActivation c s).writeIndex = s.writeIndex ∧
    (completeActivation c s).readIndex = s.readIndex ∧ (completeActivation c s).nowView = s.nowView ∧
    (completeActivation c s).wView = s.wView ∧ (completeActivation c s).rView = s.rView ∧
    (completeActivation c s).rbView = s.rbView ∧ (completeActivation c s).rbFlight = s.rbFlight ∧
    (completeActivation c s).chip = s.chip ∧ (completeActivation c s).det = s.det ∧
    (completeActivation c s).rb = s.rb ∧ (completeActivation c s).rc = s.rc ∧
    (completeActivation c s).snap = s.snap ∧ (completeActivation c s).sinkAvailable = s.sinkAvailable ∧
    (completeActivation c s).occIn = s.occIn ∧ (completeActivation c s).exitCond = s.exitCond ∧
    (completeActivation c s).script = s.script ∧ (completeActivation c s).sinkOut = s.sinkOut ∧
    (completeActivation c s).peeked = s.peeked ∧ (completeActivation c s).drained = s.drained ∧
    (completeActivation c s).mixed = s.mixed ∧ (completeActivation c s).synth = s.synth := by
  unfold completeActivation; cases h : s.fault <;> simp [h]

/-- Q.ENQUEUE changes the slots, writeIndex and `fault` only (R180). -/
@[simp] theorem enqueue_fields (ev : BusEvent) (s : State) :
    (enqueue ev s).params = s.params ∧ (enqueue ev s).cfg = s.cfg ∧ (enqueue ev s).clk = s.clk ∧
    (enqueue ev s).weights = s.weights ∧ (enqueue ev s).phase = s.phase ∧
    (enqueue ev s).measureCount = s.measureCount ∧ (enqueue ev s).cycleCount = s.cycleCount ∧
    (enqueue ev s).resetRun = s.resetRun ∧ (enqueue ev s).E = s.E ∧ (enqueue ev s).prevS = s.prevS ∧
    (enqueue ev s).readIndex = s.readIndex ∧ (enqueue ev s).nowView = s.nowView ∧ (enqueue ev s).wView = s.wView ∧
    (enqueue ev s).rView = s.rView ∧ (enqueue ev s).rbView = s.rbView ∧ (enqueue ev s).rbFlight = s.rbFlight ∧
    (enqueue ev s).chip = s.chip ∧ (enqueue ev s).det = s.det ∧ (enqueue ev s).rb = s.rb ∧
    (enqueue ev s).rc = s.rc ∧ (enqueue ev s).out = s.out ∧ (enqueue ev s).snap = s.snap ∧
    (enqueue ev s).sinkAvailable = s.sinkAvailable ∧ (enqueue ev s).occIn = s.occIn ∧
    (enqueue ev s).exitCond = s.exitCond ∧ (enqueue ev s).script = s.script ∧ (enqueue ev s).sinkOut = s.sinkOut ∧
    (enqueue ev s).peeked = s.peeked ∧ (enqueue ev s).drained = s.drained ∧ (enqueue ev s).mixed = s.mixed ∧
    (enqueue ev s).synth = s.synth := by
  unfold enqueue; split <;> simp

/-- Q.FLUSH (R184). -/
@[simp] theorem flush_fields (s : State) :
    (flush s).params = s.params ∧ (flush s).cfg = s.cfg ∧ (flush s).clk = s.clk ∧ (flush s).weights = s.weights ∧
    (flush s).phase = s.phase ∧ (flush s).fault = s.fault ∧ (flush s).measureCount = s.measureCount ∧
    (flush s).cycleCount = s.cycleCount ∧ (flush s).resetRun = s.resetRun ∧ (flush s).E = s.E ∧
    (flush s).prevS = s.prevS ∧ (flush s).slots = s.slots ∧ (flush s).writeIndex = 0 ∧ (flush s).readIndex = 0 ∧
    (flush s).nowView = s.nowView ∧ (flush s).wView = 0 ∧ (flush s).rView = 0 ∧ (flush s).rbView = s.rbView ∧
    (flush s).rbFlight = s.rbFlight ∧ (flush s).chip = s.chip ∧ (flush s).det = s.det ∧ (flush s).rb = s.rb ∧
    (flush s).rc = s.rc ∧ (flush s).out = s.out ∧ (flush s).snap = s.snap ∧
    (flush s).sinkAvailable = s.sinkAvailable ∧ (flush s).occIn = s.occIn ∧ (flush s).exitCond = s.exitCond ∧
    (flush s).script = s.script ∧ (flush s).sinkOut = s.sinkOut ∧ (flush s).peeked = s.peeked ∧
    (flush s).drained = s.drained ∧ (flush s).mixed = s.mixed ∧ (flush s).synth = s.synth := by
  refine ⟨rfl, rfl, rfl, rfl, rfl, rfl, rfl, rfl, rfl, rfl, rfl, rfl, rfl, rfl, rfl, rfl, rfl, rfl, rfl, rfl, rfl, rfl, rfl, rfl, rfl, rfl, rfl, rfl, rfl, rfl, rfl, rfl, rfl, rfl⟩

/-- EN.PUBLISH (R218). -/
@[simp] theorem publish_fields (s : State) :
    (publish s).params = s.params ∧ (publish s).cfg = s.cfg ∧ (publish s).clk = s.clk ∧
    (publish s).weights = s.weights ∧ (publish s).phase = s.phase ∧ (publish s).fault = s.fault ∧
    (publish s).measureCount = s.measureCount ∧ (publish s).cycleCount = s.cycleCount ∧
    (publish s).resetRun = s.resetRun ∧ (publish s).E = s.E ∧ (publish s).prevS = s.prevS ∧
    (publish s).slots = s.slots ∧ (publish s).writeIndex = s.writeIndex ∧ (publish s).readIndex = s.readIndex ∧
    (publish s).nowView = s.nowView ∧ (publish s).wView = s.wView ∧ (publish s).rView = s.rView ∧
    (publish s).rbView = s.rbView ∧ (publish s).rbFlight = s.rbFlight ∧ (publish s).chip = s.chip ∧
    (publish s).det = s.det ∧ (publish s).rb = onActive s.cfg s.rb (images s.params s.chip) ∧
    (publish s).rc = s.rc ∧ (publish s).out = s.out ∧ (publish s).snap = s.snap ∧
    (publish s).sinkAvailable = s.sinkAvailable ∧ (publish s).occIn = s.occIn ∧ (publish s).exitCond = s.exitCond ∧
    (publish s).script = s.script ∧ (publish s).sinkOut = s.sinkOut ∧ (publish s).peeked = s.peeked ∧
    (publish s).drained = s.drained ∧ (publish s).mixed = s.mixed ∧ (publish s).synth = s.synth := by
  refine ⟨rfl, rfl, rfl, rfl, rfl, rfl, rfl, rfl, rfl, rfl, rfl, rfl, rfl, rfl, rfl, rfl, rfl, rfl, rfl, rfl, rfl, rfl, rfl, rfl, rfl, rfl, rfl, rfl, rfl, rfl, rfl, rfl, rfl, rfl⟩

/-- The baseline of a reset commit and a session start (R60, R345). -/
@[simp] theorem baseline_fields (s : State) :
    (baseline s).params = s.params ∧ (baseline s).cfg = s.cfg ∧ (baseline s).clk = s.clk ∧
    (baseline s).weights = s.weights ∧ (baseline s).phase = s.phase ∧ (baseline s).fault = s.fault ∧
    (baseline s).measureCount = s.measureCount ∧ (baseline s).cycleCount = 0 ∧ (baseline s).resetRun = s.resetRun ∧
    (baseline s).E = 0 ∧ (baseline s).prevS = 0 ∧ (baseline s).slots = s.slots ∧ (baseline s).writeIndex = 0 ∧
    (baseline s).readIndex = 0 ∧ (baseline s).nowView = 0 ∧ (baseline s).wView = 0 ∧ (baseline s).rView = 0 ∧
    (baseline s).rbView = onActive s.cfg s.rb (images s.params (onActive s.cfg s.chip (freshChips s.params s.cfg))) ∧
    (baseline s).rbFlight = [] ∧ (baseline s).chip = onActive s.cfg s.chip (freshChips s.params s.cfg) ∧
    (baseline s).det = onActiveSynth s.cfg s.det freshDet ∧
    (baseline s).rb = onActive s.cfg s.rb (images s.params (onActive s.cfg s.chip (freshChips s.params s.cfg))) ∧
    (baseline s).rc = freshRate s.params ∧ (baseline s).out = s.out ∧ (baseline s).snap = s.snap ∧
    (baseline s).sinkAvailable = s.sinkAvailable ∧ (baseline s).occIn = s.occIn ∧
    (baseline s).exitCond = s.exitCond ∧ (baseline s).script = s.script ∧ (baseline s).sinkOut = s.sinkOut ∧
    (baseline s).peeked = s.peeked ∧ (baseline s).drained = s.drained ∧ (baseline s).mixed = s.mixed ∧
    (baseline s).synth = s.synth := by
  refine ⟨rfl, rfl, rfl, rfl, rfl, rfl, rfl, rfl, rfl, rfl, rfl, rfl, rfl, rfl, rfl, rfl, rfl, rfl, rfl, rfl, rfl, rfl, rfl, rfl, rfl, rfl, rfl, rfl, rfl, rfl, rfl, rfl, rfl, rfl⟩

/-- RESET.COMMIT (R345, R348). -/
@[simp] theorem resetCommit_fields (s : State) :
    (resetCommit s).params = s.params ∧ (resetCommit s).cfg = s.cfg ∧ (resetCommit s).clk = s.clk ∧
    (resetCommit s).weights = s.weights ∧ (resetCommit s).phase = s.phase ∧ (resetCommit s).fault = s.fault ∧
    (resetCommit s).measureCount = s.measureCount ∧ (resetCommit s).cycleCount = 0 ∧
    (resetCommit s).resetRun = s.resetRun ∧ (resetCommit s).E = 0 ∧ (resetCommit s).prevS = 0 ∧
    (resetCommit s).slots = s.slots ∧ (resetCommit s).writeIndex = 0 ∧ (resetCommit s).readIndex = 0 ∧
    (resetCommit s).nowView = 0 ∧ (resetCommit s).wView = 0 ∧ (resetCommit s).rView = 0 ∧
    (resetCommit s).rbView = onActive s.cfg s.rb (images s.params (onActive s.cfg s.chip (freshChips s.params s.cfg))) ∧
    (resetCommit s).rbFlight = [] ∧ (resetCommit s).chip = onActive s.cfg s.chip (freshChips s.params s.cfg) ∧
    (resetCommit s).det = onActiveSynth s.cfg s.det freshDet ∧
    (resetCommit s).rb = onActive s.cfg s.rb (images s.params (onActive s.cfg s.chip (freshChips s.params s.cfg))) ∧
    (resetCommit s).rc = freshRate s.params ∧ (resetCommit s).out = s.out ∧ (resetCommit s).snap = s.snap ∧
    (resetCommit s).sinkAvailable = s.sinkAvailable ∧ (resetCommit s).occIn = s.occIn ∧
    (resetCommit s).exitCond = s.exitCond ∧ (resetCommit s).script = s.script ∧
    (resetCommit s).sinkOut = s.sinkOut ∧ (resetCommit s).peeked = s.peeked ∧ (resetCommit s).drained = s.drained ∧
    (resetCommit s).mixed = s.mixed ∧ (resetCommit s).synth = s.synth := by
  refine ⟨rfl, rfl, rfl, rfl, rfl, rfl, rfl, rfl, rfl, rfl, rfl, rfl, rfl, rfl, rfl, rfl, rfl, rfl, rfl, rfl, rfl, rfl, rfl, rfl, rfl, rfl, rfl, rfl, rfl, rfl, rfl, rfl, rfl, rfl⟩

/-- det[ch].step <- k. -/
@[simp] theorem setDetStep_fields (ch : SynthId) (k : Nat) (s : State) :
    (setDetStep ch k s).params = s.params ∧ (setDetStep ch k s).cfg = s.cfg ∧ (setDetStep ch k s).clk = s.clk ∧
    (setDetStep ch k s).weights = s.weights ∧ (setDetStep ch k s).phase = s.phase ∧
    (setDetStep ch k s).fault = s.fault ∧ (setDetStep ch k s).measureCount = s.measureCount ∧
    (setDetStep ch k s).cycleCount = s.cycleCount ∧ (setDetStep ch k s).resetRun = s.resetRun ∧
    (setDetStep ch k s).E = s.E ∧ (setDetStep ch k s).prevS = s.prevS ∧ (setDetStep ch k s).slots = s.slots ∧
    (setDetStep ch k s).writeIndex = s.writeIndex ∧ (setDetStep ch k s).readIndex = s.readIndex ∧
    (setDetStep ch k s).nowView = s.nowView ∧ (setDetStep ch k s).wView = s.wView ∧
    (setDetStep ch k s).rView = s.rView ∧ (setDetStep ch k s).rbView = s.rbView ∧
    (setDetStep ch k s).rbFlight = s.rbFlight ∧ (setDetStep ch k s).chip = s.chip ∧
    (setDetStep ch k s).det = s.det.set ch { s.det.get ch with step := k } ∧ (setDetStep ch k s).rb = s.rb ∧
    (setDetStep ch k s).rc = s.rc ∧ (setDetStep ch k s).out = s.out ∧ (setDetStep ch k s).snap = s.snap ∧
    (setDetStep ch k s).sinkAvailable = s.sinkAvailable ∧ (setDetStep ch k s).occIn = s.occIn ∧
    (setDetStep ch k s).exitCond = s.exitCond ∧ (setDetStep ch k s).script = s.script ∧
    (setDetStep ch k s).sinkOut = s.sinkOut ∧ (setDetStep ch k s).peeked = s.peeked ∧
    (setDetStep ch k s).drained = s.drained ∧ (setDetStep ch k s).mixed = s.mixed ∧
    (setDetStep ch k s).synth = s.synth := by
  refine ⟨rfl, rfl, rfl, rfl, rfl, rfl, rfl, rfl, rfl, rfl, rfl, rfl, rfl, rfl, rfl, rfl, rfl, rfl, rfl, rfl, rfl, rfl, rfl, rfl, rfl, rfl, rfl, rfl, rfl, rfl, rfl, rfl, rfl, rfl⟩

/-- det[ch].snapshot[reg] <- val (R246). -/
@[simp] theorem recordWrite_fields (ch : SynthId) (reg : RegIx) (val : Byte) (s : State) :
    (recordWrite ch reg val s).params = s.params ∧ (recordWrite ch reg val s).cfg = s.cfg ∧
    (recordWrite ch reg val s).clk = s.clk ∧ (recordWrite ch reg val s).weights = s.weights ∧
    (recordWrite ch reg val s).phase = s.phase ∧ (recordWrite ch reg val s).fault = s.fault ∧
    (recordWrite ch reg val s).measureCount = s.measureCount ∧
    (recordWrite ch reg val s).cycleCount = s.cycleCount ∧ (recordWrite ch reg val s).resetRun = s.resetRun ∧
    (recordWrite ch reg val s).E = s.E ∧ (recordWrite ch reg val s).prevS = s.prevS ∧
    (recordWrite ch reg val s).slots = s.slots ∧ (recordWrite ch reg val s).writeIndex = s.writeIndex ∧
    (recordWrite ch reg val s).readIndex = s.readIndex ∧ (recordWrite ch reg val s).nowView = s.nowView ∧
    (recordWrite ch reg val s).wView = s.wView ∧ (recordWrite ch reg val s).rView = s.rView ∧
    (recordWrite ch reg val s).rbView = s.rbView ∧ (recordWrite ch reg val s).rbFlight = s.rbFlight ∧
    (recordWrite ch reg val s).chip = s.chip ∧
    (recordWrite ch reg val s).det = s.det.set ch { s.det.get ch with snapshot := Memory.set (s.det.get ch).snapshot reg.toNat val } ∧
    (recordWrite ch reg val s).rb = s.rb ∧ (recordWrite ch reg val s).rc = s.rc ∧
    (recordWrite ch reg val s).out = s.out ∧ (recordWrite ch reg val s).snap = s.snap ∧
    (recordWrite ch reg val s).sinkAvailable = s.sinkAvailable ∧ (recordWrite ch reg val s).occIn = s.occIn ∧
    (recordWrite ch reg val s).exitCond = s.exitCond ∧ (recordWrite ch reg val s).script = s.script ∧
    (recordWrite ch reg val s).sinkOut = s.sinkOut ∧ (recordWrite ch reg val s).peeked = s.peeked ∧
    (recordWrite ch reg val s).drained = s.drained ∧ (recordWrite ch reg val s).mixed = s.mixed ∧
    (recordWrite ch reg val s).synth = s.synth := by
  refine ⟨rfl, rfl, rfl, rfl, rfl, rfl, rfl, rfl, rfl, rfl, rfl, rfl, rfl, rfl, rfl, rfl, rfl, rfl, rfl, rfl, rfl, rfl, rfl, rfl, rfl, rfl, rfl, rfl, rfl, rfl, rfl, rfl, rfl, rfl⟩

/-- DET.ADVANCE (R241). -/
@[simp] theorem detAdvance_fields (ch : SynthId) (s : State) :
    (detAdvance ch s).params = s.params ∧ (detAdvance ch s).cfg = s.cfg ∧ (detAdvance ch s).clk = s.clk ∧
    (detAdvance ch s).weights = s.weights ∧ (detAdvance ch s).phase = s.phase ∧ (detAdvance ch s).fault = s.fault ∧
    (detAdvance ch s).measureCount = s.measureCount ∧ (detAdvance ch s).cycleCount = s.cycleCount ∧
    (detAdvance ch s).resetRun = s.resetRun ∧ (detAdvance ch s).E = s.E ∧ (detAdvance ch s).prevS = s.prevS ∧
    (detAdvance ch s).slots = s.slots ∧ (detAdvance ch s).writeIndex = s.writeIndex ∧
    (detAdvance ch s).readIndex = s.readIndex ∧ (detAdvance ch s).nowView = s.nowView ∧
    (detAdvance ch s).wView = s.wView ∧ (detAdvance ch s).rView = s.rView ∧ (detAdvance ch s).rbView = s.rbView ∧
    (detAdvance ch s).rbFlight = s.rbFlight ∧ (detAdvance ch s).chip = s.chip ∧
    (detAdvance ch s).det = s.det.set ch { s.det.get ch with step := (s.det.get ch).step + 1 } ∧
    (detAdvance ch s).rb = s.rb ∧ (detAdvance ch s).rc = s.rc ∧ (detAdvance ch s).out = s.out ∧
    (detAdvance ch s).snap = s.snap ∧ (detAdvance ch s).sinkAvailable = s.sinkAvailable ∧
    (detAdvance ch s).occIn = s.occIn ∧ (detAdvance ch s).exitCond = s.exitCond ∧
    (detAdvance ch s).script = s.script ∧ (detAdvance ch s).sinkOut = s.sinkOut ∧
    (detAdvance ch s).peeked = s.peeked ∧ (detAdvance ch s).drained = s.drained ∧
    (detAdvance ch s).mixed = s.mixed ∧ (detAdvance ch s).synth = s.synth := by
  refine ⟨rfl, rfl, rfl, rfl, rfl, rfl, rfl, rfl, rfl, rfl, rfl, rfl, rfl, rfl, rfl, rfl, rfl, rfl, rfl, rfl, rfl, rfl, rfl, rfl, rfl, rfl, rfl, rfl, rfl, rfl, rfl, rfl, rfl, rfl⟩

/-- DET.MISS (R242). -/
@[simp] theorem detMiss_fields (ch : SynthId) (s : State) :
    (detMiss ch s).params = s.params ∧ (detMiss ch s).cfg = s.cfg ∧ (detMiss ch s).clk = s.clk ∧
    (detMiss ch s).weights = s.weights ∧ (detMiss ch s).phase = s.phase ∧ (detMiss ch s).fault = s.fault ∧
    (detMiss ch s).measureCount = s.measureCount ∧ (detMiss ch s).cycleCount = s.cycleCount ∧
    (detMiss ch s).resetRun = s.resetRun ∧ (detMiss ch s).E = s.E ∧ (detMiss ch s).prevS = s.prevS ∧
    (detMiss ch s).slots = s.slots ∧ (detMiss ch s).writeIndex = s.writeIndex ∧
    (detMiss ch s).readIndex = s.readIndex ∧ (detMiss ch s).nowView = s.nowView ∧ (detMiss ch s).wView = s.wView ∧
    (detMiss ch s).rView = s.rView ∧ (detMiss ch s).rbView = s.rbView ∧ (detMiss ch s).rbFlight = s.rbFlight ∧
    (detMiss ch s).chip = s.chip ∧ (detMiss ch s).det = s.det.set ch { s.det.get ch with step := 0 } ∧
    (detMiss ch s).rb = s.rb ∧ (detMiss ch s).rc = s.rc ∧ (detMiss ch s).out = s.out ∧
    (detMiss ch s).snap = s.snap ∧ (detMiss ch s).sinkAvailable = s.sinkAvailable ∧
    (detMiss ch s).occIn = s.occIn ∧ (detMiss ch s).exitCond = s.exitCond ∧ (detMiss ch s).script = s.script ∧
    (detMiss ch s).sinkOut = s.sinkOut ∧ (detMiss ch s).peeked = s.peeked ∧ (detMiss ch s).drained = s.drained ∧
    (detMiss ch s).mixed = s.mixed ∧ (detMiss ch s).synth = s.synth := by
  refine ⟨rfl, rfl, rfl, rfl, rfl, rfl, rfl, rfl, rfl, rfl, rfl, rfl, rfl, rfl, rfl, rfl, rfl, rfl, rfl, rfl, rfl, rfl, rfl, rfl, rfl, rfl, rfl, rfl, rfl, rfl, rfl, rfl, rfl, rfl⟩

/-- DET.PROBE (R243). -/
@[simp] theorem detProbe_fields (ch : SynthId) (s : State) :
    (detProbe ch s).params = s.params ∧ (detProbe ch s).cfg = s.cfg ∧ (detProbe ch s).clk = s.clk ∧
    (detProbe ch s).weights = s.weights ∧ (detProbe ch s).phase = s.phase ∧ (detProbe ch s).fault = s.fault ∧
    (detProbe ch s).measureCount = s.measureCount ∧ (detProbe ch s).cycleCount = s.cycleCount ∧
    (detProbe ch s).resetRun = s.resetRun ∧ (detProbe ch s).E = s.E ∧ (detProbe ch s).prevS = s.prevS ∧
    (detProbe ch s).slots = s.slots ∧ (detProbe ch s).writeIndex = s.writeIndex ∧
    (detProbe ch s).readIndex = s.readIndex ∧ (detProbe ch s).nowView = s.nowView ∧
    (detProbe ch s).wView = s.wView ∧ (detProbe ch s).rView = s.rView ∧ (detProbe ch s).rbView = s.rbView ∧
    (detProbe ch s).rbFlight = s.rbFlight ∧ (detProbe ch s).chip = s.chip ∧
    (detProbe ch s).det = s.det.set ch { s.det.get ch with step := 0 } ∧ (detProbe ch s).rb = s.rb ∧
    (detProbe ch s).rc = s.rc ∧ (detProbe ch s).out = s.out ∧ (detProbe ch s).snap = s.snap ∧
    (detProbe ch s).sinkAvailable = s.sinkAvailable ∧ (detProbe ch s).occIn = s.occIn ∧
    (detProbe ch s).exitCond = s.exitCond ∧ (detProbe ch s).script = s.script ∧
    (detProbe ch s).sinkOut = s.sinkOut ∧ (detProbe ch s).peeked = s.peeked ∧ (detProbe ch s).drained = s.drained ∧
    (detProbe ch s).mixed = s.mixed ∧ (detProbe ch s).synth = s.synth := by
  refine ⟨rfl, rfl, rfl, rfl, rfl, rfl, rfl, rfl, rfl, rfl, rfl, rfl, rfl, rfl, rfl, rfl, rfl, rfl, rfl, rfl, rfl, rfl, rfl, rfl, rfl, rfl, rfl, rfl, rfl, rfl, rfl, rfl, rfl, rfl⟩

/-- The detection update of a write (R157). -/
@[simp] theorem detWrite_fields (ch : SynthId) (reg : RegIx) (val : Byte) (s : State) :
    (detWrite ch reg val s).params = s.params ∧ (detWrite ch reg val s).cfg = s.cfg ∧
    (detWrite ch reg val s).clk = s.clk ∧ (detWrite ch reg val s).weights = s.weights ∧
    (detWrite ch reg val s).phase = s.phase ∧ (detWrite ch reg val s).fault = s.fault ∧
    (detWrite ch reg val s).measureCount = s.measureCount ∧ (detWrite ch reg val s).cycleCount = s.cycleCount ∧
    (detWrite ch reg val s).resetRun = s.resetRun ∧ (detWrite ch reg val s).E = s.E ∧
    (detWrite ch reg val s).prevS = s.prevS ∧ (detWrite ch reg val s).slots = s.slots ∧
    (detWrite ch reg val s).writeIndex = s.writeIndex ∧ (detWrite ch reg val s).readIndex = s.readIndex ∧
    (detWrite ch reg val s).nowView = s.nowView ∧ (detWrite ch reg val s).wView = s.wView ∧
    (detWrite ch reg val s).rView = s.rView ∧ (detWrite ch reg val s).rbView = s.rbView ∧
    (detWrite ch reg val s).rbFlight = s.rbFlight ∧ (detWrite ch reg val s).chip = s.chip ∧
    (detWrite ch reg val s).det = s.det.set ch { s.det.get ch with step := if detExpected s ch reg val then (s.det.get ch).step + 1 else 0 } ∧
    (detWrite ch reg val s).rb = s.rb ∧ (detWrite ch reg val s).rc = s.rc ∧ (detWrite ch reg val s).out = s.out ∧
    (detWrite ch reg val s).snap = s.snap ∧ (detWrite ch reg val s).sinkAvailable = s.sinkAvailable ∧
    (detWrite ch reg val s).occIn = s.occIn ∧ (detWrite ch reg val s).exitCond = s.exitCond ∧
    (detWrite ch reg val s).script = s.script ∧ (detWrite ch reg val s).sinkOut = s.sinkOut ∧
    (detWrite ch reg val s).peeked = s.peeked ∧ (detWrite ch reg val s).drained = s.drained ∧
    (detWrite ch reg val s).mixed = s.mixed ∧ (detWrite ch reg val s).synth = s.synth := by
  unfold detWrite; split <;> simp [*]

/-- The counting of a reset-asserted cycle (R152). -/
@[simp] theorem countReset_fields (s : State) :
    (countReset s).params = s.params ∧ (countReset s).cfg = s.cfg ∧ (countReset s).clk = s.clk ∧
    (countReset s).weights = s.weights ∧ (countReset s).phase = s.phase ∧ (countReset s).fault = s.fault ∧
    (countReset s).measureCount = s.measureCount ∧ (countReset s).cycleCount = s.cycleCount ∧
    (countReset s).resetRun = min (s.resetRun + 1) s.params.tRst ∧ (countReset s).E = s.E ∧
    (countReset s).prevS = s.prevS ∧ (countReset s).slots = s.slots ∧ (countReset s).writeIndex = s.writeIndex ∧
    (countReset s).readIndex = s.readIndex ∧ (countReset s).nowView = s.nowView ∧ (countReset s).wView = s.wView ∧
    (countReset s).rView = s.rView ∧ (countReset s).rbView = s.rbView ∧ (countReset s).rbFlight = s.rbFlight ∧
    (countReset s).chip = s.chip ∧ (countReset s).det = s.det ∧ (countReset s).rb = s.rb ∧
    (countReset s).rc = s.rc ∧ (countReset s).out = ⟨none, false⟩ ∧ (countReset s).snap = s.snap ∧
    (countReset s).sinkAvailable = s.sinkAvailable ∧ (countReset s).occIn = s.occIn ∧
    (countReset s).exitCond = s.exitCond ∧ (countReset s).script = s.script ∧ (countReset s).sinkOut = s.sinkOut ∧
    (countReset s).peeked = s.peeked ∧ (countReset s).drained = s.drained ∧ (countReset s).mixed = s.mixed ∧
    (countReset s).synth = s.synth := by
  refine ⟨rfl, rfl, rfl, rfl, rfl, rfl, rfl, rfl, rfl, rfl, rfl, rfl, rfl, rfl, rfl, rfl, rfl, rfl, rfl, rfl, rfl, rfl, rfl, rfl, rfl, rfl, rfl, rfl, rfl, rfl, rfl, rfl, rfl, rfl⟩

/-- Bus completion (R165). -/
@[simp] theorem signalDone_fields (s : State) :
    (signalDone s).params = s.params ∧ (signalDone s).cfg = s.cfg ∧ (signalDone s).clk = s.clk ∧
    (signalDone s).weights = s.weights ∧ (signalDone s).phase = s.phase ∧ (signalDone s).fault = s.fault ∧
    (signalDone s).measureCount = s.measureCount ∧ (signalDone s).cycleCount = s.cycleCount ∧
    (signalDone s).resetRun = s.resetRun ∧ (signalDone s).E = s.E ∧ (signalDone s).prevS = s.prevS ∧
    (signalDone s).slots = s.slots ∧ (signalDone s).writeIndex = s.writeIndex ∧
    (signalDone s).readIndex = s.readIndex ∧ (signalDone s).nowView = s.nowView ∧ (signalDone s).wView = s.wView ∧
    (signalDone s).rView = s.rView ∧ (signalDone s).rbView = s.rbView ∧ (signalDone s).rbFlight = s.rbFlight ∧
    (signalDone s).chip = s.chip ∧ (signalDone s).det = s.det ∧ (signalDone s).rb = s.rb ∧
    (signalDone s).rc = s.rc ∧ (signalDone s).out = { s.out with done := true } ∧ (signalDone s).snap = s.snap ∧
    (signalDone s).sinkAvailable = s.sinkAvailable ∧ (signalDone s).occIn = s.occIn ∧
    (signalDone s).exitCond = s.exitCond ∧ (signalDone s).script = s.script ∧ (signalDone s).sinkOut = s.sinkOut ∧
    (signalDone s).peeked = s.peeked ∧ (signalDone s).drained = s.drained ∧ (signalDone s).mixed = s.mixed ∧
    (signalDone s).synth = s.synth := by
  refine ⟨rfl, rfl, rfl, rfl, rfl, rfl, rfl, rfl, rfl, rfl, rfl, rfl, rfl, rfl, rfl, rfl, rfl, rfl, rfl, rfl, rfl, rfl, rfl, rfl, rfl, rfl, rfl, rfl, rfl, rfl, rfl, rfl, rfl, rfl⟩

/-- SINK.WRITE (R283, R289). -/
@[simp] theorem sinkWrite_fields (l : Int) (r : Int) (s : State) :
    (sinkWrite l r s).params = s.params ∧ (sinkWrite l r s).cfg = s.cfg ∧ (sinkWrite l r s).clk = s.clk ∧
    (sinkWrite l r s).weights = s.weights ∧ (sinkWrite l r s).phase = s.phase ∧ (sinkWrite l r s).fault = s.fault ∧
    (sinkWrite l r s).measureCount = s.measureCount ∧ (sinkWrite l r s).cycleCount = s.cycleCount ∧
    (sinkWrite l r s).resetRun = s.resetRun ∧ (sinkWrite l r s).E = s.E ∧ (sinkWrite l r s).prevS = s.prevS ∧
    (sinkWrite l r s).slots = s.slots ∧ (sinkWrite l r s).writeIndex = s.writeIndex ∧
    (sinkWrite l r s).readIndex = s.readIndex ∧ (sinkWrite l r s).nowView = s.nowView ∧
    (sinkWrite l r s).wView = s.wView ∧ (sinkWrite l r s).rView = s.rView ∧ (sinkWrite l r s).rbView = s.rbView ∧
    (sinkWrite l r s).rbFlight = s.rbFlight ∧ (sinkWrite l r s).chip = s.chip ∧ (sinkWrite l r s).det = s.det ∧
    (sinkWrite l r s).rb = s.rb ∧ (sinkWrite l r s).rc = s.rc ∧ (sinkWrite l r s).out = s.out ∧
    (sinkWrite l r s).snap = s.snap ∧ (sinkWrite l r s).sinkAvailable = s.sinkAvailable ∧
    (sinkWrite l r s).occIn = s.occIn ∧ (sinkWrite l r s).exitCond = s.exitCond ∧
    (sinkWrite l r s).script = s.script ∧ (sinkWrite l r s).sinkOut = s.sinkOut ++ [(l, r)] ∧
    (sinkWrite l r s).peeked = s.peeked ∧ (sinkWrite l r s).drained = s.drained ∧
    (sinkWrite l r s).mixed = s.mixed ∧ (sinkWrite l r s).synth = s.synth.map fun y => { y with q := y.q + 1 } := by
  refine ⟨rfl, rfl, rfl, rfl, rfl, rfl, rfl, rfl, rfl, rfl, rfl, rfl, rfl, rfl, rfl, rfl, rfl, rfl, rfl, rfl, rfl, rfl, rfl, rfl, rfl, rfl, rfl, rfl, rfl, rfl, rfl, rfl, rfl, rfl⟩

/-- RATE.ACQUIRE (R260). -/
@[simp] theorem rateAcquire_fields (avg : Nat) (s : State) :
    (rateAcquire avg s).params = s.params ∧ (rateAcquire avg s).cfg = s.cfg ∧ (rateAcquire avg s).clk = s.clk ∧
    (rateAcquire avg s).weights = s.weights ∧ (rateAcquire avg s).phase = s.phase ∧
    (rateAcquire avg s).fault = s.fault ∧ (rateAcquire avg s).measureCount = s.measureCount ∧
    (rateAcquire avg s).cycleCount = s.cycleCount ∧ (rateAcquire avg s).resetRun = s.resetRun ∧
    (rateAcquire avg s).E = s.E ∧ (rateAcquire avg s).prevS = s.prevS ∧ (rateAcquire avg s).slots = s.slots ∧
    (rateAcquire avg s).writeIndex = s.writeIndex ∧ (rateAcquire avg s).readIndex = s.readIndex ∧
    (rateAcquire avg s).nowView = s.nowView ∧ (rateAcquire avg s).wView = s.wView ∧
    (rateAcquire avg s).rView = s.rView ∧ (rateAcquire avg s).rbView = s.rbView ∧
    (rateAcquire avg s).rbFlight = s.rbFlight ∧ (rateAcquire avg s).chip = s.chip ∧
    (rateAcquire avg s).det = s.det ∧ (rateAcquire avg s).rb = s.rb ∧
    (rateAcquire avg s).rc = { s.rc with wm := max avg s.params.minWatermark } ∧ (rateAcquire avg s).out = s.out ∧
    (rateAcquire avg s).snap = s.snap ∧ (rateAcquire avg s).sinkAvailable = s.sinkAvailable ∧
    (rateAcquire avg s).occIn = s.occIn ∧ (rateAcquire avg s).exitCond = s.exitCond ∧
    (rateAcquire avg s).script = s.script ∧ (rateAcquire avg s).sinkOut = s.sinkOut ∧
    (rateAcquire avg s).peeked = s.peeked ∧ (rateAcquire avg s).drained = s.drained ∧
    (rateAcquire avg s).mixed = s.mixed ∧ (rateAcquire avg s).synth = s.synth := by
  refine ⟨rfl, rfl, rfl, rfl, rfl, rfl, rfl, rfl, rfl, rfl, rfl, rfl, rfl, rfl, rfl, rfl, rfl, rfl, rfl, rfl, rfl, rfl, rfl, rfl, rfl, rfl, rfl, rfl, rfl, rfl, rfl, rfl, rfl, rfl⟩

/-- RATE.UP (R261). -/
@[simp] theorem rateUp_fields (s : State) :
    (rateUp s).params = s.params ∧ (rateUp s).cfg = s.cfg ∧ (rateUp s).clk = s.clk ∧
    (rateUp s).weights = s.weights ∧ (rateUp s).phase = s.phase ∧ (rateUp s).fault = s.fault ∧
    (rateUp s).measureCount = s.measureCount ∧ (rateUp s).cycleCount = s.cycleCount ∧
    (rateUp s).resetRun = s.resetRun ∧ (rateUp s).E = s.E ∧ (rateUp s).prevS = s.prevS ∧
    (rateUp s).slots = s.slots ∧ (rateUp s).writeIndex = s.writeIndex ∧ (rateUp s).readIndex = s.readIndex ∧
    (rateUp s).nowView = s.nowView ∧ (rateUp s).wView = s.wView ∧ (rateUp s).rView = s.rView ∧
    (rateUp s).rbView = s.rbView ∧ (rateUp s).rbFlight = s.rbFlight ∧ (rateUp s).chip = s.chip ∧
    (rateUp s).det = s.det ∧ (rateUp s).rb = s.rb ∧
    (rateUp s).rc = { s.rc with rate := min (s.rc.rate + 1) s.params.rateMax } ∧ (rateUp s).out = s.out ∧
    (rateUp s).snap = s.snap ∧ (rateUp s).sinkAvailable = s.sinkAvailable ∧ (rateUp s).occIn = s.occIn ∧
    (rateUp s).exitCond = s.exitCond ∧ (rateUp s).script = s.script ∧ (rateUp s).sinkOut = s.sinkOut ∧
    (rateUp s).peeked = s.peeked ∧ (rateUp s).drained = s.drained ∧ (rateUp s).mixed = s.mixed ∧
    (rateUp s).synth = s.synth := by
  refine ⟨rfl, rfl, rfl, rfl, rfl, rfl, rfl, rfl, rfl, rfl, rfl, rfl, rfl, rfl, rfl, rfl, rfl, rfl, rfl, rfl, rfl, rfl, rfl, rfl, rfl, rfl, rfl, rfl, rfl, rfl, rfl, rfl, rfl, rfl⟩

/-- RATE.DOWN (R262). -/
@[simp] theorem rateDown_fields (s : State) :
    (rateDown s).params = s.params ∧ (rateDown s).cfg = s.cfg ∧ (rateDown s).clk = s.clk ∧
    (rateDown s).weights = s.weights ∧ (rateDown s).phase = s.phase ∧ (rateDown s).fault = s.fault ∧
    (rateDown s).measureCount = s.measureCount ∧ (rateDown s).cycleCount = s.cycleCount ∧
    (rateDown s).resetRun = s.resetRun ∧ (rateDown s).E = s.E ∧ (rateDown s).prevS = s.prevS ∧
    (rateDown s).slots = s.slots ∧ (rateDown s).writeIndex = s.writeIndex ∧ (rateDown s).readIndex = s.readIndex ∧
    (rateDown s).nowView = s.nowView ∧ (rateDown s).wView = s.wView ∧ (rateDown s).rView = s.rView ∧
    (rateDown s).rbView = s.rbView ∧ (rateDown s).rbFlight = s.rbFlight ∧ (rateDown s).chip = s.chip ∧
    (rateDown s).det = s.det ∧ (rateDown s).rb = s.rb ∧
    (rateDown s).rc = { s.rc with rate := max (s.rc.rate - 1) s.params.rateMin } ∧ (rateDown s).out = s.out ∧
    (rateDown s).snap = s.snap ∧ (rateDown s).sinkAvailable = s.sinkAvailable ∧ (rateDown s).occIn = s.occIn ∧
    (rateDown s).exitCond = s.exitCond ∧ (rateDown s).script = s.script ∧ (rateDown s).sinkOut = s.sinkOut ∧
    (rateDown s).peeked = s.peeked ∧ (rateDown s).drained = s.drained ∧ (rateDown s).mixed = s.mixed ∧
    (rateDown s).synth = s.synth := by
  refine ⟨rfl, rfl, rfl, rfl, rfl, rfl, rfl, rfl, rfl, rfl, rfl, rfl, rfl, rfl, rfl, rfl, rfl, rfl, rfl, rfl, rfl, rfl, rfl, rfl, rfl, rfl, rfl, rfl, rfl, rfl, rfl, rfl, rfl, rfl⟩

/-- RATE.HOLD (R263). -/
@[simp] theorem rateHold_fields (s : State) :
    (rateHold s).params = s.params ∧ (rateHold s).cfg = s.cfg ∧ (rateHold s).clk = s.clk ∧
    (rateHold s).weights = s.weights ∧ (rateHold s).phase = s.phase ∧ (rateHold s).fault = s.fault ∧
    (rateHold s).measureCount = s.measureCount ∧ (rateHold s).cycleCount = s.cycleCount ∧
    (rateHold s).resetRun = s.resetRun ∧ (rateHold s).E = s.E ∧ (rateHold s).prevS = s.prevS ∧
    (rateHold s).slots = s.slots ∧ (rateHold s).writeIndex = s.writeIndex ∧ (rateHold s).readIndex = s.readIndex ∧
    (rateHold s).nowView = s.nowView ∧ (rateHold s).wView = s.wView ∧ (rateHold s).rView = s.rView ∧
    (rateHold s).rbView = s.rbView ∧ (rateHold s).rbFlight = s.rbFlight ∧ (rateHold s).chip = s.chip ∧
    (rateHold s).det = s.det ∧ (rateHold s).rb = s.rb ∧ (rateHold s).rc = s.rc ∧ (rateHold s).out = s.out ∧
    (rateHold s).snap = s.snap ∧ (rateHold s).sinkAvailable = s.sinkAvailable ∧ (rateHold s).occIn = s.occIn ∧
    (rateHold s).exitCond = s.exitCond ∧ (rateHold s).script = s.script ∧ (rateHold s).sinkOut = s.sinkOut ∧
    (rateHold s).peeked = s.peeked ∧ (rateHold s).drained = s.drained ∧ (rateHold s).mixed = s.mixed ∧
    (rateHold s).synth = s.synth := by
  refine ⟨rfl, rfl, rfl, rfl, rfl, rfl, rfl, rfl, rfl, rfl, rfl, rfl, rfl, rfl, rfl, rfl, rfl, rfl, rfl, rfl, rfl, rfl, rfl, rfl, rfl, rfl, rfl, rfl, rfl, rfl, rfl, rfl, rfl, rfl⟩

/-- The decision of a window changes `rc` only (R259). -/
@[simp] theorem rateDecide_fields (avg : Nat) (s : State) :
    (rateDecide avg s).params = s.params ∧ (rateDecide avg s).cfg = s.cfg ∧ (rateDecide avg s).clk = s.clk ∧
    (rateDecide avg s).weights = s.weights ∧ (rateDecide avg s).phase = s.phase ∧
    (rateDecide avg s).fault = s.fault ∧ (rateDecide avg s).measureCount = s.measureCount ∧
    (rateDecide avg s).cycleCount = s.cycleCount ∧ (rateDecide avg s).resetRun = s.resetRun ∧
    (rateDecide avg s).E = s.E ∧ (rateDecide avg s).prevS = s.prevS ∧ (rateDecide avg s).slots = s.slots ∧
    (rateDecide avg s).writeIndex = s.writeIndex ∧ (rateDecide avg s).readIndex = s.readIndex ∧
    (rateDecide avg s).nowView = s.nowView ∧ (rateDecide avg s).wView = s.wView ∧
    (rateDecide avg s).rView = s.rView ∧ (rateDecide avg s).rbView = s.rbView ∧
    (rateDecide avg s).rbFlight = s.rbFlight ∧ (rateDecide avg s).chip = s.chip ∧ (rateDecide avg s).det = s.det ∧
    (rateDecide avg s).rb = s.rb ∧ (rateDecide avg s).out = s.out ∧ (rateDecide avg s).snap = s.snap ∧
    (rateDecide avg s).sinkAvailable = s.sinkAvailable ∧ (rateDecide avg s).occIn = s.occIn ∧
    (rateDecide avg s).exitCond = s.exitCond ∧ (rateDecide avg s).script = s.script ∧
    (rateDecide avg s).sinkOut = s.sinkOut ∧ (rateDecide avg s).peeked = s.peeked ∧
    (rateDecide avg s).drained = s.drained ∧ (rateDecide avg s).mixed = s.mixed ∧
    (rateDecide avg s).synth = s.synth := by
  unfold rateDecide; repeat' split
  all_goals simp

/-- The bookkeeping of a closing window (R259). -/
@[simp] theorem closeWindow_fields (s : State) :
    (closeWindow s).params = s.params ∧ (closeWindow s).cfg = s.cfg ∧ (closeWindow s).clk = s.clk ∧
    (closeWindow s).weights = s.weights ∧ (closeWindow s).phase = s.phase ∧ (closeWindow s).fault = s.fault ∧
    (closeWindow s).measureCount = s.measureCount ∧ (closeWindow s).cycleCount = s.cycleCount ∧
    (closeWindow s).resetRun = s.resetRun ∧ (closeWindow s).E = s.E ∧ (closeWindow s).prevS = s.prevS ∧
    (closeWindow s).slots = s.slots ∧ (closeWindow s).writeIndex = s.writeIndex ∧
    (closeWindow s).readIndex = s.readIndex ∧ (closeWindow s).nowView = s.nowView ∧
    (closeWindow s).wView = s.wView ∧ (closeWindow s).rView = s.rView ∧ (closeWindow s).rbView = s.rbView ∧
    (closeWindow s).rbFlight = s.rbFlight ∧ (closeWindow s).chip = s.chip ∧ (closeWindow s).det = s.det ∧
    (closeWindow s).rb = s.rb ∧
    (closeWindow s).rc = { s.rc with mc := min (s.rc.mc + 1) s.params.acqWindows, sum := 0, n := 0 } ∧
    (closeWindow s).out = s.out ∧ (closeWindow s).snap = s.snap ∧ (closeWindow s).sinkAvailable = s.sinkAvailable ∧
    (closeWindow s).occIn = s.occIn ∧ (closeWindow s).exitCond = s.exitCond ∧ (closeWindow s).script = s.script ∧
    (closeWindow s).sinkOut = s.sinkOut ∧ (closeWindow s).peeked = s.peeked ∧ (closeWindow s).drained = s.drained ∧
    (closeWindow s).mixed = s.mixed ∧ (closeWindow s).synth = s.synth := by
  refine ⟨rfl, rfl, rfl, rfl, rfl, rfl, rfl, rfl, rfl, rfl, rfl, rfl, rfl, rfl, rfl, rfl, rfl, rfl, rfl, rfl, rfl, rfl, rfl, rfl, rfl, rfl, rfl, rfl, rfl, rfl, rfl, rfl, rfl, rfl⟩

/-- RATE.WINDOW changes `rc` only (R259). -/
@[simp] theorem rateWindow_fields (s : State) :
    (rateWindow s).params = s.params ∧ (rateWindow s).cfg = s.cfg ∧ (rateWindow s).clk = s.clk ∧
    (rateWindow s).weights = s.weights ∧ (rateWindow s).phase = s.phase ∧ (rateWindow s).fault = s.fault ∧
    (rateWindow s).measureCount = s.measureCount ∧ (rateWindow s).cycleCount = s.cycleCount ∧
    (rateWindow s).resetRun = s.resetRun ∧ (rateWindow s).E = s.E ∧ (rateWindow s).prevS = s.prevS ∧
    (rateWindow s).slots = s.slots ∧ (rateWindow s).writeIndex = s.writeIndex ∧
    (rateWindow s).readIndex = s.readIndex ∧ (rateWindow s).nowView = s.nowView ∧ (rateWindow s).wView = s.wView ∧
    (rateWindow s).rView = s.rView ∧ (rateWindow s).rbView = s.rbView ∧ (rateWindow s).rbFlight = s.rbFlight ∧
    (rateWindow s).chip = s.chip ∧ (rateWindow s).det = s.det ∧ (rateWindow s).rb = s.rb ∧
    (rateWindow s).out = s.out ∧ (rateWindow s).snap = s.snap ∧ (rateWindow s).sinkAvailable = s.sinkAvailable ∧
    (rateWindow s).occIn = s.occIn ∧ (rateWindow s).exitCond = s.exitCond ∧ (rateWindow s).script = s.script ∧
    (rateWindow s).sinkOut = s.sinkOut ∧ (rateWindow s).peeked = s.peeked ∧ (rateWindow s).drained = s.drained ∧
    (rateWindow s).mixed = s.mixed ∧ (rateWindow s).synth = s.synth := by
  simp [rateWindow]

/-- The counting part of RATE.ACCUM (R258). -/
@[simp] theorem countSample_fields (occ : Nat) (s : State) :
    (countSample occ s).params = s.params ∧ (countSample occ s).cfg = s.cfg ∧ (countSample occ s).clk = s.clk ∧
    (countSample occ s).weights = s.weights ∧ (countSample occ s).phase = s.phase ∧
    (countSample occ s).fault = s.fault ∧ (countSample occ s).measureCount = s.measureCount ∧
    (countSample occ s).cycleCount = s.cycleCount ∧ (countSample occ s).resetRun = s.resetRun ∧
    (countSample occ s).E = s.E ∧ (countSample occ s).prevS = s.prevS ∧ (countSample occ s).slots = s.slots ∧
    (countSample occ s).writeIndex = s.writeIndex ∧ (countSample occ s).readIndex = s.readIndex ∧
    (countSample occ s).nowView = s.nowView ∧ (countSample occ s).wView = s.wView ∧
    (countSample occ s).rView = s.rView ∧ (countSample occ s).rbView = s.rbView ∧
    (countSample occ s).rbFlight = s.rbFlight ∧ (countSample occ s).chip = s.chip ∧
    (countSample occ s).det = s.det ∧ (countSample occ s).rb = s.rb ∧
    (countSample occ s).rc = { s.rc with sum := s.rc.sum + occ, n := s.rc.n + 1 } ∧
    (countSample occ s).out = s.out ∧ (countSample occ s).snap = s.snap ∧
    (countSample occ s).sinkAvailable = s.sinkAvailable ∧ (countSample occ s).occIn = s.occIn ∧
    (countSample occ s).exitCond = s.exitCond ∧ (countSample occ s).script = s.script ∧
    (countSample occ s).sinkOut = s.sinkOut ∧ (countSample occ s).peeked = s.peeked ∧
    (countSample occ s).drained = s.drained ∧ (countSample occ s).mixed = s.mixed ∧
    (countSample occ s).synth = s.synth := by
  refine ⟨rfl, rfl, rfl, rfl, rfl, rfl, rfl, rfl, rfl, rfl, rfl, rfl, rfl, rfl, rfl, rfl, rfl, rfl, rfl, rfl, rfl, rfl, rfl, rfl, rfl, rfl, rfl, rfl, rfl, rfl, rfl, rfl, rfl, rfl⟩

/-- RATE.ACCUM changes `rc` only (R258). -/
@[simp] theorem rateAccum_fields (occ : Nat) (s : State) :
    (rateAccum occ s).params = s.params ∧ (rateAccum occ s).cfg = s.cfg ∧ (rateAccum occ s).clk = s.clk ∧
    (rateAccum occ s).weights = s.weights ∧ (rateAccum occ s).phase = s.phase ∧ (rateAccum occ s).fault = s.fault ∧
    (rateAccum occ s).measureCount = s.measureCount ∧ (rateAccum occ s).cycleCount = s.cycleCount ∧
    (rateAccum occ s).resetRun = s.resetRun ∧ (rateAccum occ s).E = s.E ∧ (rateAccum occ s).prevS = s.prevS ∧
    (rateAccum occ s).slots = s.slots ∧ (rateAccum occ s).writeIndex = s.writeIndex ∧
    (rateAccum occ s).readIndex = s.readIndex ∧ (rateAccum occ s).nowView = s.nowView ∧
    (rateAccum occ s).wView = s.wView ∧ (rateAccum occ s).rView = s.rView ∧ (rateAccum occ s).rbView = s.rbView ∧
    (rateAccum occ s).rbFlight = s.rbFlight ∧ (rateAccum occ s).chip = s.chip ∧ (rateAccum occ s).det = s.det ∧
    (rateAccum occ s).rb = s.rb ∧ (rateAccum occ s).out = s.out ∧ (rateAccum occ s).snap = s.snap ∧
    (rateAccum occ s).sinkAvailable = s.sinkAvailable ∧ (rateAccum occ s).occIn = s.occIn ∧
    (rateAccum occ s).exitCond = s.exitCond ∧ (rateAccum occ s).script = s.script ∧
    (rateAccum occ s).sinkOut = s.sinkOut ∧ (rateAccum occ s).peeked = s.peeked ∧
    (rateAccum occ s).drained = s.drained ∧ (rateAccum occ s).mixed = s.mixed ∧ (rateAccum occ s).synth = s.synth := by
  unfold rateAccum; split <;> simp

/-- EN.SAMPLE changes `mixed`, `rc`, what the sink was given and the synthetic sink only (R217). -/
@[simp] theorem takeSample_fields (s : State) :
    (takeSample s).params = s.params ∧ (takeSample s).cfg = s.cfg ∧ (takeSample s).clk = s.clk ∧
    (takeSample s).weights = s.weights ∧ (takeSample s).phase = s.phase ∧ (takeSample s).fault = s.fault ∧
    (takeSample s).measureCount = s.measureCount ∧ (takeSample s).cycleCount = s.cycleCount ∧
    (takeSample s).resetRun = s.resetRun ∧ (takeSample s).E = s.E ∧ (takeSample s).prevS = s.prevS ∧
    (takeSample s).slots = s.slots ∧ (takeSample s).writeIndex = s.writeIndex ∧
    (takeSample s).readIndex = s.readIndex ∧ (takeSample s).nowView = s.nowView ∧ (takeSample s).wView = s.wView ∧
    (takeSample s).rView = s.rView ∧ (takeSample s).rbView = s.rbView ∧ (takeSample s).rbFlight = s.rbFlight ∧
    (takeSample s).chip = s.chip ∧ (takeSample s).det = s.det ∧ (takeSample s).rb = s.rb ∧
    (takeSample s).out = s.out ∧ (takeSample s).snap = s.snap ∧ (takeSample s).sinkAvailable = s.sinkAvailable ∧
    (takeSample s).occIn = s.occIn ∧ (takeSample s).exitCond = s.exitCond ∧ (takeSample s).script = s.script ∧
    (takeSample s).peeked = s.peeked ∧ (takeSample s).drained = s.drained ∧
    (takeSample s).mixed = mixPair s (chipOutputs s) := by
  simp only [takeSample]; split <;> simp

/-- The clocking of EN.STEP (R214). -/
@[simp] theorem clockChips_fields (k : Nat) (s : State) :
    (clockChips k s).params = s.params ∧ (clockChips k s).cfg = s.cfg ∧ (clockChips k s).clk = s.clk ∧
    (clockChips k s).weights = s.weights ∧ (clockChips k s).phase = s.phase ∧ (clockChips k s).fault = s.fault ∧
    (clockChips k s).measureCount = s.measureCount ∧ (clockChips k s).cycleCount = s.cycleCount ∧
    (clockChips k s).resetRun = s.resetRun ∧ (clockChips k s).E = s.E + k ∧ (clockChips k s).prevS = s.prevS ∧
    (clockChips k s).slots = s.slots ∧ (clockChips k s).writeIndex = s.writeIndex ∧
    (clockChips k s).readIndex = s.readIndex ∧ (clockChips k s).nowView = s.nowView ∧
    (clockChips k s).wView = s.wView ∧ (clockChips k s).rView = s.rView ∧ (clockChips k s).rbView = s.rbView ∧
    (clockChips k s).rbFlight = s.rbFlight ∧
    (clockChips k s).chip = onActive s.cfg s.chip ⟨clockChip k s.chip.sid1, clockChip k s.chip.sid2, clockChip k s.chip.fm⟩ ∧
    (clockChips k s).det = s.det ∧ (clockChips k s).rb = s.rb ∧ (clockChips k s).rc = s.rc ∧
    (clockChips k s).out = s.out ∧ (clockChips k s).snap = s.snap ∧
    (clockChips k s).sinkAvailable = s.sinkAvailable ∧ (clockChips k s).occIn = s.occIn ∧
    (clockChips k s).exitCond = s.exitCond ∧ (clockChips k s).script = s.script ∧
    (clockChips k s).sinkOut = s.sinkOut ∧ (clockChips k s).peeked = s.peeked ∧
    (clockChips k s).drained = s.drained ∧ (clockChips k s).mixed = s.mixed ∧ (clockChips k s).synth = s.synth := by
  refine ⟨rfl, rfl, rfl, rfl, rfl, rfl, rfl, rfl, rfl, rfl, rfl, rfl, rfl, rfl, rfl, rfl, rfl, rfl, rfl, rfl, rfl, rfl, rfl, rfl, rfl, rfl, rfl, rfl, rfl, rfl, rfl, rfl, rfl, rfl⟩

/-- The sample check (R216). -/
@[simp] theorem sampleCheck_fields (s : State) :
    (sampleCheck s).params = s.params ∧ (sampleCheck s).cfg = s.cfg ∧ (sampleCheck s).clk = s.clk ∧
    (sampleCheck s).weights = s.weights ∧ (sampleCheck s).phase = s.phase ∧ (sampleCheck s).fault = s.fault ∧
    (sampleCheck s).measureCount = s.measureCount ∧ (sampleCheck s).cycleCount = s.cycleCount ∧
    (sampleCheck s).resetRun = s.resetRun ∧ (sampleCheck s).E = s.E ∧ (sampleCheck s).prevS = sampleIndexAt s s.E ∧
    (sampleCheck s).slots = s.slots ∧ (sampleCheck s).writeIndex = s.writeIndex ∧
    (sampleCheck s).readIndex = s.readIndex ∧ (sampleCheck s).nowView = s.nowView ∧
    (sampleCheck s).wView = s.wView ∧ (sampleCheck s).rView = s.rView ∧ (sampleCheck s).rbView = s.rbView ∧
    (sampleCheck s).rbFlight = s.rbFlight ∧ (sampleCheck s).chip = s.chip ∧ (sampleCheck s).det = s.det ∧
    (sampleCheck s).rb = s.rb ∧ (sampleCheck s).out = s.out ∧ (sampleCheck s).snap = s.snap ∧
    (sampleCheck s).sinkAvailable = s.sinkAvailable ∧ (sampleCheck s).occIn = s.occIn ∧
    (sampleCheck s).exitCond = s.exitCond ∧ (sampleCheck s).script = s.script ∧ (sampleCheck s).peeked = s.peeked ∧
    (sampleCheck s).drained = s.drained := by
  unfold sampleCheck; split <;> simp_all

/-- EN.APPLY (R212). -/
@[simp] theorem applyHead_fields (s : State) :
    (applyHead s).params = s.params ∧ (applyHead s).cfg = s.cfg ∧ (applyHead s).clk = s.clk ∧
    (applyHead s).weights = s.weights ∧ (applyHead s).phase = s.phase ∧ (applyHead s).fault = s.fault ∧
    (applyHead s).measureCount = s.measureCount ∧ (applyHead s).cycleCount = s.cycleCount ∧
    (applyHead s).resetRun = s.resetRun ∧ (applyHead s).E = s.E ∧ (applyHead s).prevS = s.prevS ∧
    (applyHead s).slots = s.slots ∧ (applyHead s).writeIndex = s.writeIndex ∧
    (applyHead s).readIndex = s.readIndex + 1 ∧ (applyHead s).nowView = s.nowView ∧ (applyHead s).wView = s.wView ∧
    (applyHead s).rView = s.rView ∧ (applyHead s).rbView = s.rbView ∧ (applyHead s).rbFlight = s.rbFlight ∧
    (applyHead s).chip = s.chip.set (headEvent s).chip { s.chip.get (headEvent s).chip with core := chipWrite (s.chip.get (headEvent s).chip).core (headEvent s).reg (headEvent s).val } ∧
    (applyHead s).det = s.det ∧ (applyHead s).rc = s.rc ∧ (applyHead s).out = s.out ∧ (applyHead s).snap = s.snap ∧
    (applyHead s).sinkAvailable = s.sinkAvailable ∧ (applyHead s).occIn = s.occIn ∧
    (applyHead s).exitCond = s.exitCond ∧ (applyHead s).script = s.script ∧ (applyHead s).sinkOut = s.sinkOut ∧
    (applyHead s).peeked = s.peeked ∧ (applyHead s).drained = s.drained ∧ (applyHead s).mixed = s.mixed ∧
    (applyHead s).synth = s.synth := by
  refine ⟨rfl, rfl, rfl, rfl, rfl, rfl, rfl, rfl, rfl, rfl, rfl, rfl, rfl, rfl, rfl, rfl, rfl, rfl, rfl, rfl, rfl, rfl, rfl, rfl, rfl, rfl, rfl, rfl, rfl, rfl, rfl, rfl, rfl⟩

/-- A turn is used up (log 9). -/
@[simp] theorem takeTurn_fields (rest : List Turn) (s : State) :
    (takeTurn rest s).params = s.params ∧ (takeTurn rest s).cfg = s.cfg ∧ (takeTurn rest s).clk = s.clk ∧
    (takeTurn rest s).weights = s.weights ∧ (takeTurn rest s).phase = s.phase ∧ (takeTurn rest s).fault = s.fault ∧
    (takeTurn rest s).measureCount = s.measureCount ∧ (takeTurn rest s).cycleCount = s.cycleCount ∧
    (takeTurn rest s).resetRun = s.resetRun ∧ (takeTurn rest s).E = s.E ∧ (takeTurn rest s).prevS = s.prevS ∧
    (takeTurn rest s).slots = s.slots ∧ (takeTurn rest s).writeIndex = s.writeIndex ∧
    (takeTurn rest s).readIndex = s.readIndex ∧ (takeTurn rest s).nowView = s.nowView ∧
    (takeTurn rest s).wView = s.wView ∧ (takeTurn rest s).rView = s.rView ∧ (takeTurn rest s).rbView = s.rbView ∧
    (takeTurn rest s).rbFlight = s.rbFlight ∧ (takeTurn rest s).chip = s.chip ∧ (takeTurn rest s).det = s.det ∧
    (takeTurn rest s).rb = s.rb ∧ (takeTurn rest s).rc = s.rc ∧ (takeTurn rest s).out = s.out ∧
    (takeTurn rest s).snap = s.snap ∧ (takeTurn rest s).sinkAvailable = s.sinkAvailable ∧
    (takeTurn rest s).occIn = s.occIn ∧ (takeTurn rest s).exitCond = s.exitCond ∧ (takeTurn rest s).script = rest ∧
    (takeTurn rest s).sinkOut = s.sinkOut ∧ (takeTurn rest s).peeked = s.peeked ∧
    (takeTurn rest s).drained = s.drained ∧ (takeTurn rest s).mixed = s.mixed ∧ (takeTurn rest s).synth = s.synth := by
  refine ⟨rfl, rfl, rfl, rfl, rfl, rfl, rfl, rfl, rfl, rfl, rfl, rfl, rfl, rfl, rfl, rfl, rfl, rfl, rfl, rfl, rfl, rfl, rfl, rfl, rfl, rfl, rfl, rfl, rfl, rfl, rfl, rfl, rfl, rfl⟩

/-- BD's views brought up to date (R100). -/
@[simp] theorem refreshBus_fields (s : State) :
    (refreshBus s).params = s.params ∧ (refreshBus s).cfg = s.cfg ∧ (refreshBus s).clk = s.clk ∧
    (refreshBus s).weights = s.weights ∧ (refreshBus s).phase = s.phase ∧ (refreshBus s).fault = s.fault ∧
    (refreshBus s).measureCount = s.measureCount ∧ (refreshBus s).cycleCount = s.cycleCount ∧
    (refreshBus s).resetRun = s.resetRun ∧ (refreshBus s).E = s.E ∧ (refreshBus s).prevS = s.prevS ∧
    (refreshBus s).slots = s.slots ∧ (refreshBus s).writeIndex = s.writeIndex ∧
    (refreshBus s).readIndex = s.readIndex ∧ (refreshBus s).nowView = s.nowView ∧ (refreshBus s).wView = s.wView ∧
    (refreshBus s).rView = s.readIndex ∧ (refreshBus s).rbView = s.rb ∧ (refreshBus s).rbFlight = [] ∧
    (refreshBus s).chip = s.chip ∧ (refreshBus s).det = s.det ∧ (refreshBus s).rb = s.rb ∧
    (refreshBus s).rc = s.rc ∧ (refreshBus s).out = s.out ∧ (refreshBus s).snap = s.snap ∧
    (refreshBus s).sinkAvailable = s.sinkAvailable ∧ (refreshBus s).occIn = s.occIn ∧
    (refreshBus s).exitCond = s.exitCond ∧ (refreshBus s).script = s.script ∧ (refreshBus s).sinkOut = s.sinkOut ∧
    (refreshBus s).peeked = s.peeked ∧ (refreshBus s).drained = s.drained ∧ (refreshBus s).mixed = s.mixed ∧
    (refreshBus s).synth = s.synth := by
  refine ⟨rfl, rfl, rfl, rfl, rfl, rfl, rfl, rfl, rfl, rfl, rfl, rfl, rfl, rfl, rfl, rfl, rfl, rfl, rfl, rfl, rfl, rfl, rfl, rfl, rfl, rfl, rfl, rfl, rfl, rfl, rfl, rfl, rfl, rfl⟩

/-- EN's views brought up to date (R100, R102). -/
@[simp] theorem refreshEngine_fields (s : State) :
    (refreshEngine s).params = s.params ∧ (refreshEngine s).cfg = s.cfg ∧ (refreshEngine s).clk = s.clk ∧
    (refreshEngine s).weights = s.weights ∧ (refreshEngine s).phase = s.phase ∧ (refreshEngine s).fault = s.fault ∧
    (refreshEngine s).measureCount = s.measureCount ∧ (refreshEngine s).cycleCount = s.cycleCount ∧
    (refreshEngine s).resetRun = s.resetRun ∧ (refreshEngine s).E = s.E ∧ (refreshEngine s).prevS = s.prevS ∧
    (refreshEngine s).slots = s.slots ∧ (refreshEngine s).writeIndex = s.writeIndex ∧
    (refreshEngine s).readIndex = s.readIndex ∧ (refreshEngine s).nowView = s.cycleCount ∧
    (refreshEngine s).wView = s.writeIndex ∧ (refreshEngine s).rView = s.rView ∧
    (refreshEngine s).rbView = s.rbView ∧ (refreshEngine s).rbFlight = s.rbFlight ∧
    (refreshEngine s).chip = s.chip ∧ (refreshEngine s).det = s.det ∧ (refreshEngine s).rb = s.rb ∧
    (refreshEngine s).rc = s.rc ∧ (refreshEngine s).out = s.out ∧ (refreshEngine s).snap = s.snap ∧
    (refreshEngine s).sinkAvailable = s.sinkAvailable ∧ (refreshEngine s).occIn = s.occIn ∧
    (refreshEngine s).exitCond = s.exitCond ∧ (refreshEngine s).script = s.script ∧
    (refreshEngine s).sinkOut = s.sinkOut ∧ (refreshEngine s).peeked = s.peeked ∧
    (refreshEngine s).drained = s.drained ∧ (refreshEngine s).mixed = s.mixed ∧ (refreshEngine s).synth = s.synth := by
  refine ⟨rfl, rfl, rfl, rfl, rfl, rfl, rfl, rfl, rfl, rfl, rfl, rfl, rfl, rfl, rfl, rfl, rfl, rfl, rfl, rfl, rfl, rfl, rfl, rfl, rfl, rfl, rfl, rfl, rfl, rfl, rfl, rfl, rfl, rfl⟩

/-- EN's reading of cycleCount and then writeIndex (R100, R102). -/
@[simp] theorem seeCycles_fields (c : Nat) (w : Nat) (s : State) :
    (seeCycles c w s).params = s.params ∧ (seeCycles c w s).cfg = s.cfg ∧ (seeCycles c w s).clk = s.clk ∧
    (seeCycles c w s).weights = s.weights ∧ (seeCycles c w s).phase = s.phase ∧ (seeCycles c w s).fault = s.fault ∧
    (seeCycles c w s).measureCount = s.measureCount ∧ (seeCycles c w s).cycleCount = s.cycleCount ∧
    (seeCycles c w s).resetRun = s.resetRun ∧ (seeCycles c w s).E = s.E ∧ (seeCycles c w s).prevS = s.prevS ∧
    (seeCycles c w s).slots = s.slots ∧ (seeCycles c w s).writeIndex = s.writeIndex ∧
    (seeCycles c w s).readIndex = s.readIndex ∧ (seeCycles c w s).nowView = readBetween s.nowView s.cycleCount c ∧
    (seeCycles c w s).rView = s.rView ∧ (seeCycles c w s).rbView = s.rbView ∧
    (seeCycles c w s).rbFlight = s.rbFlight ∧ (seeCycles c w s).chip = s.chip ∧ (seeCycles c w s).det = s.det ∧
    (seeCycles c w s).rb = s.rb ∧ (seeCycles c w s).rc = s.rc ∧ (seeCycles c w s).out = s.out ∧
    (seeCycles c w s).snap = s.snap ∧ (seeCycles c w s).sinkAvailable = s.sinkAvailable ∧
    (seeCycles c w s).occIn = s.occIn ∧ (seeCycles c w s).exitCond = s.exitCond ∧
    (seeCycles c w s).script = s.script ∧ (seeCycles c w s).sinkOut = s.sinkOut ∧
    (seeCycles c w s).peeked = s.peeked ∧ (seeCycles c w s).drained = s.drained ∧
    (seeCycles c w s).mixed = s.mixed ∧ (seeCycles c w s).synth = s.synth := by
  refine ⟨rfl, rfl, rfl, rfl, rfl, rfl, rfl, rfl, rfl, rfl, rfl, rfl, rfl, rfl, rfl, rfl, rfl, rfl, rfl, rfl, rfl, rfl, rfl, rfl, rfl, rfl, rfl, rfl, rfl, rfl, rfl, rfl, rfl⟩

/-- An image sets out for BD (R100). -/
@[simp] theorem captureImage_fields (s : State) :
    (captureImage s).params = s.params ∧ (captureImage s).cfg = s.cfg ∧ (captureImage s).clk = s.clk ∧
    (captureImage s).weights = s.weights ∧ (captureImage s).phase = s.phase ∧ (captureImage s).fault = s.fault ∧
    (captureImage s).measureCount = s.measureCount ∧ (captureImage s).cycleCount = s.cycleCount ∧
    (captureImage s).resetRun = s.resetRun ∧ (captureImage s).E = s.E ∧ (captureImage s).prevS = s.prevS ∧
    (captureImage s).slots = s.slots ∧ (captureImage s).writeIndex = s.writeIndex ∧
    (captureImage s).readIndex = s.readIndex ∧ (captureImage s).nowView = s.nowView ∧
    (captureImage s).wView = s.wView ∧ (captureImage s).rView = s.rView ∧ (captureImage s).rbView = s.rbView ∧
    (captureImage s).rbFlight = s.rbFlight ++ [s.rb] ∧ (captureImage s).chip = s.chip ∧
    (captureImage s).det = s.det ∧ (captureImage s).rb = s.rb ∧ (captureImage s).rc = s.rc ∧
    (captureImage s).out = s.out ∧ (captureImage s).snap = s.snap ∧
    (captureImage s).sinkAvailable = s.sinkAvailable ∧ (captureImage s).occIn = s.occIn ∧
    (captureImage s).exitCond = s.exitCond ∧ (captureImage s).script = s.script ∧
    (captureImage s).sinkOut = s.sinkOut ∧ (captureImage s).peeked = s.peeked ∧
    (captureImage s).drained = s.drained ∧ (captureImage s).mixed = s.mixed ∧ (captureImage s).synth = s.synth := by
  refine ⟨rfl, rfl, rfl, rfl, rfl, rfl, rfl, rfl, rfl, rfl, rfl, rfl, rfl, rfl, rfl, rfl, rfl, rfl, rfl, rfl, rfl, rfl, rfl, rfl, rfl, rfl, rfl, rfl, rfl, rfl, rfl, rfl, rfl, rfl⟩

/-- An image reaches BD: its view and the images on their way change only (R100). -/
@[simp] theorem deliverImage_fields (s : State) :
    (deliverImage s).params = s.params ∧ (deliverImage s).cfg = s.cfg ∧ (deliverImage s).clk = s.clk ∧
    (deliverImage s).weights = s.weights ∧ (deliverImage s).phase = s.phase ∧ (deliverImage s).fault = s.fault ∧
    (deliverImage s).measureCount = s.measureCount ∧ (deliverImage s).cycleCount = s.cycleCount ∧
    (deliverImage s).resetRun = s.resetRun ∧ (deliverImage s).E = s.E ∧ (deliverImage s).prevS = s.prevS ∧
    (deliverImage s).slots = s.slots ∧ (deliverImage s).writeIndex = s.writeIndex ∧
    (deliverImage s).readIndex = s.readIndex ∧ (deliverImage s).nowView = s.nowView ∧
    (deliverImage s).wView = s.wView ∧ (deliverImage s).rView = s.rView ∧ (deliverImage s).chip = s.chip ∧
    (deliverImage s).det = s.det ∧ (deliverImage s).rb = s.rb ∧ (deliverImage s).rc = s.rc ∧
    (deliverImage s).out = s.out ∧ (deliverImage s).snap = s.snap ∧
    (deliverImage s).sinkAvailable = s.sinkAvailable ∧ (deliverImage s).occIn = s.occIn ∧
    (deliverImage s).exitCond = s.exitCond ∧ (deliverImage s).script = s.script ∧
    (deliverImage s).sinkOut = s.sinkOut ∧ (deliverImage s).peeked = s.peeked ∧
    (deliverImage s).drained = s.drained ∧ (deliverImage s).mixed = s.mixed ∧ (deliverImage s).synth = s.synth := by
  unfold deliverImage; split <;> simp

/-- The first half of SESSION.START (R341). -/
@[simp] theorem openSession_fields (config : SessionConfig) (s : State) :
    (openSession config s).params = s.params ∧ (openSession config s).cfg = config ∧
    (openSession config s).clk = s.clk ∧ (openSession config s).weights = sessionWeights s.params config ∧
    (openSession config s).phase = .measuring ∧ (openSession config s).fault = s.fault ∧
    (openSession config s).measureCount = 0 ∧ (openSession config s).cycleCount = s.cycleCount ∧
    (openSession config s).resetRun = s.resetRun ∧ (openSession config s).E = s.E ∧
    (openSession config s).prevS = s.prevS ∧ (openSession config s).slots = s.slots ∧
    (openSession config s).writeIndex = s.writeIndex ∧ (openSession config s).readIndex = s.readIndex ∧
    (openSession config s).nowView = s.nowView ∧ (openSession config s).wView = s.wView ∧
    (openSession config s).rView = s.rView ∧ (openSession config s).rbView = s.rbView ∧
    (openSession config s).rbFlight = s.rbFlight ∧ (openSession config s).chip = s.chip ∧
    (openSession config s).det = s.det ∧ (openSession config s).rb = s.rb ∧ (openSession config s).rc = s.rc ∧
    (openSession config s).out = s.out ∧ (openSession config s).snap = s.snap ∧
    (openSession config s).sinkAvailable = s.sinkAvailable ∧ (openSession config s).occIn = s.occIn ∧
    (openSession config s).exitCond = s.exitCond ∧ (openSession config s).script = s.script ∧
    (openSession config s).sinkOut = s.sinkOut ∧ (openSession config s).peeked = s.peeked ∧
    (openSession config s).drained = s.drained ∧ (openSession config s).mixed = s.mixed ∧
    (openSession config s).synth = s.synth := by
  refine ⟨rfl, rfl, rfl, rfl, rfl, rfl, rfl, rfl, rfl, rfl, rfl, rfl, rfl, rfl, rfl, rfl, rfl, rfl, rfl, rfl, rfl, rfl, rfl, rfl, rfl, rfl, rfl, rfl, rfl, rfl, rfl, rfl, rfl, rfl⟩

/-- The second half of SESSION.START (R341, R60). -/
@[simp] theorem runSession_fields (clk : Nat) (s : State) :
    (runSession clk s).params = s.params ∧ (runSession clk s).cfg = s.cfg ∧ (runSession clk s).clk = clk ∧
    (runSession clk s).weights = s.weights ∧ (runSession clk s).phase = .running ∧
    (runSession clk s).fault = none ∧ (runSession clk s).measureCount = s.measureCount ∧
    (runSession clk s).cycleCount = 0 ∧ (runSession clk s).resetRun = 0 ∧ (runSession clk s).E = 0 ∧
    (runSession clk s).prevS = 0 ∧ (runSession clk s).slots = s.slots ∧ (runSession clk s).writeIndex = 0 ∧
    (runSession clk s).readIndex = 0 ∧ (runSession clk s).nowView = 0 ∧ (runSession clk s).wView = 0 ∧
    (runSession clk s).rView = 0 ∧
    (runSession clk s).rbView = onActive s.cfg s.rb (images s.params (onActive s.cfg s.chip (freshChips s.params s.cfg))) ∧
    (runSession clk s).rbFlight = [] ∧
    (runSession clk s).chip = onActive s.cfg s.chip (freshChips s.params s.cfg) ∧
    (runSession clk s).det = onActiveSynth s.cfg s.det freshDet ∧
    (runSession clk s).rb = onActive s.cfg s.rb (images s.params (onActive s.cfg s.chip (freshChips s.params s.cfg))) ∧
    (runSession clk s).rc = freshRate s.params ∧ (runSession clk s).out = ⟨none, false⟩ ∧
    (runSession clk s).snap = s.snap ∧ (runSession clk s).sinkAvailable = s.sinkAvailable ∧
    (runSession clk s).occIn = s.occIn ∧ (runSession clk s).exitCond = s.exitCond ∧
    (runSession clk s).script = s.script ∧ (runSession clk s).sinkOut = s.sinkOut ∧
    (runSession clk s).peeked = s.peeked ∧ (runSession clk s).drained = s.drained ∧
    (runSession clk s).mixed = s.mixed ∧ (runSession clk s).synth = s.synth := by
  refine ⟨rfl, rfl, rfl, rfl, rfl, rfl, rfl, rfl, rfl, rfl, rfl, rfl, rfl, rfl, rfl, rfl, rfl, rfl, rfl, rfl, rfl, rfl, rfl, rfl, rfl, rfl, rfl, rfl, rfl, rfl, rfl, rfl, rfl, rfl⟩

/-- The sampling of the lines (R120, R150). -/
@[simp] theorem latchStrobe_fields (sn : Snap) (fresh : Bool) (s : State) :
    (latchStrobe sn fresh s).params = s.params ∧ (latchStrobe sn fresh s).cfg = s.cfg ∧
    (latchStrobe sn fresh s).clk = s.clk ∧ (latchStrobe sn fresh s).weights = s.weights ∧
    (latchStrobe sn fresh s).phase = s.phase ∧ (latchStrobe sn fresh s).fault = s.fault ∧
    (latchStrobe sn fresh s).measureCount = s.measureCount ∧ (latchStrobe sn fresh s).cycleCount = s.cycleCount ∧
    (latchStrobe sn fresh s).resetRun = s.resetRun ∧ (latchStrobe sn fresh s).E = s.E ∧
    (latchStrobe sn fresh s).prevS = s.prevS ∧ (latchStrobe sn fresh s).slots = s.slots ∧
    (latchStrobe sn fresh s).writeIndex = s.writeIndex ∧ (latchStrobe sn fresh s).readIndex = s.readIndex ∧
    (latchStrobe sn fresh s).nowView = s.nowView ∧ (latchStrobe sn fresh s).wView = s.wView ∧
    (latchStrobe sn fresh s).rView = (if fresh then s.readIndex else s.rView) ∧
    (latchStrobe sn fresh s).rbView = (if fresh then s.rb else s.rbView) ∧
    (latchStrobe sn fresh s).rbFlight = (if fresh then [] else s.rbFlight) ∧
    (latchStrobe sn fresh s).chip = s.chip ∧ (latchStrobe sn fresh s).det = s.det ∧
    (latchStrobe sn fresh s).rb = s.rb ∧ (latchStrobe sn fresh s).rc = s.rc ∧
    (latchStrobe sn fresh s).out = s.out ∧ (latchStrobe sn fresh s).snap = sn.onLines s.params ∧
    (latchStrobe sn fresh s).sinkAvailable = s.sinkAvailable ∧ (latchStrobe sn fresh s).occIn = s.occIn ∧
    (latchStrobe sn fresh s).exitCond = s.exitCond ∧ (latchStrobe sn fresh s).script = s.script ∧
    (latchStrobe sn fresh s).sinkOut = s.sinkOut ∧ (latchStrobe sn fresh s).peeked = s.peeked ∧
    (latchStrobe sn fresh s).drained = s.drained ∧ (latchStrobe sn fresh s).mixed = s.mixed ∧
    (latchStrobe sn fresh s).synth = (if s.phase = .running then s.synth.map (tickSink s.clk) else s.synth) := by
  cases fresh <;> simp [latchStrobe]

/-- The engine's inputs (R319, R100). -/
@[simp] theorem latchEngine_fields (inp : EngineInput) (s : State) :
    (latchEngine inp s).params = s.params ∧ (latchEngine inp s).cfg = s.cfg ∧ (latchEngine inp s).clk = s.clk ∧
    (latchEngine inp s).weights = s.weights ∧ (latchEngine inp s).phase = s.phase ∧
    (latchEngine inp s).fault = s.fault ∧ (latchEngine inp s).measureCount = s.measureCount ∧
    (latchEngine inp s).cycleCount = s.cycleCount ∧ (latchEngine inp s).resetRun = s.resetRun ∧
    (latchEngine inp s).E = s.E ∧ (latchEngine inp s).prevS = s.prevS ∧ (latchEngine inp s).slots = s.slots ∧
    (latchEngine inp s).writeIndex = s.writeIndex ∧ (latchEngine inp s).readIndex = s.readIndex ∧
    (latchEngine inp s).nowView = (if inp.fresh then s.cycleCount else s.nowView) ∧
    (latchEngine inp s).wView = (if inp.fresh then s.writeIndex else s.wView) ∧
    (latchEngine inp s).rView = s.rView ∧ (latchEngine inp s).rbView = s.rbView ∧
    (latchEngine inp s).rbFlight = s.rbFlight ∧ (latchEngine inp s).chip = s.chip ∧
    (latchEngine inp s).det = s.det ∧ (latchEngine inp s).rb = s.rb ∧ (latchEngine inp s).rc = s.rc ∧
    (latchEngine inp s).out = s.out ∧ (latchEngine inp s).snap = s.snap ∧
    (latchEngine inp s).sinkAvailable = inp.sink ∧ (latchEngine inp s).occIn = inp.occ ∧
    (latchEngine inp s).exitCond = keepExit s.exitCond inp.exit ∧ (latchEngine inp s).script = s.script ∧
    (latchEngine inp s).sinkOut = s.sinkOut ∧ (latchEngine inp s).peeked = s.peeked ∧
    (latchEngine inp s).drained = s.drained ∧ (latchEngine inp s).mixed = s.mixed ∧
    (latchEngine inp s).synth = s.synth := by
  simp only [latchEngine]; split <;> simp_all

end Sys2Proof.Machine
end

