-- ==== Sys2Proof/Laws/Ops.lean ====
section
/-! SUPPORT. What each shared operation can do, said once: later proofs cite these instead of unfolding the operations. -/

namespace Sys2Proof.Machine

/-- An operation answers a next state exactly when the machine is faultless, in the phase, and its guard holds. -/
@[simp] theorem perform_next {ph : Phase} {s t u : State} {name : String} {sel : Bool} :
    perform ph s name sel t = .next u ↔ s.fault = none ∧ s.phase = ph ∧ sel = true ∧ t = u := by
  unfold perform
  cases hf : s.fault with
  | some f => simp
  | none => by_cases hp : s.phase = ph <;> cases sel <;> simp [hp]

/-- With a fault no operation has a step (R300). -/
theorem perform_fault {ph : Phase} {s t : State} {name : String} {sel : Bool} {f : FatalReason}
    (h : s.fault = some f) : perform ph s name sel t = .fault (.fatal f) := by
  simp [perform, h]

/-- raise Fatal on a faultless state (R300). -/
theorem raiseFatal_of_none {f : FatalReason} {s : State} (h : s.fault = none) :
    raiseFatal f s = { s with fault := some f } := by simp [raiseFatal, h]

/-- Everything Q.ENQUEUE can do (R180, R181). -/
theorem enqueue_cases (ev : BusEvent) (s : State) :
    (s.params.qcap ≤ s.writeIndex - s.rView ∧ enqueue ev s = raiseFatal .queueOverflow s) ∨
    (s.writeIndex - s.rView < s.params.qcap ∧
      enqueue ev s =
        { s with
          slots := Slots.set s.slots (slotNumber s.params.qcap s.writeIndex) ev
          writeIndex := s.writeIndex + 1 }) := by
  unfold enqueue enqueueOverflows
  by_cases h : s.params.qcap ≤ s.writeIndex - s.rView
  · exact .inl ⟨h, by simp [h]⟩
  · exact .inr ⟨by omega, by simp [h]⟩

/-- Q.ENQUEUE with room (R180). -/
theorem enqueue_of_room {ev : BusEvent} {s : State} (h : s.writeIndex - s.rView < s.params.qcap) :
    enqueue ev s =
      { s with
        slots := Slots.set s.slots (slotNumber s.params.qcap s.writeIndex) ev
        writeIndex := s.writeIndex + 1 } := by
  rcases enqueue_cases ev s with ⟨h', _⟩ | ⟨_, h'⟩
  · omega
  · exact h'

/-- Q.ENQUEUE on a full queue (R181). -/
theorem enqueue_of_full {ev : BusEvent} {s : State} (h : s.params.qcap ≤ s.writeIndex - s.rView) :
    enqueue ev s = raiseFatal .queueOverflow s := by
  rcases enqueue_cases ev s with ⟨_, h'⟩ | ⟨h', _⟩
  · exact h'
  · omega

/-- An activation whose operation raises nothing is completed (R151, R165). -/
theorem completeActivation_of_none {c : Nat} {s : State} (h : s.fault = none) :
    completeActivation c s = { s with cycleCount := c, out := { s.out with done := true } } := by
  simp [completeActivation, h]

/-- An activation that raised a fault stops there (R156). -/
theorem completeActivation_of_some {c : Nat} {s : State} {f : FatalReason} (h : s.fault = some f) :
    completeActivation c s = s := by
  simp [completeActivation, h]

/-- An event written elsewhere does not change what an index reads (R37). -/
theorem slots_get_set_ne {qcap i j : Nat} {m : Slots} {ev : BusEvent} (h : slotNumber qcap j ≠ slotNumber qcap i) :
    Slots.get (Slots.set m (slotNumber qcap i) ev) (slotNumber qcap j) = Slots.get m (slotNumber qcap j) := by
  rw [Slots.get_set, if_neg h]

/-- Two indices less than a capacity apart have different slots (R92, R186). -/
theorem slotNumber_ne {qcap i j : Nat} (h : i < j) (h' : j < i + qcap) : slotNumber qcap i ≠ slotNumber qcap j := by
  unfold slotNumber
  intro he
  have := (Nat.modEq_iff_dvd' (Nat.le_of_lt h)).mp he
  have := Nat.le_of_dvd (by omega) this
  omega

/-- The loop of drainUpTo (R182): how far it goes and what it returns. -/
theorem drainLoop_spec (slots : Slots) (qcap cycle fuel r : Nat) :
    ∃ n, n ≤ fuel ∧ (drainLoop slots qcap cycle fuel r).2 = r + n ∧
      (drainLoop slots qcap cycle fuel r).1 = (List.range n).map (fun k => Slots.get slots (slotNumber qcap (r + k))) ∧
      (∀ k, k < n → (Slots.get slots (slotNumber qcap (r + k))).ts ≤ cycle) ∧
      (n < fuel → cycle < (Slots.get slots (slotNumber qcap (r + n))).ts) := by
  induction fuel generalizing r with
  | zero => exact ⟨0, by simp [drainLoop]⟩
  | succ fuel ih =>
    by_cases h : (Slots.get slots (slotNumber qcap r)).ts ≤ cycle
    · obtain ⟨n, h1, h2, h3, h4, h5⟩ := ih (r + 1)
      refine ⟨n + 1, by omega, ?_, ?_, ?_, ?_⟩
      · simp only [drainLoop, h, if_true, h2]; omega
      · simp only [drainLoop, h, if_true, h3, List.range_succ_eq_map, List.map_cons, List.map_map]
        congr 1
        refine List.map_congr_left fun k _ => ?_
        simp only [Function.comp]
        congr 2
        omega
      · intro k hk
        cases k with
        | zero => simpa using h
        | succ k => have := h4 k (by omega); rwa [show r + 1 + k = r + (k + 1) by omega] at this
      · intro hn
        have := h5 (by omega)
        rwa [show r + 1 + n = r + (n + 1) by omega] at this
    · exact ⟨0, by omega, by simp [drainLoop, h], by simp [drainLoop, h], by omega,
        fun _ => by simpa using Nat.lt_of_not_le h⟩

/-- A reading lies between the last one and the counter (R100). -/
theorem readBetween_bounds {view word : Nat} (h : view ≤ word) (target : Nat) :
    view ≤ readBetween view word target ∧ readBetween view word target ≤ word := by
  unfold readBetween; omega

/-- Every value between the last reading and the counter can be read (R100). -/
theorem readBetween_eq {view word target : Nat} (h : view ≤ target) (h' : target ≤ word) :
    readBetween view word target = target := by
  unfold readBetween; omega

/-- EN's view of writeIndex after a reading of cycleCount and writeIndex (R102): what was read of writeIndex, and past it
every event due by what was read of cycleCount, up to the first that is not. -/
theorem seeCycles_wView (c w : Nat) (s : State) (h : s.wView ≤ s.writeIndex) :
    ∃ n, (seeCycles c w s).wView = readBetween s.wView s.writeIndex w + n ∧
      readBetween s.wView s.writeIndex w + n ≤ s.writeIndex ∧
      (readBetween s.wView s.writeIndex w + n < s.writeIndex →
        readBetween s.nowView s.cycleCount c <
          (Slots.get s.slots (slotNumber s.params.qcap (readBetween s.wView s.writeIndex w + n))).ts) := by
  obtain ⟨n, h1, h2, -, -, h5⟩ := drainLoop_spec s.slots s.params.qcap (readBetween s.nowView s.cycleCount c)
    (s.writeIndex - readBetween s.wView s.writeIndex w) (readBetween s.wView s.writeIndex w)
  have := readBetween_bounds h w
  exact ⟨n, h2, by omega, fun h => h5 (by omega)⟩

/-- EN reads exactly what it is asked to read where R100 and R102 allow it: the counters as they were at some moment since
the last reading, with no event that is due by that reading left unseen. -/
theorem seeCycles_eq {c w : Nat} {s : State} (h1 : s.nowView ≤ c) (h2 : c ≤ s.cycleCount) (h3 : s.wView ≤ w)
    (h4 : w ≤ s.writeIndex)
    (h5 : w < s.writeIndex → c < (Slots.get s.slots (slotNumber s.params.qcap w)).ts) :
    seeCycles c w s = { s with nowView := c, wView := w } := by
  have hl : (drainLoop s.slots s.params.qcap c (s.writeIndex - w) w).2 = w := by
    cases hn : s.writeIndex - w with
    | zero => rfl
    | succ k => simp [drainLoop, Nat.not_le.mpr (h5 (by omega))]
  simp only [seeCycles, readBetween_eq h1 h2, readBetween_eq h3 h4, hl]

/-- Everything the arrival of an image can do (R100). -/
theorem deliverImage_cases (s : State) :
    (s.rbFlight = [] ∧ deliverImage s = { s with rbView := s.rb }) ∨
    (∃ image rest, s.rbFlight = image :: rest ∧ deliverImage s = { s with rbView := image, rbFlight := rest }) := by
  unfold deliverImage
  cases h : s.rbFlight with
  | nil => exact .inl ⟨rfl, rfl⟩
  | cons image rest => exact .inr ⟨image, rest, rfl, rfl⟩

/-- Everything a reading of a shared word can change: the views, and the images on their way to BD (R100). -/
theorem syncView_views (v : ViewSync) (s : State) :
    ∃ now w r image flight,
      syncView v s = { s with nowView := now, wView := w, rView := r, rbView := image, rbFlight := flight } ∧
      (s.nowView ≤ s.cycleCount → s.nowView ≤ now ∧ now ≤ s.cycleCount) ∧
      (s.wView ≤ s.writeIndex → s.wView ≤ w ∧ w ≤ s.writeIndex) ∧
      (s.rView ≤ s.readIndex → s.rView ≤ r ∧ r ≤ s.readIndex) ∧
      (image = s.rbView ∨ image = s.rb ∨ image ∈ s.rbFlight) ∧
      ∀ m ∈ flight, m = s.rb ∨ m ∈ s.rbFlight := by
  cases v with
  | now c w =>
    refine ⟨_, _, _, _, _, rfl, fun h => readBetween_bounds h c, fun h => ?_, fun h => ⟨le_rfl, h⟩, .inl rfl,
      fun m hm => .inr hm⟩
    obtain ⟨n, h1, h2, -⟩ := seeCycles_wView c w s h
    have := readBetween_bounds h w
    have h1' : _ = _ := h1
    simp only [seeCycles] at h1'
    omega
  | writeIx i =>
    exact ⟨_, _, _, _, _, rfl, fun h => ⟨le_rfl, h⟩, fun h => readBetween_bounds h i, fun h => ⟨le_rfl, h⟩, .inl rfl,
      fun m hm => .inr hm⟩
  | readIx i =>
    exact ⟨_, _, _, _, _, rfl, fun h => ⟨le_rfl, h⟩, fun h => ⟨le_rfl, h⟩, fun h => readBetween_bounds h i, .inl rfl,
      fun m hm => .inr hm⟩
  | capture =>
    exact ⟨_, _, _, _, _, rfl, fun h => ⟨le_rfl, h⟩, fun h => ⟨le_rfl, h⟩, fun h => ⟨le_rfl, h⟩, .inl rfl,
      fun m hm => by simp at hm; exact hm.symm⟩
  | image =>
    rcases deliverImage_cases s with ⟨-, h⟩ | ⟨image, rest, hf, h⟩
    · exact ⟨_, _, _, _, _, h, fun h => ⟨le_rfl, h⟩, fun h => ⟨le_rfl, h⟩, fun h => ⟨le_rfl, h⟩, .inr (.inl rfl),
        fun m hm => .inr hm⟩
    · exact ⟨_, _, _, _, _, h, fun h => ⟨le_rfl, h⟩, fun h => ⟨le_rfl, h⟩, fun h => ⟨le_rfl, h⟩,
        .inr (.inr (by simp [hf])), fun m hm => .inr (by simp [hf, hm])⟩

/-- What an image reads at a register (R46, R218). -/
theorem get_chipImage (ro : PerKind (List RegIx)) (core : ChipCore) (r : RegIx) :
    Memory.get (chipImage ro core) r.toNat = chipRead ro core r := by
  have := r.isLt
  simp [chipImage, this]

/-- An image is in canonical form. -/
theorem chipImage_canonical (ro : PerKind (List RegIx)) (core : ChipCore) :
    Memory.wf (chipImage ro core) = true ∧ Memory.within 32 (chipImage ro core) = true :=
  ⟨Memory.wf_tabulate _ _, Memory.within_tabulate _ _⟩

@[simp] theorem PerChip.get_set {α : Type} (p : PerChip α) (c d : ChipId) (v : α) :
    (p.set c v).get d = if d = c then v else p.get d := by
  cases c <;> cases d <;> rfl

@[simp] theorem PerSynth.get_set {α : Type} (p : PerSynth α) (c d : SynthId) (v : α) :
    (p.set c v).get d = if d = c then v else p.get d := by
  cases c <;> cases d <;> rfl

@[simp] theorem onActive_get {α : Type} (cfg : SessionConfig) (old new : PerChip α) (c : ChipId) :
    (onActive cfg old new).get c = if cfg.active c then new.get c else old.get c := by
  cases c <;> rfl

@[simp] theorem onActiveSynth_get {α : Type} (cfg : SessionConfig) (old new : PerSynth α) (ch : SynthId) :
    (onActiveSynth cfg old new).get ch = if cfg.active ch.chip then new.get ch else old.get ch := by
  cases ch <;> rfl

@[simp] theorem images_get (p : Params) (chip : PerChip ChipState) (c : ChipId) :
    (images p chip).get c = chipImage p.roRegs (chip.get c).core := by
  cases c <;> rfl

/-- A value changed for the active chips twice is changed once. -/
theorem onActive_idem {α : Type} (cfg : SessionConfig) (a b : PerChip α) :
    onActive cfg (onActive cfg a b) b = onActive cfg a b := by
  unfold onActive
  cases cfg.active .sid1 <;> cases cfg.active .sid2 <;> cases cfg.active .fm <;> rfl

/-- A value changed for the active synthesizer chips twice is changed once. -/
theorem onActiveSynth_idem {α : Type} (cfg : SessionConfig) (a b : PerSynth α) :
    onActiveSynth cfg (onActiveSynth cfg a b) b = onActiveSynth cfg a b := by
  unfold onActiveSynth
  cases cfg.active .sid1 <;> cases cfg.active .sid2 <;> rfl

/-- The baseline of a baseline is that baseline. -/
theorem baseline_idem (s : State) : baseline (baseline s) = baseline s := by
  simp only [baseline, publish, flush, onActive_idem, onActiveSynth_idem]

/-- What a fetched turn comes to in a step. -/
def Fetched.outcome : Fetched → Host.Outcome State Fault Refusal
  | .run i t => exec i t
  | .pass t => .next t
  | .stop r => .refused r

/-- A step is the outcome of its turn, or the fault that is there (R300). -/
theorem step_eq (s : State) :
    step s = match s.fault with
      | some f => .fault (.fatal f)
      | none => (fetch s).outcome := by
  unfold step Fetched.outcome
  cases s.fault <;> rfl

/-- A step with a next state is the outcome of its turn. -/
theorem step_next {s t : State} (h : step s = .next t) : s.fault = none ∧ (fetch s).outcome = .next t := by
  rw [step_eq] at h
  cases hf : s.fault with
  | some f => rw [hf] at h; cases h
  | none => rw [hf] at h; exact ⟨rfl, h⟩

/-- Everything a strobe can do (R156). -/
theorem fetchStrobe_outcome {sn : Snap} {fresh : Bool} {s t : State} (h : (fetchStrobe sn fresh s).outcome = .next t) :
    (∃ i, decodeState (latchStrobe sn fresh s) = .ok i ∧ exec i (latchStrobe sn fresh s) = .next t) ∨ t = s := by
  unfold fetchStrobe at h
  cases hd : decodeState (latchStrobe sn fresh s) with
  | ok i => rw [hd] at h; exact .inl ⟨i, rfl, h⟩
  | error e => rw [hd] at h; injection h with h; exact .inr h.symm

/-- Everything an engine turn can do (R211). -/
theorem fetchEngine_outcome {inp : EngineInput} {s t : State} (h : (fetchEngine inp s).outcome = .next t) :
    (s.phase = .running ∧ exec (selectEngine inp.slice (latchEngine inp s)) (latchEngine inp s) = .next t) ∨ t = s := by
  unfold fetchEngine at h
  by_cases hp : s.phase = .running
  · rw [if_pos hp] at h; exact .inl ⟨hp, h⟩
  · rw [if_neg hp] at h; injection h with h; exact .inr h.symm

/-- Everything the first half of a split start can do (R341). -/
theorem fetchBegin_outcome {config : SessionConfig} {s t : State} (h : (fetchBegin config s).outcome = .next t) :
    s.phase = .notStarted ∧ configViolation s.params config = none ∧ t = openSession config s := by
  unfold fetchBegin at h
  by_cases hp : s.phase = .notStarted
  · rw [if_pos hp] at h
    cases hv : configViolation s.params config with
    | none => rw [hv] at h; injection h with h; exact ⟨hp, rfl, h.symm⟩
    | some v => rw [hv] at h; cases h
  · rw [if_neg hp] at h; cases h

/-- Everything the second half can do (R341). -/
theorem fetchFinish_outcome {clk : Nat} {s t : State} (h : (fetchFinish clk s).outcome = .next t) :
    s.phase = .measuring ∧ clauseV9 s.params clk = true ∧ t = runSession clk s := by
  unfold fetchFinish at h
  by_cases hp : s.phase = .measuring
  · rw [if_pos hp] at h
    by_cases hv : clauseV9 s.params clk = true
    · rw [if_pos hv] at h; injection h with h; exact ⟨hp, hv, h.symm⟩
    · rw [if_neg hv] at h; cases h
  · rw [if_neg hp] at h; cases h

/-- The turn a state fetches: none once the session has exited (R222, R319), an idle engine turn when the script is
empty, else the head of the script. -/
theorem fetch_outcome {s t : State} (h : (fetch s).outcome = .next t) :
    (s.script = [] ∧ (fetchEngine (idleInput s) s).outcome = .next t) ∨
    (∃ turn rest, s.script = turn :: rest ∧ (fetchTurn turn (takeTurn rest s)).outcome = .next t) := by
  unfold fetch at h
  have key : (match s.script with
      | [] => fetchEngine (idleInput s) s
      | t :: rest => fetchTurn t (takeTurn rest s)).outcome = .next t := by
    revert h; cases s.phase <;> intro h <;> first | exact h | cases h
  cases hs : s.script with
  | nil => rw [hs] at key; exact .inl ⟨rfl, key⟩
  | cons turn rest => rw [hs] at key; exact .inr ⟨turn, rest, rfl, key⟩

/-- Everything one step can do: a strobe runs what its snapshot selects, an engine turn what the state selects, a word is
propagated, a session is opened or started, or the turn passes. -/
theorem step_cases {s t : State} (h : step s = .next t) :
    s.fault = none ∧ ∃ rest,
    ((∃ sn fresh i, decodeState (latchStrobe sn fresh (takeTurn rest s)) = .ok i ∧
        exec i (latchStrobe sn fresh (takeTurn rest s)) = .next t) ∨
     (∃ inp, s.phase = .running ∧
        exec (selectEngine inp.slice (latchEngine inp (takeTurn rest s))) (latchEngine inp (takeTurn rest s)) = .next t) ∨
     (∃ v, t = syncView v (takeTurn rest s)) ∨
     (∃ config clk, exec (.sessionStart config clk) (takeTurn rest s) = .next t) ∨
     (∃ config, s.phase = .notStarted ∧ configViolation s.params config = none ∧
        t = openSession config (takeTurn rest s)) ∨
     (∃ clk, s.phase = .measuring ∧ clauseV9 s.params clk = true ∧ t = runSession clk (takeTurn rest s)) ∨
     t = takeTurn rest s) := by
  obtain ⟨hf, h⟩ := step_next h
  refine ⟨hf, ?_⟩
  rcases fetch_outcome h with ⟨hs, h⟩ | ⟨turn, rest, hs, h⟩
  · refine ⟨s.script, ?_⟩
    have hself : takeTurn s.script s = s := rfl
    rw [hself]
    rcases fetchEngine_outcome h with h | h
    · exact .inr (.inl ⟨_, h⟩)
    · exact .inr (.inr (.inr (.inr (.inr (.inr h)))))
  · refine ⟨rest, ?_⟩
    cases turn with
    | strobe sn fresh =>
      rcases fetchStrobe_outcome h with ⟨i, h⟩ | h
      · exact .inl ⟨sn, fresh, i, h⟩
      · exact .inr (.inr (.inr (.inr (.inr (.inr h)))))
    | strobeRaw raw fresh =>
      rcases fetchStrobe_outcome h with ⟨i, h⟩ | h
      · exact .inl ⟨_, fresh, i, h⟩
      · exact .inr (.inr (.inr (.inr (.inr (.inr h)))))
    | engine inp =>
      rcases fetchEngine_outcome h with h | h
      · exact .inr (.inl ⟨_, h⟩)
      · exact .inr (.inr (.inr (.inr (.inr (.inr h)))))
    | sync v => injection h with h; exact .inr (.inr (.inl ⟨v, h.symm⟩))
    | start config clk => exact .inr (.inr (.inr (.inl ⟨config, clk, h⟩)))
    | beginSession config => exact .inr (.inr (.inr (.inr (.inl ⟨config, fetchBegin_outcome h⟩))))
    | finishSession clk => exact .inr (.inr (.inr (.inr (.inr (.inl ⟨clk, fetchFinish_outcome h⟩)))))

end Sys2Proof.Machine
end

