-- ==== Sys2Proof/Laws/Bus.lean ====
section
/-! SUPPORT. What each bus operation does to a faultless state, as one record equation per operation: the frame of R156 with its body. -/

namespace Sys2Proof.Machine

/-- The frame around a body that raises nothing (R156). -/
theorem activation_of_none {body : Nat → State → State} {s : State}
    (h : (body (s.cycleCount + 1) (enterActivation s)).fault = none) :
    activation body s =
      { body (s.cycleCount + 1) (enterActivation s) with
        cycleCount := s.cycleCount + 1
        out := { (body (s.cycleCount + 1) (enterActivation s)).out with done := true } } :=
  completeActivation_of_none h

/-- The frame around a body that raises a fault (R156). -/
theorem activation_of_some {body : Nat → State → State} {s : State} {f : FatalReason}
    (h : (body (s.cycleCount + 1) (enterActivation s)).fault = some f) :
    activation body s = body (s.cycleCount + 1) (enterActivation s) :=
  completeActivation_of_some h

/-- The detection state of a chip after a write to it (R157, R241, R242, R246). -/
def writtenDet (s : State) (ch : SynthId) (reg : RegIx) (val : Byte) : DetState :=
  ⟨if s.params.detSeq[(s.det.get ch).step]? = some (reg, val) then (s.det.get ch).step + 1 else 0,
    Memory.set (s.det.get ch).snapshot reg.toNat val⟩

/-- Detection and snapshot of a write, together (R157). -/
theorem recordWrite_detWrite (ch : SynthId) (reg : RegIx) (val : Byte) (s : State) :
    recordWrite ch reg val (detWrite ch reg val s) = { s with det := s.det.set ch (writtenDet s ch reg val) } := by
  by_cases h : s.params.detSeq[(s.det.get ch).step]? = some (reg, val)
  · have he : detExpected s ch reg val = true := by simp [detExpected, h]
    rw [detWrite, if_pos he, writtenDet, if_pos h]
    cases ch <;> rfl
  · have he : ¬detExpected s ch reg val = true := by simp [detExpected, h]
    rw [detWrite, if_neg he, writtenDet, if_neg h]
    cases ch <;> rfl

/-- BUS.NOP (R164). -/
theorem busNop_eq {s : State} (h : s.fault = none) :
    busNop s = { s with out := ⟨none, true⟩, resetRun := 0, cycleCount := s.cycleCount + 1 } := by
  unfold busNop
  rw [activation_of_none h]
  rfl

/-- BUS.WRITE.SID with room in the queue (R157). -/
theorem busWriteSid_of_room {ch : SynthId} {reg : RegIx} {val : Byte} {s : State} (h : s.fault = none)
    (hr : s.writeIndex - s.rView < s.params.qcap) :
    busWriteSid ch reg val s =
      { s with
        out := ⟨none, true⟩, resetRun := 0, cycleCount := s.cycleCount + 1
        det := s.det.set ch (writtenDet s ch reg val)
        slots := Slots.set s.slots (slotNumber s.params.qcap s.writeIndex) ⟨ch.chip, reg, val, s.cycleCount + 1⟩
        writeIndex := s.writeIndex + 1 } := by
  have hb : enqueue ⟨ch.chip, reg, val, s.cycleCount + 1⟩
      (recordWrite ch reg val (detWrite ch reg val (enterActivation s))) =
      { enterActivation s with
        det := s.det.set ch (writtenDet s ch reg val)
        slots := Slots.set s.slots (slotNumber s.params.qcap s.writeIndex) ⟨ch.chip, reg, val, s.cycleCount + 1⟩
        writeIndex := s.writeIndex + 1 } := by
    rw [recordWrite_detWrite, enqueue_of_room (by simpa using hr)]
    rfl
  unfold busWriteSid
  rw [activation_of_none (by rw [hb]; exact h), hb]
  rfl

/-- BUS.WRITE.SID on a full queue (R302). -/
theorem busWriteSid_of_full {ch : SynthId} {reg : RegIx} {val : Byte} {s : State} (h : s.fault = none)
    (hr : s.params.qcap ≤ s.writeIndex - s.rView) :
    busWriteSid ch reg val s =
      { s with
        fault := some .queueOverflow, out := ⟨none, false⟩, resetRun := 0
        det := s.det.set ch (writtenDet s ch reg val) } := by
  have hb : enqueue ⟨ch.chip, reg, val, s.cycleCount + 1⟩
      (recordWrite ch reg val (detWrite ch reg val (enterActivation s))) =
      { enterActivation s with
        fault := some .queueOverflow, det := s.det.set ch (writtenDet s ch reg val) } := by
    rw [recordWrite_detWrite, enqueue_of_full (by simpa using hr), raiseFatal_of_none (by simpa using h)]
    rfl
  unfold busWriteSid
  rw [activation_of_some (f := .queueOverflow) (by rw [hb]), hb]
  rfl

/-- BUS.WRITE.FM with room in the queue (R158). -/
theorem busWriteFm_of_room {reg : RegIx} {val : Byte} {s : State} (h : s.fault = none)
    (hr : s.writeIndex - s.rView < s.params.qcap) :
    busWriteFm reg val s =
      { s with
        out := ⟨none, true⟩, resetRun := 0, cycleCount := s.cycleCount + 1
        slots := Slots.set s.slots (slotNumber s.params.qcap s.writeIndex) ⟨.fm, reg, val, s.cycleCount + 1⟩
        writeIndex := s.writeIndex + 1 } := by
  have hb := enqueue_of_room (ev := ⟨.fm, reg, val, s.cycleCount + 1⟩) (s := enterActivation s) (by simpa using hr)
  unfold busWriteFm
  rw [activation_of_none (by rw [hb]; exact h), hb]
  rfl

/-- BUS.WRITE.FM on a full queue (R302). -/
theorem busWriteFm_of_full {reg : RegIx} {val : Byte} {s : State} (h : s.fault = none)
    (hr : s.params.qcap ≤ s.writeIndex - s.rView) :
    busWriteFm reg val s =
      { s with fault := some .queueOverflow, out := ⟨none, false⟩, resetRun := 0 } := by
  have hb : enqueue ⟨.fm, reg, val, s.cycleCount + 1⟩ (enterActivation s) =
      { enterActivation s with fault := some .queueOverflow } := by
    rw [enqueue_of_full (by simpa using hr), raiseFatal_of_none (by simpa using h)]
  unfold busWriteFm
  rw [activation_of_some (f := .queueOverflow) (by rw [hb]), hb]
  rfl

/-- BUS.READ.PROBE (R162). -/
theorem busReadProbe_eq {ch : SynthId} {s : State} (h : s.fault = none) :
    busReadProbe ch s =
      { s with
        out := ⟨some (s.params.sentinelOf (synthModel s.cfg ch)), true⟩
        resetRun := 0, cycleCount := s.cycleCount + 1
        det := s.det.set ch { s.det.get ch with step := 0 } } := by
  unfold busReadProbe
  rw [activation_of_none (by simpa using h)]
  rfl

/-- BUS.READ.SID (R160). -/
theorem busReadSid_eq {ch : SynthId} {reg : RegIx} {s : State} (h : s.fault = none) :
    busReadSid ch reg s =
      { s with
        out := ⟨some (Memory.get (s.rbView.get ch.chip) reg.toNat), true⟩
        resetRun := 0, cycleCount := s.cycleCount + 1 } := by
  unfold busReadSid
  rw [activation_of_none (by simpa using h)]
  rfl

/-- BUS.READ.SPECIAL (R163). -/
theorem busReadSpecial_eq {off : Byte} {s : State} (h : s.fault = none) :
    busReadSpecial off s =
      { s with
        out := ⟨some (Memory.get (specialBytes s.cfg) off.toNat), true⟩
        resetRun := 0, cycleCount := s.cycleCount + 1 } := by
  unfold busReadSpecial
  rw [activation_of_none (by simpa using h)]
  rfl

/-- BUS.RESET below the threshold (R152). -/
theorem busReset_below {s : State} (h : s.resetRun + 1 < s.params.tRst) :
    busReset s =
      { s with out := ⟨none, true⟩, resetRun := s.resetRun + 1, cycleCount := s.cycleCount + 1 } := by
  have hm : min (s.resetRun + 1) s.params.tRst = s.resetRun + 1 := by omega
  have hq : resetQualified (countReset s) = false := by simp [resetQualified, hm]; omega
  unfold busReset
  rw [hq]
  simp [signalDone, countReset, hm]

/-- BUS.RESET when the run qualifies (R153): counted, committed, completed. -/
theorem busReset_qualified {s : State} (h : s.params.tRst ≤ s.resetRun + 1) :
    busReset s = signalDone (resetCommit (countReset s)) := by
  have hq : resetQualified (countReset s) = true := by simp [resetQualified]; omega
  unfold busReset
  rw [if_pos hq]

end Sys2Proof.Machine
end

