-- ==== Sys2Proof/Laws/Decode.lean ====
section
/-! SUPPORT. The window match as arithmetic, what a valid configuration gives the window list, and which windows the synthesizer decode looks at. -/

namespace Sys2Proof

/-- The window match (R85), without Bool. -/
theorem matchesSnap_iff {r : Region} {sn : Snap} :
    r.matchesSnap sn = true ↔ csMatches r.cs sn.cs = true ∧ sn.a / 2 ^ r.bits = r.base / 2 ^ r.bits := by
  simp [Region.matchesSnap]

/-- The chip-select condition (R83), without Bool. -/
theorem csMatches_iff {need : Option Nat} {lines : Nat} :
    csMatches need lines = true ↔ (need = none ∨ ∃ i, need = some i ∧ lines.testBit i = true) := by
  cases need <;> simp [csMatches]

/-- An aligned region is the addresses from its base on (R84). -/
theorem matchesSnap_range {r : Region} {sn : Snap} (hb : r.base % 2 ^ r.bits = 0) :
    r.matchesSnap sn = true ↔ csMatches r.cs sn.cs = true ∧ r.base ≤ sn.a ∧ sn.a < r.base + 2 ^ r.bits := by
  have hp : 0 < 2 ^ r.bits := Nat.two_pow_pos _
  obtain ⟨q, hq⟩ := Nat.dvd_of_mod_eq_zero hb
  have hc : q * 2 ^ r.bits = 2 ^ r.bits * q := Nat.mul_comm _ _
  rw [matchesSnap_iff, hq, Nat.mul_div_cancel_left _ hp, Nat.div_eq_iff hp]
  refine and_congr_right fun _ => ?_
  omega

/-- With 16 address and 4 chip-select lines the record read off raw lines is the word of R120. -/
theorem ofLines_eq_ofWord {p : Params} (ha : p.aw = 16) (hn : p.ncs = 4) (raw : Nat) :
    Snap.ofLines p raw = Snap.ofWord (BitVec.ofNat 32 raw) := by
  simp only [Snap.ofLines, Snap.ofWord, ha, hn, Snap.mk.injEq]
  refine ⟨?_, ?_, ?_, ?_, ?_⟩
  · simp only [BitVec.extractLsb'_toNat, BitVec.toNat_ofNat, Nat.shiftRight_zero]
    omega
  · apply BitVec.eq_of_toNat_eq
    simp only [BitVec.extractLsb'_toNat, BitVec.toNat_ofNat, Nat.shiftRight_eq_div_pow]
    omega
  · rw [BitVec.getLsbD_ofNat]; rfl
  · rw [BitVec.getLsbD_ofNat]; rfl
  · simp only [BitVec.extractLsb'_toNat, BitVec.toNat_ofNat, Nat.shiftRight_eq_div_pow]
    omega

/-- REFCFG's PinMap is the identity on the logical word (R11). -/
theorem readPins_refParams (raw : Nat) : refParams.readPins raw = Snap.ofWord (BitVec.ofNat 32 raw) :=
  ofLines_eq_ofWord rfl rfl raw

/-- Two addresses agree above the low bits exactly when all their high bits do. -/
theorem div_pow_eq_iff {n a b : Nat} : a / 2 ^ n = b / 2 ^ n ↔ ∀ i, n ≤ i → a.testBit i = b.testBit i := by
  rw [← Nat.shiftRight_eq_div_pow, ← Nat.shiftRight_eq_div_pow]
  constructor
  · intro h i hi
    have := congrArg (fun x => x.testBit (i - n)) h
    simpa [Nat.testBit_shiftRight, Nat.add_sub_cancel' hi] using this
  · intro h
    apply Nat.eq_of_testBit_eq
    intro i
    simpa [Nat.testBit_shiftRight] using h (n + i) (by omega)

/-- Only the mapping mode's windows belong to synthesizer chips (R88, R124). -/
theorem synthAt_eq (cfg : SessionConfig) (sn : Snap) :
    cfg.synthAt sn = cfg.mapMode.regions.findSome? fun r => if r.matchesSnap sn then r.synth else none := by
  unfold SessionConfig.synthAt SessionConfig.windows
  cases cfg.fmEnabled <;> cases cfg.special <;> simp [List.findSome?_append, Window.region, Region.synth]

/-- A configuration with no violation passes V1 to V8 (R340). -/
theorem configViolation_none {p : Params} {cfg : SessionConfig} (h : configViolation p cfg = none) :
    clauseV1 cfg = true ∧ clauseV2 p cfg = true ∧ clauseV3 p cfg = true ∧ clauseV4 p cfg = true ∧
      clauseV5 cfg = true ∧ clauseV6 cfg = true ∧ clauseV7 p cfg = true ∧ clauseV8 p = true := by
  revert h
  unfold configViolation
  cases clauseV1 cfg <;> cases clauseV2 p cfg <;> cases clauseV3 p cfg <;> cases clauseV4 p cfg <;>
    cases clauseV5 cfg <;> cases clauseV6 cfg <;> cases clauseV7 p cfg <;> cases clauseV8 p <;> simp

/-- What V2 and V4 check of a region. -/
theorem windowOk_iff {p : Params} {cs : Option Nat} {base bits : Nat} (h : windowOk p cs base bits = true) :
    base % 2 ^ bits = 0 ∧ base < 2 ^ p.aw ∧ ∀ i, cs = some i → i < p.ncs := by
  simp only [windowOk, Bool.and_eq_true, decide_eq_true_eq] at h
  refine ⟨h.1.1, h.1.2, ?_⟩
  rintro i rfl
  simpa using h.2

/-- Every entry of a valid window list is aligned, in the address space, on an existing line (V2, V4). -/
theorem windows_aligned {p : Params} {cfg : SessionConfig} (h : configViolation p cfg = none) :
    ∀ r ∈ cfg.windows, r.base % 2 ^ r.bits = 0 ∧ r.base < 2 ^ p.aw ∧ ∀ i, r.cs = some i → i < p.ncs := by
  obtain ⟨-, h2, -, h4, -⟩ := configViolation_none h
  intro r hr
  have h2r := List.all_eq_true.mp h2 r hr
  rw [Bool.or_eq_true, decide_eq_true_eq] at h2r
  rcases h2r with ho | hw
  · unfold SessionConfig.windows at hr
    cases hs : cfg.special with
    | none =>
      exfalso
      cases hm : cfg.mapMode <;> cases hf : cfg.fmEnabled <;>
        simp [hs, hm, hf, MapMode.regions, Window.region] at hr <;> rcases hr with rfl | rfl | rfl <;> cases ho
    | some sp =>
      simp only [clauseV4, hs, Bool.and_eq_true] at h4
      have hr' : r = ⟨.special, sp.cs, sp.base, 8⟩ := by
        cases hm : cfg.mapMode <;> cases hf : cfg.fmEnabled <;>
          simp [hs, hm, hf, MapMode.regions, Window.region] at hr <;> rcases hr with rfl | rfl | rfl | rfl <;>
          first | rfl | cases ho
      subst hr'
      exact windowOk_iff h4.1.1
  · exact windowOk_iff hw

/-- V5 as a pairwise relation. -/
theorem allDisjoint_pairwise {l : List Region} (h : allDisjoint l = true) :
    l.Pairwise fun r t => regionsDisjoint r t = true := by
  induction l with
  | nil => exact .nil
  | cons r l ih =>
    simp only [allDisjoint, Bool.and_eq_true, List.all_eq_true] at h
    exact .cons h.1 (ih h.2)

end Sys2Proof
end

