-- ==== Sys2Proof/Laws/Flags.lean ====
section
/-! SUPPORT. Each condition of R58 as a proposition, and the condition on a slice (R215). -/

namespace Sys2Proof.Machine

@[simp] theorem resetQualified_iff {s : State} : resetQualified s = true ↔ s.params.tRst ≤ s.resetRun :=
  decide_eq_true_iff

@[simp] theorem detTerminal_iff {s : State} {ch : SynthId} :
    detTerminal s ch = true ↔ (s.det.get ch).step = s.params.detSeq.length :=
  decide_eq_true_iff

@[simp] theorem detExpected_iff {s : State} {ch : SynthId} {reg : RegIx} {val : Byte} :
    detExpected s ch reg val = true ↔ s.params.detSeq[(s.det.get ch).step]? = some (reg, val) :=
  decide_eq_true_iff

@[simp] theorem acquiring_iff {s : State} : acquiring s = true ↔ s.rc.mc < s.params.acqWindows :=
  decide_eq_true_iff

@[simp] theorem windowComplete_iff {s : State} : windowComplete s = true ↔ s.rc.n = s.params.window :=
  decide_eq_true_iff

@[simp] theorem sinkLow_iff {s : State} {avg : Nat} :
    sinkLow s avg = true ↔ avg + s.params.marginLo < s.rc.wm :=
  decide_eq_true_iff

@[simp] theorem sinkHigh_iff {s : State} {avg : Nat} :
    sinkHigh s avg = true ↔ s.rc.wm + s.params.marginHi < avg :=
  decide_eq_true_iff

@[simp] theorem headVisible_iff {s : State} : headVisible s = true ↔ s.readIndex ≠ s.wView :=
  decide_eq_true_iff

@[simp] theorem headDue_iff {s : State} :
    headDue s = true ↔ s.readIndex ≠ s.wView ∧ (eventAt s s.readIndex).ts ≤ s.E :=
  Bool.and_eq_true_iff.trans (and_congr headVisible_iff decide_eq_true_iff)

@[simp] theorem engineBehind_iff {s : State} : engineBehind s = true ↔ s.E < s.nowView :=
  decide_eq_true_iff

/-- The model's test of a slice longer than one cycle is R215's condition. -/
theorem sliceAllowed_iff {s : State} {k : Nat} (hk : k ≠ 1) : sliceAllowed k s = true ↔ SliceFits k s := by
  have hh : sliceBeforeHead k s = true ↔ (s.readIndex ≠ s.wView → s.E + k ≤ (eventAt s s.readIndex).ts) := by
    unfold sliceBeforeHead peek
    by_cases hv : headVisible s = true
    · rw [if_pos hv]
      exact decide_eq_true_iff.trans ⟨fun h _ => h, fun h => h (headVisible_iff.mp hv)⟩
    · rw [if_neg hv]
      exact ⟨fun _ h => absurd (headVisible_iff.mpr h) hv, fun _ => rfl⟩
  have hq : sliceQuiet k s = true ↔ ∀ j, 1 ≤ j → j < k → (s.E + j) * s.rc.rate / s.clk = s.prevS := by
    unfold sliceQuiet sampleIndexAt
    rw [List.all_eq_true]
    constructor
    · intro h j h1 h2
      have := of_decide_eq_true (h (j - 1) (List.mem_range.mpr (by omega)))
      rwa [show j - 1 + 1 = j by omega] at this
    · intro h x hx
      exact decide_eq_true (h (x + 1) (by omega) (by have := List.mem_range.mp hx; omega))
  unfold sliceAllowed
  simp only [hk, decide_false, Bool.false_or, Bool.and_eq_true, decide_eq_true_eq, hh, hq]
  exact ⟨fun ⟨⟨⟨⟨a, b⟩, c⟩, d⟩, e⟩ => ⟨⟨a, b⟩, c, d, e⟩, fun ⟨⟨a, b⟩, c, d, e⟩ => ⟨⟨⟨⟨a, b⟩, c⟩, d⟩, e⟩⟩

/-- A slice that fits is one the engine may take: nothing is due, it is behind, and the slice is allowed. -/
theorem guard_of_sliceFits {s : State} {k : Nat} (h : SliceFits k s) :
    headDue s = false ∧ engineBehind s = true ∧ sliceAllowed k s = true := by
  have hl := h.length
  have hb := h.behind
  refine ⟨Bool.eq_false_iff.mpr fun hd => ?_, engineBehind_iff.mpr (by omega), ?_⟩
  · obtain ⟨h1, h2⟩ := headDue_iff.mp hd
    have := h.head h1
    omega
  · by_cases hk : k = 1
    · subst hk; rfl
    · exact (sliceAllowed_iff hk).mpr h

/-- In another phase an operation is refused by that name (R54). -/
theorem perform_wrongPhase {ph : Phase} {s t : State} {name : String} {sel : Bool} (hf : s.fault = none)
    (h : s.phase ≠ ph) : perform ph s name sel t = .refused (.wrongPhase s.phase) := by
  simp [perform, hf, h]

/-- With its guard false an operation is refused by name (R132). -/
theorem perform_notSelected {ph : Phase} {s t : State} {name : String} (hf : s.fault = none) (h : s.phase = ph) :
    perform ph s name false t = .refused (.notSelected name) := by
  simp [perform, hf, h]

end Sys2Proof.Machine
end

