-- ==== Sys2Proof/Laws/PerInstr.lean ====
section
/-! SUPPORT. The family EncodeDomain: for every instruction, whether it has a snapshot word. One lemma per constructor. -/

namespace Sys2Proof

/-- The operations a snapshot word can select: the rows of format LSNAP (R137). -/
def Instr.hasWord : Instr → Bool
  | .busMeasure => true
  | .busReset => true
  | .busWriteSid1 _ _ => true
  | .busWriteSid2 _ _ => true
  | .busWriteFm _ _ => true
  | .busReadProbe1 => true
  | .busReadProbe2 => true
  | .busReadSid1 _ => true
  | .busReadSid2 _ => true
  | .busReadSpecial _ => true
  | .busNop => true
  | .qEnqueue _ => false
  | .qDrainUpTo _ => false
  | .qPeek => false
  | .qFlush => false
  | .detAdvance _ _ _ => false
  | .detMiss _ _ _ => false
  | .detProbe _ => false
  | .enExit _ => false
  | .enApply => false
  | .enStep _ => false
  | .enSample => false
  | .enPublish => false
  | .enIdle => false
  | .mix _ => false
  | .sinkWrite _ _ => false
  | .rateAccum _ => false
  | .rateWindow => false
  | .rateAcquire _ => false
  | .rateUp => false
  | .rateDown => false
  | .rateHold => false
  | .sessionStart _ _ => false
  | .resetCommit => false

/-- Under V1 a chip of the session has an entry in the window list (R86 to R88). -/
theorem regionOf_isSome_of_active {cfg : SessionConfig} (h : clauseV1 cfg = true) (c : ChipId) (hc : cfg.active c = true) :
    (cfg.regionOf (.chip c)).isSome = true := by
  unfold SessionConfig.regionOf SessionConfig.windows clauseV1 SessionConfig.active at *
  cases c <;> cases hm : cfg.mapMode <;> cases h2 : cfg.modelSid2 <;> cases hf : cfg.fmEnabled <;>
    simp_all [MapMode.regions, Window.region]

/-- A configured special region has an entry in the window list (R88). -/
theorem regionOf_isSome_special {cfg : SessionConfig} (h : cfg.special.isSome = true) :
    (cfg.regionOf .special).isSome = true := by
  obtain ⟨sp, hs⟩ := Option.isSome_iff_exists.mp h
  simp [SessionConfig.regionOf, SessionConfig.windows, hs, List.find?_append]

/-- What needChip refuses is an absent chip. -/
theorem active_of_needChip {cfg : SessionConfig} {c : ChipId} (h : needChip cfg c = none) : cfg.active c = true := by
  unfold needChip at h
  split at h
  · assumption
  · cases h

/-- What needReadable accepts is an active chip with read emulation on. -/
theorem active_of_needReadable {cfg : SessionConfig} {c : ChipId} (h : needReadable cfg c = none) :
    cfg.active c = true ∧ cfg.readEmu = true := by
  unfold needReadable at h
  cases ha : cfg.active c <;> cases hr : cfg.readEmu <;> simp_all

end Sys2Proof

namespace Sys2Proof.Laws.EncodeDomain

/-- Under a configuration that passes V1, a well-formed instruction has a snapshot word exactly when it is of a row of
format LSNAP (R137). -/
def Statement (i : Instr) : Prop :=
  ∀ (p : Params) (cfg : SessionConfig), clauseV1 cfg = true → WellFormed p cfg i →
    ((encode p cfg i).isSome = i.hasWord)

theorem busMeasure : Statement (.busMeasure) := fun _ _ _ _ => rfl
theorem busReset : Statement (.busReset) := fun _ _ _ _ => rfl
theorem busWriteSid1 (reg : RegIx) (val : Byte) : Statement (.busWriteSid1 reg val) := fun p cfg h hw => by
  simpa [encode, regionWord, Instr.hasWord] using regionOf_isSome_of_active h .sid1 (active_of_needChip hw)
theorem busWriteSid2 (reg : RegIx) (val : Byte) : Statement (.busWriteSid2 reg val) := fun p cfg h hw => by
  simpa [encode, regionWord, Instr.hasWord] using regionOf_isSome_of_active h .sid2 (active_of_needChip hw)
theorem busWriteFm (reg : RegIx) (val : Byte) : Statement (.busWriteFm reg val) := fun p cfg h hw => by
  simpa [encode, regionWord, Instr.hasWord] using regionOf_isSome_of_active h .fm (active_of_needChip hw)
theorem busReadProbe1 : Statement (.busReadProbe1) := fun p cfg h hw => by
  simpa [encode, regionWord, Instr.hasWord] using regionOf_isSome_of_active h .sid1 (active_of_needReadable hw).1
theorem busReadProbe2 : Statement (.busReadProbe2) := fun p cfg h hw => by
  simpa [encode, regionWord, Instr.hasWord] using regionOf_isSome_of_active h .sid2 (active_of_needReadable hw).1
theorem busReadSid1 (reg : RegIx) : Statement (.busReadSid1 reg) := fun p cfg h hw => by
  simpa [encode, regionWord, Instr.hasWord] using regionOf_isSome_of_active h .sid1 (active_of_needReadable hw).1
theorem busReadSid2 (reg : RegIx) : Statement (.busReadSid2 reg) := fun p cfg h hw => by
  simpa [encode, regionWord, Instr.hasWord] using regionOf_isSome_of_active h .sid2 (active_of_needReadable hw).1
theorem busReadSpecial (off : Byte) : Statement (.busReadSpecial off) := fun p cfg h hw => by
  refine (Option.isSome_map ..).trans (regionOf_isSome_special ?_)
  by_contra hn
  simp only [WellFormed, illFormed, if_neg hn] at hw
  cases hw
theorem busNop : Statement (.busNop) := fun _ _ _ _ => rfl
theorem qEnqueue (ev : BusEvent) : Statement (.qEnqueue ev) := fun _ _ _ _ => rfl
theorem qDrainUpTo (currentCycle : Nat) : Statement (.qDrainUpTo currentCycle) := fun _ _ _ _ => rfl
theorem qPeek : Statement (.qPeek) := fun _ _ _ _ => rfl
theorem qFlush : Statement (.qFlush) := fun _ _ _ _ => rfl
theorem detAdvance (ch : SynthId) (reg : RegIx) (val : Byte) : Statement (.detAdvance ch reg val) := fun _ _ _ _ => rfl
theorem detMiss (ch : SynthId) (reg : RegIx) (val : Byte) : Statement (.detMiss ch reg val) := fun _ _ _ _ => rfl
theorem detProbe (ch : SynthId) : Statement (.detProbe ch) := fun _ _ _ _ => rfl
theorem enExit (reason : ExitReason) : Statement (.enExit reason) := fun _ _ _ _ => rfl
theorem enApply : Statement (.enApply) := fun _ _ _ _ => rfl
theorem enStep (k : Nat) : Statement (.enStep k) := fun _ _ _ _ => rfl
theorem enSample : Statement (.enSample) := fun _ _ _ _ => rfl
theorem enPublish : Statement (.enPublish) := fun _ _ _ _ => rfl
theorem enIdle : Statement (.enIdle) := fun _ _ _ _ => rfl
theorem mix (samples : PerChip Sample) : Statement (.mix samples) := fun _ _ _ _ => rfl
theorem sinkWrite (left right : Int) : Statement (.sinkWrite left right) := fun _ _ _ _ => rfl
theorem rateAccum (occ : Nat) : Statement (.rateAccum occ) := fun _ _ _ _ => rfl
theorem rateWindow : Statement (.rateWindow) := fun _ _ _ _ => rfl
theorem rateAcquire (avg : Nat) : Statement (.rateAcquire avg) := fun _ _ _ _ => rfl
theorem rateUp : Statement (.rateUp) := fun _ _ _ _ => rfl
theorem rateDown : Statement (.rateDown) := fun _ _ _ _ => rfl
theorem rateHold : Statement (.rateHold) := fun _ _ _ _ => rfl
theorem sessionStart (config : SessionConfig) (clk : Nat) : Statement (.sessionStart config clk) := fun _ _ _ _ => rfl
theorem resetCommit : Statement (.resetCommit) := fun _ _ _ _ => rfl

end Sys2Proof.Laws.EncodeDomain
end

