-- ==== Sys2Proof/Tests/Slice0.lean ====
section
/-! SUPPORT. Tests: one ill-formed term per check of WellFormed; the words of spec/95_test_vectors decoded; one or two steps per operation, with the results of the vectors; and, for every statement with hypotheses, a state and operands that meet them. -/

namespace Sys2Proof.Tests

open Sys2Proof Sys2Proof.Machine

/-- A field of the next state, when there is one. -/
def after {α : Type} (o : Host.Outcome State Fault Refusal) (f : State → α) : Option α :=
  match o with
  | .next t => some (f t)
  | _ => none

/-- The next state, else a given one. -/
def nextOr (o : Host.Outcome State Fault Refusal) (d : State) : State :=
  match o with
  | .next t => t
  | _ => d

/-- The refusal, when there is one. -/
def refusal (o : Host.Outcome State Fault Refusal) : Option Refusal :=
  match o with
  | .refused r => some r
  | _ => none

/-! WellFormed: each check refuses something. -/

theorem test_slice_zero : illFormed refParams refConfig (.enStep 0) = some .sliceLength := by decide
theorem test_slice_long : illFormed refParams refConfig (.enStep 9) = some .sliceLength := by decide
theorem test_sample_range : illFormed refParams refConfig (.sinkWrite 32768 0) = some .sampleRange := by decide
theorem test_chip_absent :
    illFormed refParams { refConfig with modelSid2 := none } (.busWriteSid2 0 0) = some .chipAbsent := by decide
theorem test_fm_absent :
    illFormed refParams { refConfig with fmEnabled := false } (.busWriteFm 0 0) = some .chipAbsent := by decide
theorem test_emu_off :
    illFormed refParams { refConfig with readEmu := false } (.busReadSid1 24) = some .readEmuOff := by decide
theorem test_no_special :
    illFormed refParams { refConfig with special := none } (.busReadSpecial 0) = some .noSpecial := by decide
theorem test_slice_full : WellFormed refParams refConfig (.enStep 8) := by decide

/-- A start with a changed REFCFG. -/
def startCheck (p : Params) (cfg : SessionConfig) (clk : Nat) : Option IllFormed := illFormed p cfg (.sessionStart cfg clk)

/-- CFG-1, CFG-2 -/
theorem test_v1 :
    startCheck refParams { refConfig with mapMode := .single ⟨none, 0xD400⟩ } 1000000 = some (.invalidConfig .v1) ∧
    startCheck refParams { refConfig with modelSid2 := none } 1000000 = some (.invalidConfig .v1) := by decide
/-- CFG-3, CFG-11 -/
theorem test_v2 :
    startCheck refParams { refConfig with mapMode := .sideBySide ⟨none, 0xD400⟩ ⟨none, 0xD410⟩ } 1000000 =
      some (.invalidConfig .v2) ∧
    startCheck refParams { refConfig with fmWindow := ⟨some 4, 0xDF40⟩ } 1000000 = some (.invalidConfig .v2) := by decide
/-- CFG-8, CFG-9 -/
theorem test_v3 :
    startCheck refParams { refConfig with mapMode := .sharedSel ⟨none, 0xD420⟩ 5 } 1000000 = some (.invalidConfig .v3) ∧
    startCheck refParams { refConfig with mapMode := .sharedSel ⟨none, 0xD400⟩ 4 } 1000000 ≠ none := by decide
/-- CFG-7 -/
theorem test_v4 :
    startCheck refParams { refConfig with special := some ⟨some 0, 0xDE80, []⟩ } 1000000 = some (.invalidConfig .v4) := by
  decide
/-- CFG-4, CFG-5, CFG-6 -/
theorem test_v5 :
    startCheck refParams { refConfig with mapMode := .sideBySide ⟨none, 0xD400⟩ ⟨none, 0xD400⟩ } 1000000 =
      some (.invalidConfig .v5) ∧
    startCheck refParams { refConfig with fmWindow := ⟨some 1, 0xD420⟩ } 1000000 = some (.invalidConfig .v5) ∧
    startCheck refParams { refConfig with special := some ⟨some 0, 0xDF00, []⟩ } 1000000 =
      some (.invalidConfig .v5) := by decide
/-- CFG-10 -/
theorem test_v6 : startCheck refParams { refConfig with pan := ⟨15, 7, 7⟩ } 1000000 = some (.invalidConfig .v6) := by decide
/-- CFG-14 -/
theorem test_v7 : startCheck { refParams with sentinel := [] } refConfig 1000000 = some (.invalidConfig .v7) := by decide
/-- CFG-12 -/
theorem test_v8 : startCheck { refParams with qcap := 3000 } refConfig 1000000 = some (.invalidConfig .v8) := by
  decide
/-- CFG-13, CFG-15 -/
theorem test_v9 :
    startCheck refParams refConfig 40000 = some (.invalidConfig .v9) ∧ startCheck refParams refConfig 985248 = none := by
  decide

/-! Decoding: the words of DEC-1 to DEC-38. -/

/-- The decoding of a word under REFCFG with the given detection counters. -/
def dec (s1 s2 w : Nat) : Option Instr := (decodeWord refParams refConfig .running ⟨s1, s2⟩ 32 w).toOption

theorem test_dec_sid_writes :
    dec 0 0 0x00FFD412 = some (.busWriteSid1 18 0xFF) ∧ dec 0 0 0x0020D432 = some (.busWriteSid2 18 0x20) ∧
    dec 0 0 0x0000D41F = some (.busWriteSid1 31 0) ∧ dec 0 0 0x0001D420 = some (.busWriteSid2 0 1) ∧
    dec 0 0 0x0001D440 = some .busNop ∧ dec 0 0 0x0001D3FF = some .busNop ∧
    dec 0 0 0xC00FD418 = some (.busWriteSid1 24 0x0F) ∧ dec 0 0 0x3C0FD418 = some (.busWriteSid1 24 0x0F) := by
  decide
theorem test_dec_fm :
    dec 0 0 0x0820DF40 = some (.busWriteFm 0 0x20) ∧ dec 0 0 0x087EDF5F = some (.busWriteFm 31 0x7E) ∧
    dec 0 0 0x0020DF40 = some .busNop ∧ dec 0 0 0x0420DF40 = some .busNop ∧
    dec 0 0 0x3C20DF40 = some (.busWriteFm 0 0x20) ∧ dec 0 0 0x0900DF40 = some .busNop := by decide
theorem test_dec_reads :
    dec 0 0 0x0100D418 = some (.busReadSid1 24) ∧ dec 4 3 0x0100D43B = some (.busReadSid2 27) ∧
    dec 0 4 0x0100D43B = some .busReadProbe2 ∧ dec 4 0 0x0100D41B = some .busReadProbe1 ∧
    dec 0 4 0x0100D41B = some (.busReadSid1 27) ∧ dec 0 0 0x0177D418 = some (.busReadSid1 24) := by decide
theorem test_dec_special :
    dec 0 0 0x0500DE10 = some (.busReadSpecial 0x10) ∧ dec 0 0 0x0500DEFF = some (.busReadSpecial 0xFF) ∧
    dec 0 0 0x0100DE10 = some .busNop ∧ dec 0 0 0x04A5DE10 = some .busNop ∧ dec 0 0 0x0500DF00 = some .busNop := by
  decide
theorem test_dec_idle_reset :
    dec 0 0 0x01000000 = some .busNop ∧ dec 0 0 0x02000000 = some .busReset ∧ dec 0 0 0x020FD418 = some .busReset ∧
    dec 4 0 0x0300D41B = some .busReset := by decide
/-- DEC-30 to DEC-34 -/
theorem test_dec_toggles :
    decodeRunning refParams { refConfig with readEmu := false } ⟨4, 0⟩ (Snap.ofWord 0x0100D41B) = .busNop ∧
    decodeRunning refParams { refConfig with fmEnabled := false } ⟨0, 0⟩ (Snap.ofWord 0x0820DF40) = .busNop ∧
    decodeRunning refParams { refConfig with special := none } ⟨0, 0⟩ (Snap.ofWord 0x0500DE10) = .busNop ∧
    decodeRunning refParams { refConfig with modelSid2 := none, mapMode := .single ⟨none, 0xD400⟩ } ⟨0, 0⟩
      (Snap.ofWord 0x0020D432) = .busNop ∧
    (decodeWord refParams refConfig .measuring ⟨0, 0⟩ 32 0x020FD418).toOption = some .busMeasure := by decide
/-- DEC-35 to DEC-38: SHARED_SEL with select bit 8. -/
theorem test_dec_shared :
    let cfg := { refConfig with mapMode := .sharedSel ⟨none, 0xD400⟩ 8 }
    decodeRunning refParams cfg ⟨0, 0⟩ (Snap.ofWord 0x000FD418) = .busWriteSid1 24 0x0F ∧
    decodeRunning refParams cfg ⟨0, 0⟩ (Snap.ofWord 0x000FD518) = .busWriteSid2 24 0x0F ∧
    decodeRunning refParams cfg ⟨0, 0⟩ (Snap.ofWord 0x000FD438) = .busNop ∧
    decodeRunning refParams cfg ⟨0, 4⟩ (Snap.ofWord 0x0100D51B) = .busReadProbe2 := by decide
theorem test_dec_width : decodeTableWord 16 0xD418 = none := by decide
/-- Q-12 to Q-14 -/
theorem test_event_pack :
    BusEvent.pack ⟨.sid1, 24, 0x0F, 1000⟩ = 0x1F407E0#79 ∧ BusEvent.pack ⟨.sid2, 18, 0xFF, 1⟩ = 0xFFC9#79 ∧
    BusEvent.pack ⟨.fm, 0, 0x20, 7⟩ = 0x39002#79 := by decide

/-! Operations. -/

/-- The machine right after reset. -/
def base : State := State.reset

/-- EN-6's state: E = 10, the bus at 1100, an event due at 10. -/
def due : State :=
  { base with
    E := 10, cycleCount := 1100, nowView := 1100, writeIndex := 1, wView := 1
    slots := [(0, ⟨.sid1, 24, 0x0F, 10⟩)]
    chip := ⟨⟨.testchip [] 0, 10⟩, ⟨.testchip [] 0, 10⟩, ⟨.testchip [] 0, 10⟩⟩ }

/-- The vectors' RATE configuration: WINDOW 4, ACQ_WINDOWS 2, MIN_WATERMARK 100, margins 16, with wm = 215 locked. -/
def ratePar : Params := { refParams with window := 4, acqWindows := 2, minWatermark := 100, marginLo := 16, marginHi := 16 }

/-- A closing window with a sum. -/
def closing (mc sum : Nat) : State := { base with params := ratePar, rc := ⟨4, sum, mc, 44100, 215⟩ }

theorem test_measure :
    after (exec .busMeasure { base with phase := .measuring }) (fun t => (t.cycleCount, t.out)) = some (0, ⟨none, false⟩) := by
  decide
/-- RST-2, RST-3 -/
theorem test_reset_below :
    after (exec .busReset { base with resetRun := 2, cycleCount := 6 }) (fun t => (t.resetRun, t.cycleCount)) =
      some (3, 7) := by decide
theorem test_reset_commit :
    after (exec .busReset { base with resetRun := 3, cycleCount := 9, writeIndex := 2, readIndex := 1 })
      (fun t => (t.resetRun, t.cycleCount, t.writeIndex, t.readIndex)) = some (4, 0, 0, 0) := by decide
/-- ACT-3 -/
theorem test_write_sid1 :
    after (exec (.busWriteSid1 24 0x0F) { base with cycleCount := 999, writeIndex := 2 })
      (fun t => (t.slots, t.writeIndex, t.cycleCount)) = some ([(2, ⟨.sid1, 24, 0x0F, 1000⟩)], 3, 1000) := by decide
/-- DET-9 -/
theorem test_write_sid1_miss :
    after (exec (.busWriteSid1 18 0xFF) { base with det := ⟨⟨1, []⟩, ⟨0, []⟩⟩ }) (fun t => t.det) =
      some ⟨⟨0, [(18, 0xFF)]⟩, ⟨0, []⟩⟩ := by decide
/-- DET-16 -/
theorem test_write_sid2 :
    after (exec (.busWriteSid2 18 0xFF) { base with det := ⟨⟨2, []⟩, ⟨0, []⟩⟩ }) (fun t => t.det) =
      some ⟨⟨2, []⟩, ⟨1, [(18, 0xFF)]⟩⟩ := by decide
/-- DET-17 -/
theorem test_write_fm :
    after (exec (.busWriteFm 0 0x20) { base with cycleCount := 6, det := ⟨⟨2, []⟩, ⟨0, []⟩⟩ })
      (fun t => (t.slots, t.det.sid1.step)) = some ([(0, ⟨.fm, 0, 0x20, 7⟩)], 2) := by decide
/-- DET-5, DEC-15 -/
theorem test_probe1 :
    after (exec .busReadProbe1 { base with det := ⟨⟨4, []⟩, ⟨0, []⟩⟩ }) (fun t => (t.out, t.det.sid1.step)) =
      some (⟨some 3, true⟩, 0) := by decide
theorem test_probe2 :
    after (exec .busReadProbe2 { base with det := ⟨⟨4, []⟩, ⟨4, []⟩⟩ })
      (fun t => (t.out, t.det.sid1.step, t.det.sid2.step)) = some (⟨some 2, true⟩, 4, 0) := by decide
/-- ACT-5 -/
theorem test_read_sid1 :
    after (exec (.busReadSid1 24) { base with cycleCount := 5, rbView := ⟨[(24, 0x0F)], [], []⟩ })
      (fun t => (t.out, t.cycleCount)) = some (⟨some 0x0F, true⟩, 6) := by decide
theorem test_read_sid2 :
    after (exec (.busReadSid2 24) { base with rbView := ⟨[(24, 0x0F)], [(24, 0x55)], []⟩ }) (fun t => t.out.drive) =
      some (some 0x55) := by decide
/-- R163's example. -/
theorem test_read_special :
    after (exec (.busReadSpecial 0x10) { base with cfg := { refConfig with special := some ⟨some 0, 0xDE00, [(0x10, 0xA5)]⟩ } })
      (fun t => t.out.drive) = some (some 0xA5) := by decide
/-- ACT-2 -/
theorem test_nop :
    after (exec .busNop { base with cycleCount := 41, resetRun := 2 }) (fun t => (t.cycleCount, t.resetRun, t.out)) =
      some (42, 0, ⟨none, true⟩) := by decide
/-- Q-4, Q-5 -/
theorem test_enqueue_last :
    after (exec (.qEnqueue ⟨.sid1, 0, 1, 9⟩) { base with params := { refParams with qcap := 4 }, writeIndex := 3 })
      (fun t => (t.writeIndex, t.fault)) = some (4, none) := by decide
theorem test_enqueue_full :
    after (exec (.qEnqueue ⟨.sid1, 0, 1, 9⟩) { base with params := { refParams with qcap := 4 }, writeIndex := 4 })
      (fun t => (t.writeIndex, t.slots, t.fault)) = some (4, [], some .queueOverflow) := by decide
/-- Q-2 -/
def three : State :=
  { base with
    writeIndex := 3, wView := 3
    slots := [(0, ⟨.sid1, 0, 1, 10⟩), (1, ⟨.sid1, 1, 2, 11⟩), (2, ⟨.sid1, 2, 3, 1000⟩)] }
theorem test_drain :
    after (exec (.qDrainUpTo 11) three) (fun t => (t.drained.map (·.ts), t.readIndex)) = some ([10, 11], 2) := by decide
/-- Q-3 -/
theorem test_peek : after (exec .qPeek { three with readIndex := 2 }) (·.peeked) = some (some 1000) := by decide
theorem test_peek_empty : after (exec .qPeek { three with readIndex := 3 }) (·.peeked) = some none := by decide
/-- Q-8 -/
theorem test_flush :
    after (exec .qFlush { base with writeIndex := 9, readIndex := 7 }) (fun t => (t.writeIndex, t.readIndex)) =
      some (0, 0) := by decide
/-- DET-4, DET-7 -/
theorem test_det_advance :
    after (exec (.detAdvance .sid1 18 0x20) { base with det := ⟨⟨3, []⟩, ⟨0, []⟩⟩ }) (·.det.sid1.step) = some 4 := by decide
theorem test_det_miss :
    after (exec (.detMiss .sid1 15 0xFE) { base with det := ⟨⟨2, []⟩, ⟨0, []⟩⟩ }) (·.det.sid1.step) = some 0 := by decide
theorem test_det_probe :
    after (exec (.detProbe .sid2) { base with det := ⟨⟨4, []⟩, ⟨4, []⟩⟩ }) (fun t => (t.det.sid1.step, t.det.sid2.step)) =
      some (4, 0) := by decide
/-- EN-10 -/
theorem test_exit :
    after (exec (.enExit .forcedReturn) { due with exitCond := some .forcedReturn }) (·.phase) =
      some (.exited .forcedReturn) := by decide
/-- EN-12 -/
theorem test_apply :
    after (exec .enApply due) (fun t => (Memory.get t.rb.sid1 24, t.readIndex, t.E)) = some (0x0F, 1, 10) := by decide
/-- EN-14 -/
theorem test_apply_read_only :
    after (exec .enApply { due with slots := [(0, ⟨.sid1, 27, 0x55, 10⟩)] }) (·.chip.sid1.core) =
      some (.testchip [] 0) := by decide
/-- EN-13 -/
theorem test_step :
    after (exec (.enStep 1)
        { base with cycleCount := 20, nowView := 20, E := 12, chip := { base.chip with sid1 := ⟨.testchip [(1, 0x10)] 0x1000, 12⟩ } })
      (fun t => (t.chip.sid1, t.E, Memory.get t.rb.sid1 27)) =
      some (⟨.testchip [(1, 0x10)] 0x2000, 13⟩, 13, 0x20) := by decide
/-- EN-1: the first sample of an epoch is taken at E = 23. -/
theorem test_step_sample :
    after (exec (.enStep 1) { base with cycleCount := 30, nowView := 30, E := 22, sinkAvailable := true })
      (fun t => (t.prevS, t.sinkOut)) = some (1, [(0, 0)]) := by decide
/-- R217's example with MIX-1: one chip, 3840 in, 1920 out. -/
theorem test_sample :
    after (exec .enSample
        { base with sinkAvailable := true, occIn := 100, chip := { base.chip with sid1 := ⟨.testchip [(24, 0x0F)] 0x2000, 0⟩ } })
      (fun t => (t.sinkOut, t.rc.n, t.rc.sum)) = some ([(1920, 1920)], 1, 100) := by decide
/-- R266: with the sink away the pair is dropped and the controller does not count. -/
theorem test_sample_dropped :
    after (exec .enSample { base with rc := ⟨3, 285, 0, 44100, 0⟩ }) (fun t => (t.sinkOut, t.rc.n)) = some ([], 3) := by
  decide
/-- R218's example. -/
theorem test_publish :
    after (exec .enPublish { base with chip := { base.chip with sid2 := ⟨.testchip [] 0x2000, 0⟩ } })
      (fun t => (t.rb.sid1, t.rb.sid2)) = some ([], [(27, 0x20)]) := by decide
/-- EN-8 -/
theorem test_idle : exec .enIdle { base with E := 1100, nowView := 1100, cycleCount := 1100 } =
    .next { base with E := 1100, nowView := 1100, cycleCount := 1100 } := rfl
/-- MIX-4, MIX-3 -/
theorem test_mix_clamp :
    after (exec (.mix ⟨30600, 30600, 0⟩) { base with weights := ⟨(256, 256), (256, 256), (0, 0)⟩ }) (·.mixed) =
      some (32767, 32767) := by decide
theorem test_mix_floor :
    after (exec (.mix ⟨BitVec.ofInt 16 (-12345), 0, 0⟩) { base with weights := ⟨(48, 121), (0, 0), (0, 0)⟩ }) (·.mixed) =
      some (-2315, -5835) := by decide
/-- MIX-11 -/
theorem test_sink_write :
    after (exec (.sinkWrite 1920 1921) { base with sinkAvailable := true }) (·.sinkOut) = some [(1920, 1921)] := by decide
/-- RATE-11 -/
theorem test_accum :
    after (exec (.rateAccum 100) { base with params := ratePar, sinkAvailable := true, rc := ⟨2, 185, 2, 44100, 215⟩ })
      (·.rc) = some ⟨3, 285, 2, 44100, 215⟩ := by decide
/-- RATE-5: the floor decides. RATE-9. -/
theorem test_window_up : after (exec .rateWindow (closing 2 793)) (·.rc) = some ⟨0, 0, 2, 44101, 215⟩ := by decide
theorem test_window_acquire :
    after (exec .rateWindow { closing 1 860 with rc := ⟨4, 860, 1, 44100, 100⟩ }) (·.rc) = some ⟨0, 0, 2, 44100, 215⟩ := by
  decide
/-- RATE-8 -/
theorem test_acquire : after (exec (.rateAcquire 97) (closing 0 388)) (·.rc.wm) = some 100 := by decide
/-- RATE-2, RATE-6 -/
theorem test_up : after (exec .rateUp (closing 2 792)) (·.rc.rate) = some 44101 := by decide
theorem test_up_limit :
    after (exec .rateUp { closing 2 792 with rc := ⟨4, 792, 2, 46305, 215⟩ }) (·.rc.rate) = some 46305 := by decide
/-- RATE-4, RATE-7 -/
theorem test_down : after (exec .rateDown (closing 2 928)) (·.rc.rate) = some 44099 := by decide
theorem test_down_limit :
    after (exec .rateDown { closing 2 928 with rc := ⟨4, 928, 2, 41895, 215⟩ }) (·.rc.rate) = some 41895 := by decide
/-- RATE-1, RATE-3 -/
theorem test_hold_low : exec .rateHold (closing 2 796) = .next (closing 2 796) := rfl
theorem test_hold_high : exec .rateHold (closing 2 924) = .next (closing 2 924) := rfl
/-- CFG-15, CFG-16 -/
theorem test_start :
    after (exec (.sessionStart refConfig 985248) State.powerOn) (fun t => (t.phase, t.clk, t.rc.rate, t.E)) =
      some (.running, 985248, 44100, 0) := by decide
theorem test_start_twice : refusal (exec (.sessionStart refConfig 985248) base) = some (.wrongPhase .running) := by
  decide
/-- RATE-13 -/
theorem test_commit :
    after (exec .resetCommit { base with resetRun := 4, rc := ⟨3, 1, 2, 44099, 215⟩ }) (fun t => (t.rc, t.resetRun)) =
      some (⟨0, 0, 0, 44100, 0⟩, 4) := by decide
/-- FLT-2 -/
theorem test_fault_stops : step { base with fault := some .queueOverflow } = .fault (.fatal .queueOverflow) := rfl
/-- A word placed for the fetch is the word the next step runs. -/
theorem test_fetch_word :
    after (step (State.reset.withFetchWord 32 0x000FD418)) (fun t => (t.slots, t.cycleCount, t.script)) =
      some ([(0, ⟨.sid1, 24, 0x0F, 1⟩)], 1, []) := by decide
/-- R122, R11: under REFCFG raw lines are the logical word; with more lines every line can be asserted. -/
theorem test_strobe_raw :
    after (step { base with script := [.strobeRaw 0x000FD418 true] }) (fun t => (t.slots, t.snap)) =
      some ([(0, ⟨.sid1, 24, 0x0F, 1⟩)], ⟨0xD418, 0x0F, false, false, 0⟩) := by decide
theorem test_wide_lines :
    ({ refParams with aw := 20, ncs := 6 } : Params).readPins (0x9D418 + 2 ^ 28 + 2 ^ 35) =
      ⟨0x9D418, 0, true, false, 0x20⟩ := by decide
/-- R289: the synthetic sink consumes at its own rate and plays silence when it is empty. -/
theorem test_sink_tick :
    tickSink 1000 ⟨1, 0, 0, 3000⟩ = ⟨0, 1, 3, 3000⟩ ∧ tickSink 1000 ⟨5, 0, 0, 3000⟩ = ⟨2, 1, 3, 3000⟩ := by decide

/-! Witnesses: for each statement with hypotheses, a state and operands that meet them, at the boundaries of its clauses. -/

/-- A snapshot of REFCFG's bus. -/
def sn (a : Nat) (read : Bool) (cs : Nat) : Snap := ⟨a, 0, read, false, cs⟩

/-- REFCFG with the shared window. -/
def shared : SessionConfig := { refConfig with mapMode := .sharedSel ⟨none, 0xD400⟩ 5 }

/-- The state after some operations, or a given one. -/
def runOr (ops : List Instr) (s : State) : State := nextOr (execAll ops s) s

theorem witness_DecodeOrder :
    (scriptReset).rst = true ∧
    refConfig.synthAt (sn 0xD43F false 0) = some .sid2 ∧
    (refConfig.synthAt (sn 0xDF5F false 2) = none ∧ refConfig.ownerAt (.chip .fm) (sn 0xDF5F false 2) = true) ∧
    (refConfig.synthAt (sn 0xDF60 false 2) = none ∧ refConfig.ownerAt (.chip .fm) (sn 0xDF60 false 2) = false) ∧
    (refConfig.readEmu = true ∧ refConfig.synthAt (sn 0xD41B true 0) = some .sid1 ∧ (sn 0xD41B true 0).reg = 27) ∧
    (refConfig.synthAt (sn 0xD41A true 0) = some .sid1 ∧ (sn 0xD41A true 0).reg ≠ 27) ∧
    (refConfig.synthAt (sn 0xDEFF true 1) = none ∧ refConfig.ownerAt .special (sn 0xDEFF true 1) = true) ∧
    (refConfig.synthAt (sn 0xDEFF true 0) = none ∧ refConfig.ownerAt .special (sn 0xDEFF true 0) = false) ∧
    ({ refConfig with readEmu := false } : SessionConfig).readEmu = false := by decide

theorem witness_WindowCovers :
    0xDF40 % 32 = 0 ∧
    [0xDF3F, 0xDF40, 0xDF5F, 0xDF60].map (fun a => (refConfig.fmWindow.region .fm).matchesSnap (sn a false 2)) =
      [false, true, true, false] ∧
    (refConfig.fmWindow.region .fm).matchesSnap (sn 0xDF40 false 1) = false ∧
    (Window.region ⟨none, 0xD400⟩ .sid1).matchesSnap (sn 0xD41F false 0) = true := by decide

theorem witness_SharedWindowSelects :
    shared.mapMode = .sharedSel ⟨none, 0xD400⟩ 5 ∧ 5 ≤ 5 ∧ Nat.testBit 0xD400 5 = false ∧
    [0xD3FF, 0xD400, 0xD41F, 0xD420, 0xD43F, 0xD440].map (fun a => shared.synthAt (sn a false 0)) =
      [none, some .sid1, some .sid1, some .sid2, some .sid2, none] := by decide

theorem witness_OneOwner :
    configViolation refParams refConfig = none ∧
    refConfig.windows = [⟨.chip .sid1, none, 0xD400, 5⟩, ⟨.chip .sid2, none, 0xD420, 5⟩, ⟨.chip .fm, some 1, 0xDF40, 5⟩,
      ⟨.special, some 0, 0xDE00, 8⟩] ∧
    Region.matchesSnap ⟨.chip .fm, some 1, 0xDF40, 5⟩ (sn 0xDF40 false 0xF) = true := by decide

theorem witness_GeneralRow :
    (5 ≤ 16 ∧ 0xDF40 < 2 ^ 16 ∧ 0xDF40 % 2 ^ 5 = 0 ∧ 1 < 4) ∧
    0x0820DF40#32 &&& rowMask ⟨.chip .fm, some 1, 0xDF40, 5⟩ = rowMatch ⟨.chip .fm, some 1, 0xDF40, 5⟩ false ∧
    (8 ≤ 16 ∧ 0xDE00 < 2 ^ 16 ∧ 0xDE00 % 2 ^ 8 = 0) ∧
    0x0500DEFF#32 &&& rowMask ⟨.special, some 0, 0xDE00, 8⟩ = rowMatch ⟨.special, some 0, 0xDE00, 8⟩ true := by
  decide

/-- The hypotheses of DecodeOfEncode for one instruction under REFCFG with the given counters. -/
def encodable (s1 s2 : Nat) (i : Instr) : Bool :=
  decide (WellFormed refParams refConfig i) && (encode refParams refConfig i).isSome &&
    (decide (i ≠ .busReadProbe1) || decide (s1 = 4)) && (decide (i ≠ .busReadProbe2) || decide (s2 = 4)) &&
    (decide (i ≠ .busReadSid1 27) || decide (s1 ≠ 4)) && (decide (i ≠ .busReadSid2 27) || decide (s2 ≠ 4)) &&
    (decide (i ≠ .busNop) || refConfig.windows.all fun r => !r.matchesSnap scriptIdle)

theorem witness_DecodeOfEncode :
    refParams.aw = 16 ∧ refParams.ncs = 4 ∧ configViolation refParams refConfig = none ∧
    [.busMeasure, .busReset, .busWriteSid1 31 0xFF, .busWriteSid2 0 0, .busWriteFm 31 0x7E, .busReadProbe1,
      .busReadSid1 26, .busReadSid2 27, .busReadSpecial 0xFF, .busNop].all (encodable 4 3) = true ∧
    encodable 0 4 .busReadProbe2 = true ∧ encodable 3 4 (.busReadSid1 27) = true := by decide

theorem witness_RecordFormats :
    (⟨.fm, 31, 0xFF, 2 ^ 64 - 1⟩ : BusEvent).ts < 2 ^ 64 ∧ (14 : BitVec 4) ≠ 15 := by decide

theorem witness_WaitReachesCycle :
    let s := { base with cycleCount := 41, script := waitUntil { base with cycleCount := 41 } 44 ++ [engineTurn] }
    Live s ∧ s.cycleCount < 44 ∧ (∀ r ∈ s.cfg.windows, r.matchesSnap scriptIdle = false) ∧
      s.script = waitUntil s 44 ++ [engineTurn] := by decide

/-- Two events in the queue, at cycles 5 and 9 of a bus at 12, neither seen by EN, and an older image on its way to BD: what
each kind of sync turn finds in the clause of StrobeRunsDecoded about it. -/
def lagging (v : ViewSync) : State :=
  { base with
    cycleCount := 12, writeIndex := 2, slots := [(0, ⟨.sid1, 24, 1, 5⟩), (1, ⟨.sid1, 24, 2, 9⟩)]
    rb := ⟨[(24, 3)], [], []⟩, rbFlight := [⟨[(24, 2)], [], []⟩], script := [.sync v] }

/-- R100, R102: a partial reading of cycleCount brings the events due by it with it, and none that is not. -/
theorem test_partial_now :
    after (step (lagging (.now 7 0))) (fun t => (t.nowView, t.wView)) = some (7, 1) ∧
    after (step (lagging (.now 4 0))) (fun t => (t.nowView, t.wView)) = some (4, 0) ∧
    after (step (lagging (.now 99 99))) (fun t => (t.nowView, t.wView)) = some (12, 2) := by decide

/-- R100: BD sees an image that rb no longer holds; another capture waits its turn. -/
theorem test_stale_image :
    after (step (lagging .image)) (fun t => (t.rbView.sid1, t.rb.sid1, t.rbFlight.length)) =
      some ([(24, 2)], [(24, 3)], 0) ∧
    after (step (lagging .capture)) (fun t => t.rbFlight.map (fun m => m.sid1)) = some [[(24, 2)], [(24, 3)]] := by
  decide

/-- The clauses about sync turns, at the ends of each range. -/
theorem witness_StrobeRunsDecoded_sync :
    let s := lagging .capture
    Live s ∧ s.nowView = 0 ∧ s.wView = 0 ∧ 0 ≤ s.cycleCount ∧ 12 = s.cycleCount ∧ 2 = s.writeIndex ∧
      s.rView = s.readIndex ∧ (∀ i, i < 2 → 0 ≤ i → 4 < (eventAt s i).ts) ∧
      s.rbFlight = ⟨[(24, 2)], [], []⟩ :: [] ∧ base.rbFlight = [] := by decide

theorem witness_StrobeRunsDecoded_raw :
    let s := { base with script := [.strobeRaw 0x000FD418 true] }
    s.fault = none ∧ s.script = .strobeRaw 0x000FD418 true :: [] ∧
      (decode s.params s.cfg s.phase (detSteps s) ((s.params.readPins 0x000FD418).onLines s.params)).toOption =
        some (.busWriteSid1 24 0x0F) := by decide

theorem witness_StrobeRunsDecoded :
    let s := { base with script := [.strobe (scriptWrite 0xD418 0x0F 0) true] }
    s.fault = none ∧ s.script = .strobe (scriptWrite 0xD418 0x0F 0) true :: [] ∧
      (decode s.params s.cfg s.phase (detSteps s) ((scriptWrite 0xD418 0x0F 0).onLines s.params)).toOption =
        some (.busWriteSid1 24 0x0F) := by decide

/-- The engine at E with the bus at 1100, an event queued at `ts`, and one engine turn in the script. -/
def atTurn (e ts : Nat) (inp : EngineInput) : State :=
  { due with E := e, slots := [(0, ⟨.sid1, 24, 0x0F, ts⟩)], script := [.engine inp] }

/-- The state in which the engine turn of `atTurn` chooses. -/
def chosen (e ts : Nat) (inp : EngineInput) : State := latchEngine inp (takeTurn [] (atTurn e ts inp))

theorem witness_EngineChoice :
    Live (atTurn 10 10 ⟨false, 0, none, 1, true⟩) ∧
    (chosen 10 10 ⟨false, 0, some .forcedReturn, 1, true⟩).exitCond = some .forcedReturn ∧
    headDue (chosen 10 10 ⟨false, 0, none, 1, true⟩) = true ∧
    (headDue (chosen 10 11 ⟨false, 0, none, 1, true⟩) = false ∧ engineBehind (chosen 10 11 ⟨false, 0, none, 1, true⟩) = true) ∧
    (headDue (chosen 1100 1101 ⟨false, 0, none, 1, true⟩) = false ∧
      engineBehind (chosen 1100 1101 ⟨false, 0, none, 1, true⟩) = false) := by decide

theorem witness_EngineChoice_fits : SliceFits 1 (chosen 10 11 ⟨false, 0, none, 1, true⟩) where
  length := by decide
  behind := by decide
  head := by decide
  quiet := fun j h h' => by omega

theorem witness_EngineChoice_long : ¬SliceFits 9 (chosen 10 11 ⟨false, 0, none, 9, true⟩) :=
  fun h => absurd h.length (by decide)

theorem witness_FaultStopsAll :
    ({ base with fault := some .queueOverflow } : State).fault = some .queueOverflow ∧ base.fault = none := by decide

theorem witness_PhaseGates :
    [Phase.notStarted, .measuring, .exited .normalExit].all
      (fun ph => decide (({ base with phase := ph } : State).fault = none ∧ ph ≠ .running)) = true := by decide

theorem witness_NeverStuck :
    Live base ∧ clauseV1 base.cfg = true ∧ base.script = [] ∧
    ({ base with script := [.strobe scriptIdle false] } : State).script = .strobe scriptIdle false :: [] ∧
    ({ base with script := [engineTurn] } : State).script = .engine ⟨false, 0, none, 1, true⟩ :: [] ∧
    ({ base with script := [.strobeRaw 0xD418 false] } : State).script = .strobeRaw 0xD418 false :: [] ∧
    ({ base with script := [.sync (.now 0 0)] } : State).script = .sync (.now 0 0) :: [] := by decide

theorem witness_NopOnlyCounts : Live base := by decide

theorem witness_PublishCopiesReadback : Live due := by decide

theorem witness_MixWeighsAndClamps : Live base ∧ base.params.sampleMin ≤ base.params.sampleMax := by decide

/-- The last free slot, for WriteSidAccepted, WriteFmAccepted and EnqueueRoomOrFatal. -/
theorem witness_WriteSidAccepted :
    let s := { base with writeIndex := 32767 }
    Live s ∧ s.cfg.active SynthId.sid1.chip = true ∧ s.cfg.active SynthId.sid2.chip = true ∧
      s.writeIndex - s.rView < s.params.qcap := by decide

theorem witness_WriteFmAccepted :
    let s := { base with writeIndex := 32767 }
    Live s ∧ s.cfg.fmEnabled = true ∧ s.writeIndex - s.rView < s.params.qcap := by decide

theorem witness_WriteOverflows :
    let s := { base with writeIndex := 32768 }
    Live s ∧ s.params.qcap ≤ s.writeIndex - s.rView ∧ s.cfg.active SynthId.sid2.chip = true ∧ s.cfg.fmEnabled = true := by
  decide

theorem witness_ProbeDrivesSentinel :
    let s := { base with det := ⟨⟨4, []⟩, ⟨4, []⟩⟩ }
    Live s ∧ s.cfg.model SynthId.sid1.chip = some .modelA ∧ s.cfg.model SynthId.sid2.chip = some .modelB ∧
      s.cfg.readEmu = true ∧ (s.det.get .sid1).step = s.params.detSeq.length ∧
      (s.det.get .sid2).step = s.params.detSeq.length := by decide

theorem witness_ReadSidDrivesImage :
    let s := { base with det := ⟨⟨4, []⟩, ⟨3, []⟩⟩ }
    Live s ∧ s.cfg.active SynthId.sid1.chip = true ∧ s.cfg.active SynthId.sid2.chip = true ∧ s.cfg.readEmu = true ∧
      ¬((s.det.get .sid1).step = s.params.detSeq.length ∧ (26 : RegIx) = s.params.probeReg) ∧
      ¬((s.det.get .sid2).step = s.params.detSeq.length ∧ (27 : RegIx) = s.params.probeReg) := by decide

theorem witness_ReadSpecialDrivesTable : Live base ∧ base.cfg.special = some ⟨some 0, 0xDE00, []⟩ := by decide

theorem witness_MeasurementLosesTraffic :
    (({ base with phase := .measuring } : State).fault = none ∧ ({ base with phase := .measuring } : State).phase = .measuring) ∧
    State.powerOn.fault = none ∧ State.powerOn.phase = .notStarted ∧
    sessionViolation State.powerOn.params refConfig 1000000 = none := by decide

theorem witness_ShortResetRun : Live base ∧ base.resetRun = 0 ∧ 3 < base.params.tRst ∧ 0 < base.params.tRst := by decide

theorem witness_QualifiedResetCommits :
    (Live { base with resetRun := 3 } ∧ ({ base with resetRun := 3 } : State).params.tRst ≤ 3 + 1) ∧
    (Live { base with resetRun := 4 } ∧ ({ base with resetRun := 4 } : State).params.tRst ≤ 4) := by decide

theorem witness_CommitIdempotent :
    1 ≤ base.params.tRst ∧ base.params.tRst ≤ ({ base with resetRun := 3 } : State).resetRun + 1 ∧
    exec .busReset { base with resetRun := 3 } = .next (busReset { base with resetRun := 3 }) ∧
    due.params = base.params ∧ due.cfg = base.cfg ∧
    exec .resetCommit { due with resetRun := 4 } = .next (resetCommit { due with resetRun := 4 }) ∧
    exec .resetCommit { base with resetRun := 4 } = .next (resetCommit { base with resetRun := 4 }) :=
  ⟨by decide, by decide, rfl, rfl, rfl, rfl, rfl⟩

theorem witness_EnqueueRoomOrFatal :
    (Live { base with writeIndex := 32767 } ∧ 32767 - base.rView < base.params.qcap) ∧
    (Live { base with writeIndex := 32768 } ∧ base.params.qcap ≤ 32768 - base.rView ∧ base.rView ≤ base.readIndex ∧
      base.params.qcap ≤ 32768 - base.readIndex) := by decide

theorem witness_CapacityBoundary :
    let s := { base with params := { refParams with qcap := 4 }, writeIndex := 7, readIndex := 7, rView := 7 }
    Live s ∧ s.readIndex = s.writeIndex ∧ s.rView = s.readIndex ∧ 0 < s.params.qcap ∧
      (List.replicate 4 (⟨.fm, 0, 1, 9⟩ : BusEvent)).length = s.params.qcap := by decide

theorem witness_DrainTakesDuePrefix :
    Live three ∧ three.readIndex ≤ three.wView ∧ ({ three with readIndex := 3 } : State).readIndex ≤ three.wView := by decide

theorem witness_PeekAndFlush : Live three ∧ three.readIndex ≠ three.wView ∧ base.readIndex = base.wView := by decide

theorem witness_WrappedIndicesAgree :
    2 ≤ 32768 ∧ (∃ e, 32768 = 2 ^ e) ∧ 32768 ≤ 2 ^ (16 - 1) ∧ 2 ^ 16 - 1 ≤ 2 ^ 16 + 32767 ∧
      (2 ^ 16 + 32767) - (2 ^ 16 - 1) ≤ 32768 ∧ (0 : Nat) ≤ 0 := by
  exact ⟨by decide, ⟨15, by decide⟩, by decide, by decide, by decide, by decide⟩

theorem witness_DetectionOperations :
    let s := { base with det := ⟨⟨3, []⟩, ⟨4, []⟩⟩ }
    Live s ∧ s.cfg.active SynthId.sid1.chip = true ∧ s.cfg.active SynthId.sid2.chip = true ∧ s.cfg.readEmu = true ∧
      s.params.detSeq[(s.det.get .sid1).step]? = some (18, 0x20) ∧
      s.params.detSeq[(s.det.get .sid1).step]? ≠ some (18, 0xFF) ∧
      s.params.detSeq[(s.det.get .sid2).step]? ≠ some (18, 0x20) ∧
      (s.det.get .sid2).step = s.params.detSeq.length := by decide

theorem witness_DetectionIsolated :
    touchesDetection .sid1 (.busWriteSid2 18 0xFF) = false ∧
    exec (.busWriteSid2 18 0xFF) base = .next (busWriteSid .sid2 18 0xFF base) ∧
    touchesDetection .sid1 .busReset = false ∧ ({ base with resetRun := 2 } : State).resetRun + 1 < base.params.tRst ∧
    exec .busReset { base with resetRun := 2 } = .next (busReset { base with resetRun := 2 }) :=
  ⟨rfl, rfl, rfl, by decide, rfl⟩

/-- The handshake of SID1 with other traffic between its writes. -/
def handshake : List Instr :=
  [.busWriteSid1 18 0xFF, .busWriteSid2 18 0xFF, .busWriteSid1 14 0xFF, .busReset, .busReset, .busWriteSid1 15 0xFF, .busNop,
    .busWriteFm 0 1, .busReset, .busWriteSid1 18 0x20, .enIdle, .busReadSid1 24]

theorem witness_HandshakeGivesSentinel :
    base.cfg.model SynthId.sid1.chip = some .modelA ∧ base.cfg.readEmu = true ∧ (base.det.get .sid1).step = 0 ∧
    handshake.filter (touchesDetection .sid1) = base.params.detSeq.map (fun e => writeSidOf .sid1 e.1 e.2) ∧
    base.resetRun + handshake.count .busReset < base.params.tRst ∧
    execAll handshake base = .next (runOr handshake base) ∧ Live (runOr handshake base) :=
  ⟨rfl, rfl, rfl, by decide, by decide, rfl, by decide⟩

/-- The handshake of SID1 as a script: engine turns, a partial reading, a reset cycle, a raw strobe, a write to the other
chip and an early read of the probe register lie between its writes. -/
def handshakeTurns : List Turn :=
  [.strobe (scriptWrite 0xD412 0xFF 0) true, engineTurn, engineTurn, .strobe (scriptRead 0xD41B 0) true, .sync (.now 1 0),
    .strobeRaw 0x00FFD40E false, .strobe scriptReset true, .strobe (scriptWrite 0xD432 0xFF 0) false,
    .strobe (scriptWrite 0xD40F 0xFF 0) true, engineTurn, .strobe (scriptWrite 0xD412 0x20 0) true]

/-- The state before that script, the probe read at its end. -/
def beforeHandshake : State := { base with script := handshakeTurns ++ [.strobe (scriptRead 0xD41B 0) true] }

/-- The state in which the probe read is next. -/
def afterHandshake : State := nextOr (runSteps handshakeTurns.length beforeHandshake) beforeHandshake

/-- The lines the script samples. -/
def handshakeLines : List Snap := handshakeTurns.filterMap (turnLines beforeHandshake.params)

theorem witness_HandshakeGivesSentinel_script :
    Live beforeHandshake ∧ beforeHandshake.cfg.model SynthId.sid1.chip = some .modelA ∧
    beforeHandshake.cfg.readEmu = true ∧ (beforeHandshake.det.get .sid1).step = 0 ∧
    beforeHandshake.script = handshakeTurns ++ .strobe (scriptRead 0xD41B 0) true :: [] ∧
    handshakeLines.filterMap (writeToChip beforeHandshake.cfg .sid1) = beforeHandshake.params.detSeq ∧
    beforeHandshake.resetRun + handshakeLines.countP (fun sn => sn.rst) < beforeHandshake.params.tRst ∧
    turnLines beforeHandshake.params (.strobe (scriptRead 0xD41B 0) true) = some (scriptRead 0xD41B 0) ∧
    ReadsProbe beforeHandshake.params beforeHandshake.cfg .sid1 (scriptRead 0xD41B 0) ∧
    runSteps handshakeTurns.length beforeHandshake = .next afterHandshake ∧ Live afterHandshake :=
  ⟨by decide, rfl, rfl, rfl, rfl, by decide, by decide, by decide +kernel, by decide +kernel, rfl,
    by decide⟩

theorem witness_HandshakeGivesSentinel_probes (before later : List Snap) (sn : Snap)
    (h : handshakeLines = before ++ sn :: later) (hp : ReadsProbe beforeHandshake.params beforeHandshake.cfg .sid1 sn) :
    later.filterMap (writeToChip beforeHandshake.cfg .sid1) ≠ [] := by
  have h1 : handshakeLines[before.length]? = some sn := by simp [h]
  have h2 : handshakeLines.drop (before.length + 1) = later := by simp [h]
  have h3 : ∀ n : Fin 7, ∀ x ∈ handshakeLines[n.val]?, ReadsProbe beforeHandshake.params beforeHandshake.cfg .sid1 x →
      (handshakeLines.drop (n.val + 1)).filterMap (writeToChip beforeHandshake.cfg .sid1) ≠ [] := by decide
  have h4 : before.length < 7 := (List.getElem?_eq_some_iff.mp h1).choose
  rw [← h2]
  exact h3 ⟨_, h4⟩ sn h1 hp

theorem witness_ApplyInjectsHead :
    Live due ∧ due.readIndex ≠ due.wView ∧ eventAt due 0 = ⟨.sid1, 24, 0x0F, 10⟩ ∧ (eventAt due 0).ts ≤ due.E := by
  decide

theorem witness_CountersOrdered : CountersOrdered due := by constructor <;> decide

theorem witness_QueueTimely : QueueTimely due where
  rising := fun i h h' => absurd h' (by simp [due])
  observed := fun i h => by
    obtain rfl : i = 0 := by have := h.2; simp only [due] at this; omega
    decide
  ahead := fun i h => by
    obtain rfl : i = 0 := by have := h.2; simp only [due] at this; omega
    decide
  coherent := fun i h _ => h.2

theorem witness_ChipsPublished : ChipsPublished due where
  lockstep := fun _ c _ => by cases c <;> rfl
  image := fun _ c _ => by cases c <;> rfl

theorem witness_AppliedAtOwnCycle : exec .enApply due = .next (applyHead due) := rfl

/-- The engine one cycle before the first sample position, with the bus ahead. -/
def behind (e : Nat) : State := { base with cycleCount := 30, nowView := 30, E := e }

theorem witness_StepClocksAndSamples :
    Live (behind 21) ∧ (21 + 1) * base.rc.rate / base.clk = base.prevS ∧ (22 + 1) * base.rc.rate / base.clk ≠ base.prevS := by
  decide

theorem witness_StepClocksAndSamples_fits (e : Nat) (h : e < 30) : SliceFits 1 (behind e) where
  length := ⟨Nat.le_refl 1, (by decide : 1 ≤ 8)⟩
  behind := h
  head := fun h => absurd rfl h
  quiet := fun j h h' => by omega

theorem witness_SliceEqualsSingleSteps : Live (behind 15) ∧ SliceFits 8 (behind 15) :=
  ⟨by decide,
    { length := by decide
      behind := by decide
      head := fun h => absurd rfl h
      quiet := fun j h h' => by
        have : (15 + j) * 44100 < 1000000 := by omega
        exact Nat.div_eq_of_lt this }⟩

theorem witness_SampleMixesWritesCounts :
    Live base ∧ base.sinkAvailable = false ∧
    (Live { base with sinkAvailable := true } ∧ ({ base with sinkAvailable := true } : State).sinkAvailable = true) := by decide

theorem witness_IdleAndExit :
    let s := { base with E := 1100, nowView := 1100, cycleCount := 1100 }
    Live s ∧ s.exitCond = none ∧ (s.readIndex ≠ s.wView → s.E < (eventAt s s.readIndex).ts) ∧ s.nowView ≤ s.E ∧
      Live { s with exitCond := some .normalExit } := by decide

theorem witness_ChipCoreLaws :
    CanonicalCore (.testchip [(24, 0x0F)] 7) ∧ (∀ m ops, ChipCore.testchip [(24, 0x0F)] 7 ≠ .history .fmchip m ops) ∧
    (26 : RegIx) ∉ readOnlyRegs ⟨[27], [27]⟩ (.testchip [(24, 0x0F)] 7) ∧
    CanonicalCore (.history .synth (some .modelA) [.clock 3, .write 24 1]) ∧
    (∀ m ops, ChipCore.history .synth (some .modelA) [.clock 3, .write 24 1] ≠ .history .fmchip m ops) ∧
    (26 : RegIx) ∉ readOnlyRegs ⟨[27], [27]⟩ (.history .synth (some .modelA) [.clock 3, .write 24 1]) :=
  ⟨⟨by decide, by decide⟩, fun _ _ h => (by cases h), by decide, rfl, fun _ _ h => (by cases h), by decide⟩

theorem witness_SinkWriteAppendsPair : Live { base with sinkAvailable := true } ∧ Live base ∧ base.sinkAvailable = false := by
  decide

theorem witness_AccumCountsOneReading :
    (Live { base with sinkAvailable := true, rc := ⟨30, 0, 0, 44100, 0⟩ } ∧ 30 + 1 ≠ base.params.window) ∧
    (Live { base with sinkAvailable := true, rc := ⟨31, 0, 0, 44100, 0⟩ } ∧ 31 + 1 = base.params.window) ∧
    base.sinkAvailable = false := by decide

/-- The averages 198, 199, 231, 232 at the edges of the dead band around 215, and the last window of the acquisition. -/
theorem witness_WindowDecides :
    (Live (closing 2 792) ∧ (closing 2 792).rc.n = ratePar.window ∧ 792 / 4 + 16 < 215) ∧
    (¬796 / 4 + 16 < 215 ∧ ¬215 + 16 < 796 / 4) ∧ ¬215 + 16 < 924 / 4 ∧ 215 + 16 < 928 / 4 ∧
    (closing 1 860).rc.mc < ratePar.acqWindows ∧ ¬(closing 2 860).rc.mc < ratePar.acqWindows := by decide

theorem witness_RateOperations :
    (Live (closing 1 388) ∧ (closing 1 388).rc.n = ratePar.window ∧ (closing 1 388).rc.mc < ratePar.acqWindows) ∧
    (Live (closing 2 792) ∧ ratePar.acqWindows ≤ (closing 2 792).rc.mc ∧ 198 = 792 / 4 ∧ 198 + 16 < 215) ∧
    (Live (closing 2 928) ∧ 232 = 928 / 4 ∧ 215 ≤ 232 + 16 ∧ 215 + 16 < 232) ∧
    (Live (closing 2 796) ∧ 199 = 796 / 4 ∧ 215 ≤ 199 + 16 ∧ 199 ≤ 215 + 16) := by decide

theorem witness_ControlBounds : ControlBounds base where
  params := by decide
  detection := fun ch => by cases ch <;> decide
  rate := fun _ => by decide
  count := fun _ => by decide
  windows := fun _ => by decide
  watermark := fun _ h => absurd h (by decide)

theorem witness_RateMovesByOne :
    base.phase = .running ∧ Instr.enSample ≠ .resetCommit ∧ exec .enSample base = .next (takeSample base) ∧
    (Instr.enSample = .busReset → base.resetRun + 1 < base.params.tRst) :=
  ⟨rfl, by decide, rfl, fun h => by cases h⟩

theorem witness_StartReachesBaseline :
    (State.powerOn.fault = none ∧ State.powerOn.phase = .notStarted ∧
      sessionViolation State.powerOn.params refConfig 1000000 = none) ∧
    sessionViolation State.powerOn.params refConfig 40000 = some .v9 ∧ base.fault = none ∧ base.phase ≠ .notStarted := by
  decide

theorem witness_ConfigurationFrozen : base.phase = .running ∧ step base = .next base := ⟨rfl, rfl⟩

theorem witness_DeadlineMissNeverRaised : exec (.busWriteFm 0 1) base = .next (busWriteFm 0 1 base) := rfl

theorem witness_OwnershipKept :
    (exec .busNop base = .next (busNop base) ∧ isTransaction .busNop = true) ∧
    (exec .enSample base = .next (takeSample base) ∧ isEngineOp .enSample = true) := ⟨⟨rfl, rfl⟩, rfl, rfl⟩

/-- One bus cycle ahead of the engine, an event pending: a write and a step, or a write and an application. -/
theorem witness_AgentsCommute :
    CountersOrdered due ∧ isTransaction (.busWriteSid1 24 1) = true ∧
    exec (.busWriteSid1 24 1) due = .next (busWriteSid .sid1 24 1 due) ∧ (busWriteSid .sid1 24 1 due).fault = none ∧
    exec .enApply due = .next (applyHead due) ∧
    CountersOrdered (behind 22) ∧ exec (.enStep 1) (behind 22) = .next (engineStep 1 (behind 22)) ∧
    exec (.busWriteSid1 24 1) (behind 22) = .next (busWriteSid .sid1 24 1 (behind 22)) ∧
    (busWriteSid .sid1 24 1 (behind 22)).fault = none :=
  ⟨witness_CountersOrdered, rfl, rfl, by decide, rfl, by constructor <;> decide, rfl, rfl, by decide⟩

theorem witness_Canonical : Canonical due where
  capacity := by decide
  slots := by decide
  images := fun c => by cases c <;> decide
  flight := fun m h => by cases h
  snapshots := fun ch => by cases ch <;> decide
  cores := fun c => by cases c <;> exact ⟨rfl, rfl⟩
  special := ⟨rfl, rfl⟩

/-- A step to a next state, for the five statements about every step. -/
theorem witness_StepKeeps : step due = .next (applyHead (latchEngine (idleInput due) due)) := rfl

end Sys2Proof.Tests
end

/-! SUPPORT. The family 10_state, part 1: what one operation and one step of the machine come to. An operation is always a
guarded one (R54, R300); a strobe ends in one of the moves of BD, an engine turn in one of the moves of EN; a predicate that
every move keeps is kept by every step. -/

namespace Sys2Proof.Machine

/-! The guard of an operation. -/

/-- The phase an operation runs in (R54, R156, R341). -/
def runsIn : Instr → Phase
  | .busMeasure => .measuring
  | .sessionStart _ _ => .notStarted
  | _ => .running

@[simp] theorem refuseInvalid_none (o : Host.Outcome State Fault Refusal) : refuseInvalid none o = o := by
  cases o <;> rfl

theorem refuseInvalid_next {v : Option Violation} {o : Host.Outcome State Fault Refusal} {t : State} :
    refuseInvalid v o = .next t ↔ v = none ∧ o = .next t := by
  cases v with
  | none => simp
  | some c => cases o <;> simp [refuseInvalid]

/-- Every operation has the form R300 and R54 give it: the fault, the phase and the guard are tested before its effect. -/
theorem exec_eq_perform (i : Instr) (s : State) :
    ∃ v name sel t, exec i s = refuseInvalid v (perform (runsIn i) s name sel t) := by
  cases i with
  | sessionStart config clk => exact ⟨_, _, _, _, rfl⟩
  | _ => exact ⟨none, _, _, _, (refuseInvalid_none _).symm⟩

/-- With a fault every operation answers it (R300). -/
theorem exec_of_fault {s : State} {f : FatalReason} (h : s.fault = some f) (i : Instr) :
    exec i s = .fault (.fatal f) := by
  obtain ⟨v, name, sel, t, he⟩ := exec_eq_perform i s
  rw [he, perform_fault h]
  rfl

/-- Outside its phase every operation is refused by that name (R54). -/
theorem exec_wrongPhase {s : State} {i : Instr} (hf : s.fault = none) (h : s.phase ≠ runsIn i) :
    exec i s = .refused (.wrongPhase s.phase) := by
  obtain ⟨v, name, sel, t, he⟩ := exec_eq_perform i s
  rw [he, perform_wrongPhase hf h]
  rfl

/-- With a fault the machine has no step (R300). -/
theorem step_of_fault {s : State} {f : FatalReason} (h : s.fault = some f) : step s = .fault (.fatal f) := by
  rw [step_eq, h]

/-- After EN.EXIT the machine has no step (R222, R319). -/
theorem step_of_exited {s : State} {r : ExitReason} (hf : s.fault = none) (h : s.phase = .exited r) :
    step s = .refused (.wrongPhase (.exited r)) := by
  have hs : fetch s = .stop (.wrongPhase (.exited r)) := by simp [fetch, h]
  rw [step_eq, hf, hs]
  rfl

/-! The moves of BD. -/

/-- What a bus transaction may leave in the detection state: nothing new, a write recorded (R157), a counter reset by
its probe (R162). -/
inductive DetMoved (s : State) : PerSynth DetState → Prop
  | kept : DetMoved s s.det
  | written (ch : SynthId) (reg : RegIx) (val : Byte) : DetMoved s (s.det.set ch (writtenDet s ch reg val))
  | probed (ch : SynthId) : DetMoved s (s.det.set ch { s.det.get ch with step := 0 })

/-- What a bus transaction comes to: a cycle is counted, and an event queued if it is a write; or the queue overflows. -/
inductive Transacted (s : State) : State → Prop
  | answered (det : PerSynth DetState) (out : BusOut) (hd : DetMoved s det) :
    Transacted s { s with out := out, resetRun := 0, cycleCount := s.cycleCount + 1, det := det }
  | queued (det : PerSynth DetState) (ev : BusEvent) (hd : DetMoved s det)
      (hroom : s.writeIndex - s.rView < s.params.qcap) (hts : ev.ts = s.cycleCount + 1) :
    Transacted s
      { s with
        out := ⟨none, true⟩, resetRun := 0, cycleCount := s.cycleCount + 1, det := det
        slots := Slots.set s.slots (slotNumber s.params.qcap s.writeIndex) ev
        writeIndex := s.writeIndex + 1 }
  | overflowed (det : PerSynth DetState) (hd : DetMoved s det)
      (hfull : s.params.qcap ≤ s.writeIndex - s.rView) :
    Transacted s { s with fault := some .queueOverflow, out := ⟨none, false⟩, resetRun := 0, det := det }

theorem busWriteSid_transacted (ch : SynthId) (reg : RegIx) (val : Byte) {s : State} (h : s.fault = none) :
    Transacted s (busWriteSid ch reg val s) := by
  have hd := DetMoved.written (s := s) ch reg val
  rcases Nat.lt_or_ge (s.writeIndex - s.rView) s.params.qcap with hr | hr
  · rw [busWriteSid_of_room h hr]
    exact .queued _ _ hd hr rfl
  · rw [busWriteSid_of_full h hr]
    exact .overflowed _ hd hr

theorem busWriteFm_transacted (reg : RegIx) (val : Byte) {s : State} (h : s.fault = none) :
    Transacted s (busWriteFm reg val s) := by
  rcases Nat.lt_or_ge (s.writeIndex - s.rView) s.params.qcap with hr | hr
  · rw [busWriteFm_of_room h hr]
    exact .queued _ _ .kept hr rfl
  · rw [busWriteFm_of_full h hr]
    exact .overflowed _ .kept hr

theorem busReadProbe_transacted (ch : SynthId) {s : State} (h : s.fault = none) :
    Transacted s (busReadProbe ch s) := by
  rw [busReadProbe_eq h]
  exact .answered _ _ (.probed ch)

theorem busReadSid_transacted (ch : SynthId) (reg : RegIx) {s : State} (h : s.fault = none) :
    Transacted s (busReadSid ch reg s) := by
  rw [busReadSid_eq h]
  exact .answered _ _ .kept

theorem busReadSpecial_transacted (off : Byte) {s : State} (h : s.fault = none) :
    Transacted s (busReadSpecial off s) := by
  rw [busReadSpecial_eq h]
  exact .answered _ _ .kept

theorem busNop_transacted {s : State} (h : s.fault = none) : Transacted s (busNop s) := by
  rw [busNop_eq h]
  exact .answered _ _ .kept

/-- Everything a bus transaction can do (R157 to R164). -/
theorem exec_transaction {i : Instr} {s t : State} (hi : isTransaction i = true) (h : exec i s = .next t) :
    s.phase = .running ∧ Transacted s t := by
  cases i with
  | busWriteSid1 reg val =>
    obtain ⟨hf, hp, -, rfl⟩ := perform_next.mp h
    exact ⟨hp, busWriteSid_transacted .sid1 reg val hf⟩
  | busWriteSid2 reg val =>
    obtain ⟨hf, hp, -, rfl⟩ := perform_next.mp h
    exact ⟨hp, busWriteSid_transacted .sid2 reg val hf⟩
  | busWriteFm reg val =>
    obtain ⟨hf, hp, -, rfl⟩ := perform_next.mp h
    exact ⟨hp, busWriteFm_transacted reg val hf⟩
  | busReadProbe1 =>
    obtain ⟨hf, hp, -, rfl⟩ := perform_next.mp h
    exact ⟨hp, busReadProbe_transacted .sid1 hf⟩
  | busReadProbe2 =>
    obtain ⟨hf, hp, -, rfl⟩ := perform_next.mp h
    exact ⟨hp, busReadProbe_transacted .sid2 hf⟩
  | busReadSid1 reg =>
    obtain ⟨hf, hp, -, rfl⟩ := perform_next.mp h
    exact ⟨hp, busReadSid_transacted .sid1 reg hf⟩
  | busReadSid2 reg =>
    obtain ⟨hf, hp, -, rfl⟩ := perform_next.mp h
    exact ⟨hp, busReadSid_transacted .sid2 reg hf⟩
  | busReadSpecial off =>
    obtain ⟨hf, hp, -, rfl⟩ := perform_next.mp h
    exact ⟨hp, busReadSpecial_transacted off hf⟩
  | busNop =>
    obtain ⟨hf, hp, -, rfl⟩ := perform_next.mp h
    exact ⟨hp, busNop_transacted hf⟩
  | _ => exact absurd hi Bool.false_ne_true

/-- What a strobe comes to: a cycle of the measurement (R166), a cycle of a short reset run (R152), a reset commit (R153),
or a transaction. -/
inductive BusMoved (s : State) : State → Prop
  | measured (hp : s.phase = .measuring) : BusMoved s { s with measureCount := s.measureCount + 1 }
  | counted (hp : s.phase = .running) (hr : s.resetRun + 1 < s.params.tRst) :
    BusMoved s { s with out := ⟨none, true⟩, resetRun := s.resetRun + 1, cycleCount := s.cycleCount + 1 }
  | committed (hp : s.phase = .running) (hr : s.params.tRst ≤ s.resetRun + 1) :
    BusMoved s (signalDone (resetCommit (countReset s)))
  | transacted {t : State} (hp : s.phase = .running) (ht : Transacted s t) : BusMoved s t

theorem busReset_moved {s : State} (hp : s.phase = .running) : BusMoved s (busReset s) := by
  rcases Nat.lt_or_ge (s.resetRun + 1) s.params.tRst with hr | hr
  · rw [busReset_below hr]
    exact .counted hp hr
  · rw [busReset_qualified hr]
    exact .committed hp hr

theorem isTransaction_decodeWrite (cfg : SessionConfig) (sn : Snap) : isTransaction (decodeWrite cfg sn) = true := by
  unfold decodeWrite
  split
  next ch _ => cases ch <;> rfl
  next => split <;> rfl

theorem isTransaction_decodeRead (p : Params) (cfg : SessionConfig) (steps : PerSynth Nat) (sn : Snap) :
    isTransaction (decodeRead p cfg steps sn) = true := by
  unfold decodeRead
  split
  next ch _ => split <;> cases ch <;> rfl
  next => unfold decodeSpecial; split <;> rfl

/-- What an activation may select (R130, R156). -/
theorem decodeState_ok {s : State} {i : Instr} (h : decodeState s = .ok i) :
    i = .busMeasure ∨ i = .busReset ∨ isTransaction i = true := by
  unfold decodeState decode at h
  cases hp : s.phase with
  | notStarted => rw [hp] at h; cases h
  | exited r => rw [hp] at h; cases h
  | measuring => rw [hp] at h; injection h with h; exact .inl h.symm
  | running =>
    rw [hp] at h
    injection h with h
    subst h
    unfold decodeRunning
    split
    · exact .inr (.inl rfl)
    · split
      · exact .inr (.inr (isTransaction_decodeRead ..))
      · exact .inr (.inr (isTransaction_decodeWrite ..))

/-- Everything the operation of a strobe can do. -/
theorem exec_decoded {s t : State} {i : Instr} (hd : decodeState s = .ok i) (h : exec i s = .next t) : BusMoved s t := by
  rcases decodeState_ok hd with rfl | rfl | hi
  · obtain ⟨-, hp, -, rfl⟩ := perform_next.mp h
    exact .measured hp
  · obtain ⟨-, hp, -, rfl⟩ := perform_next.mp h
    exact busReset_moved hp
  · obtain ⟨hp, ht⟩ := exec_transaction hi h
    exact .transacted hp ht

/-! The moves of EN. -/

/-- The next k cycles lie behind the bus and before the head event, as far as EN sees them (R214, R215). -/
structure CyclesFree (k : Nat) (s : State) : Prop where
  behind : s.E + k ≤ s.nowView
  head : s.readIndex ≠ s.wView → s.E + k ≤ (eventAt s s.readIndex).ts

/-- The guard of EN.STEP leaves the cycles of its slice free: one cycle because EN is behind and nothing is due, more by R215. -/
theorem cyclesFree_of_guard {k : Nat} {s : State} (hd : headDue s = false) (hb : engineBehind s = true)
    (hk : sliceAllowed k s = true) : CyclesFree k s := by
  by_cases h1 : k = 1
  · subst h1
    refine ⟨engineBehind_iff.mp hb, fun hv => Nat.lt_of_not_le fun hts => ?_⟩
    exact Bool.false_ne_true (hd.symm.trans (headDue_iff.mpr ⟨hv, hts⟩))
  · have hfit := (sliceAllowed_iff h1).mp hk
    exact ⟨hfit.behind, hfit.head⟩

/-- What an engine turn comes to (R211): the exit, the head event applied, a slice stepped, or nothing. -/
inductive EngineMoved (s : State) : State → Prop
  | exited (r : ExitReason) : EngineMoved s { s with phase := .exited r }
  | applied (hd : headDue s = true) : EngineMoved s (applyHead s)
  | stepped (k : Nat) (hk : CyclesFree k s) : EngineMoved s (engineStep k s)
  | idled : EngineMoved s s

/-- Everything the operation of an engine turn can do. -/
theorem exec_selected {slice : Nat} {s t : State} (h : exec (selectEngine slice s) s = .next t) : EngineMoved s t := by
  unfold selectEngine at h
  split at h
  next r _ =>
    obtain ⟨-, -, -, rfl⟩ := perform_next.mp h
    exact .exited r
  next =>
    split at h
    · obtain ⟨-, -, hd, rfl⟩ := perform_next.mp h
      exact .applied hd
    · split at h
      · obtain ⟨-, -, hg, rfl⟩ := perform_next.mp h
        simp only [Bool.and_eq_true, Bool.not_eq_true'] at hg
        obtain ⟨⟨hd, hb⟩, hk⟩ := hg
        exact .stepped _ (cyclesFree_of_guard hd hb hk)
      · obtain ⟨-, -, -, rfl⟩ := perform_next.mp h
        exact .idled

/-! The start of a session. -/

theorem sessionViolation_none {p : Params} {cfg : SessionConfig} {clk : Nat}
    (h : sessionViolation p cfg clk = none) : configViolation p cfg = none ∧ clauseV9 p clk = true := by
  unfold sessionViolation at h
  split at h
  next => cases h
  next hc => exact ⟨hc, by_contra fun h9 => by simp [h9] at h⟩

/-- Everything SESSION.START can do: both halves of a split start, one after the other (R341). -/
theorem exec_sessionStart {config : SessionConfig} {clk : Nat} {s t : State}
    (h : exec (.sessionStart config clk) s = .next t) :
    s.phase = .notStarted ∧ configViolation s.params config = none ∧ clauseV9 s.params clk = true ∧
      t = runSession clk (openSession config s) := by
  obtain ⟨hv, ht⟩ := refuseInvalid_next.mp h
  obtain ⟨hc, h9⟩ := sessionViolation_none hv
  obtain ⟨-, hp, -, rfl⟩ := perform_next.mp ht
  exact ⟨hp, hc, h9, rfl⟩

/-! The induction over one step. -/

/-- A predicate that everything a turn of the schedule is made of keeps. -/
structure TurnInvariant (P : State → Prop) : Prop where
  take : ∀ rest s, P s → P (takeTurn rest s)
  strobe : ∀ sn fresh s, P s → P (latchStrobe sn fresh s)
  inputs : ∀ inp s, P s → P (latchEngine inp s)
  sync : ∀ v s, P s → P (syncView v s)
  bus : ∀ s t, BusMoved s t → P s → P t
  engine : ∀ s t, s.phase = .running → EngineMoved s t → P s → P t
  opened : ∀ config s, s.phase = .notStarted → configViolation s.params config = none → P s → P (openSession config s)
  started : ∀ clk s, s.phase = .measuring → clauseV9 s.params clk = true → P s → P (runSession clk s)

/-- Every step keeps such a predicate. -/
theorem TurnInvariant.step {P : State → Prop} (hP : TurnInvariant P) {s t : State} (hs : P s)
    (h : Machine.step s = .next t) : P t := by
  obtain ⟨-, rest, h⟩ := step_cases h
  have hr : P (takeTurn rest s) := hP.take rest s hs
  rcases h with ⟨sn, fresh, i, hd, h⟩ | ⟨inp, hp, h⟩ | ⟨v, rfl⟩ | ⟨config, clk, h⟩ | ⟨config, hp, hc, rfl⟩ |
    ⟨clk, hp, h9, rfl⟩ | rfl
  · exact hP.bus _ _ (exec_decoded hd h) (hP.strobe sn fresh _ hr)
  · exact hP.engine _ _ (by simpa using hp) (exec_selected h) (hP.inputs inp _ hr)
  · exact hP.sync v _ hr
  · obtain ⟨hp, hc, h9, rfl⟩ := exec_sessionStart h
    exact hP.started clk _ (by simp) (by simpa using h9) (hP.opened config _ hp hc hr)
  · exact hP.opened config _ hp hc hr
  · exact hP.started clk _ hp h9 hr
  · exact hr

end Sys2Proof.Machine

/-! SUPPORT. The family 10_state, part 2: the counters in order and the queue in time (O56, O57). -/

namespace Sys2Proof.Machine

/-! What the moves do to the state words of the counters and the queue. -/

theorem eventAt_congr {s t : State} (hp : t.params = s.params) (hs : t.slots = s.slots) (i : Nat) :
    eventAt t i = eventAt s i := by
  unfold eventAt
  rw [hp, hs]

/-- EN.STEP (R214): what it leaves unchanged, and the engine's position. -/
@[simp] theorem engineStep_fields (k : Nat) (s : State) :
    (engineStep k s).params = s.params ∧ (engineStep k s).cfg = s.cfg ∧ (engineStep k s).clk = s.clk ∧
    (engineStep k s).weights = s.weights ∧ (engineStep k s).phase = s.phase ∧ (engineStep k s).fault = s.fault ∧
    (engineStep k s).cycleCount = s.cycleCount ∧ (engineStep k s).resetRun = s.resetRun ∧
    (engineStep k s).E = s.E + k ∧ (engineStep k s).slots = s.slots ∧
    (engineStep k s).writeIndex = s.writeIndex ∧ (engineStep k s).readIndex = s.readIndex ∧
    (engineStep k s).nowView = s.nowView ∧ (engineStep k s).wView = s.wView ∧ (engineStep k s).rView = s.rView ∧
    (engineStep k s).det = s.det ∧ (engineStep k s).out = s.out := by
  simp [engineStep]

/-! The counters. -/

/-- With empty indices, exact views and an engine at cycle zero the counters are in order. -/
theorem countersOrdered_of_zero {t : State} (hE : t.E = 0) (hn : t.nowView = 0) (hw : t.writeIndex = 0)
    (hr : t.readIndex = 0) (hwv : t.wView = 0) (hrv : t.rView = 0) (hrun : t.resetRun ≤ t.params.tRst) :
    CountersOrdered t where
  engine := by omega
  indices := by omega
  occupancy := by omega
  run := hrun

theorem countersOrdered_latchStrobe (sn : Snap) (fresh : Bool) {s : State} (h : CountersOrdered s) :
    CountersOrdered (latchStrobe sn fresh s) := by
  obtain ⟨hE, hi, ho, hr⟩ := h
  refine ⟨by simpa using hE, ?_, by simpa using ho, by simpa using hr⟩
  cases fresh <;> simp <;> omega

theorem countersOrdered_latchEngine (inp : EngineInput) {s : State} (h : CountersOrdered s) :
    CountersOrdered (latchEngine inp s) := by
  obtain ⟨hE, hi, ho, hr⟩ := h
  refine ⟨?_, ?_, by simpa using ho, by simpa using hr⟩ <;> cases hf : inp.fresh <;> simp [hf] <;> omega

theorem countersOrdered_syncView (v : ViewSync) {s : State} (h : CountersOrdered s) :
    CountersOrdered (syncView v s) := by
  obtain ⟨now, w, r, image, flight, he, hn, hw, hr, -, -⟩ := syncView_views v s
  obtain ⟨⟨hE, hnc⟩, ⟨hrr, hrw, hww⟩, ho, hrun⟩ := h
  have hn := hn hnc
  have hw := hw hww
  have hr := hr hrr
  rw [he]
  refine ⟨⟨?_, ?_⟩, ⟨?_, ?_, ?_⟩, ho, hrun⟩ <;> simp only <;> omega

theorem countersOrdered_transacted {s t : State} (ht : Transacted s t) (h : CountersOrdered s) : CountersOrdered t := by
  obtain ⟨⟨hE, hnc⟩, ⟨hrr, hrw, hww⟩, ho, hrun⟩ := h
  cases ht with
  | answered det out hd =>
    exact ⟨⟨hE, Nat.le_succ_of_le hnc⟩, ⟨hrr, hrw, hww⟩, ho, Nat.zero_le _⟩
  | queued det ev hd hroom hts =>
    exact ⟨⟨hE, Nat.le_succ_of_le hnc⟩, ⟨hrr, hrw, Nat.le_succ_of_le hww⟩, by simp only; omega, Nat.zero_le _⟩
  | overflowed det hd hfull =>
    exact ⟨⟨hE, hnc⟩, ⟨hrr, hrw, hww⟩, ho, Nat.zero_le _⟩

theorem countersOrdered_busMoved {s t : State} (ht : BusMoved s t) (h : CountersOrdered s) : CountersOrdered t := by
  cases ht with
  | measured hp => exact ⟨h.engine, h.indices, h.occupancy, h.run⟩
  | counted hp hr =>
    obtain ⟨⟨hE, hnc⟩, hi, ho, -⟩ := h
    exact ⟨⟨hE, Nat.le_succ_of_le hnc⟩, hi, ho, Nat.le_of_lt hr⟩
  | committed hp hr => apply countersOrdered_of_zero <;> simp
  | transacted hp ht => exact countersOrdered_transacted ht h

theorem countersOrdered_engineMoved {s t : State} (ht : EngineMoved s t) (h : CountersOrdered s) :
    CountersOrdered t := by
  obtain ⟨⟨hE, hnc⟩, ⟨hrr, hrw, hww⟩, ho, hrun⟩ := h
  cases ht with
  | exited r => exact ⟨⟨hE, hnc⟩, ⟨hrr, hrw, hww⟩, ho, hrun⟩
  | applied hd =>
    obtain ⟨hv, -⟩ := headDue_iff.mp hd
    constructor <;> simp <;> omega
  | stepped k hk =>
    have hb := hk.behind
    constructor <;> simp <;> omega
  | idled => exact ⟨⟨hE, hnc⟩, ⟨hrr, hrw, hww⟩, ho, hrun⟩

theorem turnInvariant_countersOrdered : TurnInvariant CountersOrdered where
  take _ _ h := ⟨h.engine, h.indices, h.occupancy, h.run⟩
  strobe sn fresh _ := countersOrdered_latchStrobe sn fresh
  inputs inp _ := countersOrdered_latchEngine inp
  sync v _ := countersOrdered_syncView v
  bus _ _ := countersOrdered_busMoved
  engine _ _ _ := countersOrdered_engineMoved
  opened _ _ _ _ h := ⟨h.engine, h.indices, h.occupancy, h.run⟩
  started _ _ _ _ _ := by apply countersOrdered_of_zero <;> simp

/-- Settles O56: each move keeps the order, so each step does. -/
theorem stepKeepsCounters : Obligations.StepKeepsCounters :=
  fun _ _ hc h => turnInvariant_countersOrdered.step hc h

/-! The queue. -/

/-- An empty queue is in time. -/
theorem queueTimely_of_empty {t : State} (h : t.writeIndex ≤ t.readIndex) : QueueTimely t where
  rising i h1 h2 := by omega
  observed i hi := by obtain ⟨h1, h2⟩ := hi; omega
  ahead i hi := by obtain ⟨h1, h2⟩ := hi; omega
  coherent i hi := by obtain ⟨h1, h2⟩ := hi; omega

/-- A move that writes no event, takes events from the head only and does not turn the bus back keeps the queue in time, if
it leaves the engine before what is pending and EN's view of it coherent. -/
theorem QueueTimely.of_same_slots {s t : State} (h : QueueTimely s) (hp : t.params = s.params) (hs : t.slots = s.slots)
    (hw : t.writeIndex = s.writeIndex) (hr : s.readIndex ≤ t.readIndex) (hc : s.cycleCount ≤ t.cycleCount)
    (hE : ∀ i, Pending t i → t.E ≤ (eventAt s i).ts)
    (hv : ∀ i, Pending t i → (eventAt s i).ts ≤ t.nowView → i < t.wView) : QueueTimely t := by
  have he := eventAt_congr hp hs
  have hpend : ∀ i, Pending t i → Pending s i := fun i ⟨h1, h2⟩ => ⟨by omega, by omega⟩
  refine ⟨fun i h1 h2 => ?_, fun i hi => ?_, fun i hi => ?_, fun i hi => ?_⟩
  · rw [he, he]
    exact h.rising i (by omega) (by omega)
  · rw [he]
    exact (h.observed i (hpend i hi)).trans hc
  · rw [he]
    exact hE i hi
  · rw [he]
    exact hv i hi

/-- A move that leaves alone the queue, the engine's position and EN's views keeps the queue in time. -/
theorem QueueTimely.of_same_engine {s t : State} (h : QueueTimely s) (hp : t.params = s.params)
    (hs : t.slots = s.slots) (hw : t.writeIndex = s.writeIndex) (hr : t.readIndex = s.readIndex)
    (hc : s.cycleCount ≤ t.cycleCount) (hE : t.E = s.E) (hn : t.nowView = s.nowView) (hwv : t.wView = s.wView) :
    QueueTimely t := by
  have hpend : ∀ i, Pending t i → Pending s i := fun i ⟨h1, h2⟩ => ⟨by omega, by omega⟩
  refine h.of_same_slots hp hs hw hr.ge hc (fun i hi => ?_) (fun i hi hts => ?_)
  · rw [hE]
    exact h.ahead i (hpend i hi)
  · rw [hwv]
    exact h.coherent i (hpend i hi) (hn ▸ hts)

/-- Timestamps rise along the whole of the queue (R39). -/
theorem QueueTimely.monotone {s : State} (h : QueueTimely s) {i j : Nat} (hi : s.readIndex ≤ i) (hij : i ≤ j)
    (hj : j < s.writeIndex) : (eventAt s i).ts ≤ (eventAt s j).ts := by
  induction j, hij using Nat.le_induction with
  | base => exact le_rfl
  | succ j hij ih =>
    have hlt := h.rising j (hi.trans hij) hj
    exact (ih (by omega)).trans hlt.le

/-- When the next visible event, if there is one, is not before a cycle that EN has seen, no pending event is (R213). -/
theorem QueueTimely.ahead_of_head {s : State} (h : QueueTimely s) {e i : Nat} (hn : e ≤ s.nowView)
    (hhead : s.readIndex ≠ s.wView → e ≤ (eventAt s s.readIndex).ts) (hi : Pending s i) :
    e ≤ (eventAt s i).ts := by
  obtain ⟨h1, h2⟩ := hi
  have hm := h.monotone le_rfl h1 h2
  by_cases hv : s.readIndex = s.wView
  · by_contra hlt
    have := h.coherent i ⟨h1, h2⟩ (by omega)
    omega
  · exact (hhead hv).trans hm

/-- An event queued at the new cycle, with the head within a capacity: the pending events are as before (R92). -/
theorem eventAt_queued {s t : State} {ev : BusEvent} {i : Nat} (hp : t.params = s.params)
    (hs : t.slots = Slots.set s.slots (slotNumber s.params.qcap s.writeIndex) ev)
    (hi : i < s.writeIndex) (hroom : s.writeIndex < i + s.params.qcap) : eventAt t i = eventAt s i := by
  unfold eventAt
  rw [hp, hs, slots_get_set_ne (slotNumber_ne hi hroom)]

/-- The index just written reads the event (R37). -/
theorem eventAt_queued_self {s t : State} {ev : BusEvent} (hp : t.params = s.params)
    (hs : t.slots = Slots.set s.slots (slotNumber s.params.qcap s.writeIndex) ev) :
    eventAt t s.writeIndex = ev := by
  unfold eventAt
  rw [hp, hs, Slots.get_set, if_pos rfl]

theorem queueTimely_latchEngine (inp : EngineInput) {s : State} (h : QueueTimely s) :
    QueueTimely (latchEngine inp s) := by
  cases hf : inp.fresh with
  | false => apply h.of_same_engine <;> simp [hf]
  | true =>
    apply h.of_same_slots <;> simp [hf]
    · exact fun i h1 h2 => h.ahead i ⟨h1, h2⟩
    · exact fun i _ h2 _ => h2

/-- EN reads cycleCount and then writeIndex (R102): the index it ends at is past every event due by what it saw. -/
theorem queueTimely_seeCycles (c w : Nat) {s : State} (hc : CountersOrdered s) (h : QueueTimely s) :
    QueueTimely (seeCycles c w s) := by
  obtain ⟨-, hrw, hww⟩ := hc.indices
  obtain ⟨n, hseen, -, hnext⟩ := seeCycles_wView c w s hww
  have hb := readBetween_bounds hww w
  refine h.of_same_slots (by simp) (by simp) (by simp) (by simp) (by simp) (fun i hi => ?_) (fun i hi hts => ?_)
  · simpa using h.ahead i hi
  · obtain ⟨h1, h2⟩ := hi
    simp only [seeCycles_fields] at h1 h2 hts
    by_contra hlt
    have hlate := hnext (by omega)
    have hm := h.monotone (i := readBetween s.wView s.writeIndex w + n) (by omega) (by omega) h2
    unfold eventAt at hm hts
    omega

theorem queueTimely_syncView (v : ViewSync) {s : State} (hc : CountersOrdered s) (h : QueueTimely s) :
    QueueTimely (syncView v s) := by
  cases v with
  | now c w => exact queueTimely_seeCycles c w hc h
  | writeIx i =>
    obtain ⟨-, -, hww⟩ := hc.indices
    refine h.of_same_slots rfl rfl rfl le_rfl le_rfl h.ahead fun j hj hts => ?_
    exact (h.coherent j hj hts).trans_le (readBetween_bounds hww i).1
  | readIx i => exact h.of_same_engine rfl rfl rfl rfl le_rfl rfl rfl rfl
  | capture => exact h.of_same_engine rfl rfl rfl rfl le_rfl rfl rfl rfl
  | image => apply h.of_same_engine <;> simp [syncView]

/-- A queued event is the newest of all: later than every pending one, and than all EN has seen of the bus (R39, R102). -/
theorem queueTimely_queued {s t : State} {ev : BusEvent} (hc : CountersOrdered s) (h : QueueTimely s)
    (hroom : s.writeIndex - s.rView < s.params.qcap) (hts : ev.ts = s.cycleCount + 1) (hp : t.params = s.params)
    (hs : t.slots = Slots.set s.slots (slotNumber s.params.qcap s.writeIndex) ev)
    (hw : t.writeIndex = s.writeIndex + 1) (hr : t.readIndex = s.readIndex) (hcc : t.cycleCount = s.cycleCount + 1)
    (hE : t.E = s.E) (hn : t.nowView = s.nowView) (hwv : t.wView = s.wView) : QueueTimely t := by
  obtain ⟨hEn, hnc⟩ := hc.engine
  obtain ⟨hrr, -, -⟩ := hc.indices
  have hold : ∀ i, s.readIndex ≤ i → i < s.writeIndex → eventAt t i = eventAt s i := fun i h1 h2 =>
    eventAt_queued hp hs h2 (by omega)
  have hnew : (eventAt t s.writeIndex).ts = s.cycleCount + 1 := by rw [eventAt_queued_self hp hs, hts]
  have hsplit : ∀ i, Pending t i → Pending s i ∨ i = s.writeIndex := fun i ⟨h1, h2⟩ => by
    by_cases hi : i = s.writeIndex
    · exact .inr hi
    · exact .inl ⟨by omega, by omega⟩
  refine ⟨fun i h1 h2 => ?_, fun i hi => ?_, fun i hi => ?_, fun i hi hv => ?_⟩
  · have hpi : Pending s i := ⟨by omega, by omega⟩
    rw [hold i hpi.1 hpi.2]
    by_cases hlast : i + 1 = s.writeIndex
    · have := h.observed i hpi
      rw [hlast, hnew]
      omega
    · rw [hold (i + 1) (by omega) (by omega)]
      exact h.rising i hpi.1 (by omega)
  · rcases hsplit i hi with hpi | rfl
    · have := h.observed i hpi
      rw [hold i hpi.1 hpi.2, hcc]
      omega
    · rw [hnew, hcc]
  · rcases hsplit i hi with hpi | rfl
    · rw [hold i hpi.1 hpi.2, hE]
      exact h.ahead i hpi
    · rw [hnew, hE]
      omega
  · rcases hsplit i hi with hpi | rfl
    · rw [hold i hpi.1 hpi.2, hn] at hv
      rw [hwv]
      exact h.coherent i hpi hv
    · rw [hnew, hn] at hv
      omega

theorem queueTimely_transacted {s t : State} (ht : Transacted s t) (hc : CountersOrdered s) (h : QueueTimely s) :
    QueueTimely t := by
  cases ht with
  | answered det out hd => exact h.of_same_engine rfl rfl rfl rfl (Nat.le_succ _) rfl rfl rfl
  | queued det ev hd hroom hts => exact queueTimely_queued hc h hroom hts rfl rfl rfl rfl rfl rfl rfl rfl
  | overflowed det hd hfull => exact h.of_same_engine rfl rfl rfl rfl le_rfl rfl rfl rfl

theorem queueTimely_busMoved {s t : State} (ht : BusMoved s t) (hc : CountersOrdered s) (h : QueueTimely s) :
    QueueTimely t := by
  cases ht with
  | measured hp => exact h.of_same_engine rfl rfl rfl rfl le_rfl rfl rfl rfl
  | counted hp hr => exact h.of_same_engine rfl rfl rfl rfl (Nat.le_succ _) rfl rfl rfl
  | committed hp hr => exact queueTimely_of_empty (by simp)
  | transacted hp ht => exact queueTimely_transacted ht hc h

theorem queueTimely_engineMoved {s t : State} (ht : EngineMoved s t) (h : QueueTimely s) : QueueTimely t := by
  cases ht with
  | exited r => exact h.of_same_engine rfl rfl rfl rfl le_rfl rfl rfl rfl
  | applied hd =>
    have hpend : ∀ i, Pending (applyHead s) i → Pending s i := fun i ⟨h1, h2⟩ => by
      simp only [applyHead_fields] at h1 h2
      exact ⟨by omega, h2⟩
    refine h.of_same_slots (by simp) (by simp) (by simp) (by simp) (by simp) (fun i hi => ?_) (fun i hi hts => ?_)
    · simpa using h.ahead i (hpend i hi)
    · simpa using h.coherent i (hpend i hi) (by simpa using hts)
  | stepped k hk =>
    refine h.of_same_slots (by simp) (by simp) (by simp) (by simp) (by simp) (fun i hi => ?_) (fun i hi hts => ?_)
    · simpa using h.ahead_of_head hk.behind hk.head (by simpa [Pending] using hi)
    · simpa using h.coherent i (by simpa [Pending] using hi) (by simpa using hts)
  | idled => exact h

/-- The counters and the queue together. -/
abbrev InTime (s : State) : Prop := CountersOrdered s ∧ QueueTimely s

theorem turnInvariant_inTime : TurnInvariant InTime where
  take rest s := fun ⟨hc, hq⟩ =>
    ⟨turnInvariant_countersOrdered.take rest s hc, hq.of_same_engine rfl rfl rfl rfl le_rfl rfl rfl rfl⟩
  strobe sn fresh s := fun ⟨hc, hq⟩ =>
    ⟨countersOrdered_latchStrobe sn fresh hc, by apply hq.of_same_engine <;> simp⟩
  inputs inp s := fun ⟨hc, hq⟩ => ⟨countersOrdered_latchEngine inp hc, queueTimely_latchEngine inp hq⟩
  sync v s := fun ⟨hc, hq⟩ => ⟨countersOrdered_syncView v hc, queueTimely_syncView v hc hq⟩
  bus s t ht := fun ⟨hc, hq⟩ => ⟨countersOrdered_busMoved ht hc, queueTimely_busMoved ht hc hq⟩
  engine s t _ ht := fun ⟨hc, hq⟩ => ⟨countersOrdered_engineMoved ht hc, queueTimely_engineMoved ht hq⟩
  opened config s hp hv := fun ⟨hc, hq⟩ =>
    ⟨turnInvariant_countersOrdered.opened config s hp hv hc,
      hq.of_same_engine rfl rfl rfl rfl le_rfl rfl rfl rfl⟩
  started clk s hp h9 := fun ⟨hc, _⟩ =>
    ⟨turnInvariant_countersOrdered.started clk s hp h9 hc, queueTimely_of_empty (by simp)⟩

/-- Settles O57: each move keeps the queue in time where the counters are in order, which each move keeps too. -/
theorem stepKeepsQueueTimely : Obligations.StepKeepsQueueTimely := fun _ _ hc hq h =>
  (turnInvariant_inTime.step ⟨hc, hq⟩ h).2

end Sys2Proof.Machine

/-! SUPPORT. The family 10_state, part 3: the chips in lockstep and published, and the bounds of detection and rate control
(O58, O59). -/

namespace Sys2Proof.Machine

/-! The chips. -/

/-- An image published after the last change of the chips is what each active core reads (R218). -/
theorem image_of_published {t : State} {old : PerChip Memory} (h : t.rb = onActive t.cfg old (images t.params t.chip))
    {c : ChipId} (hc : t.cfg.active c = true) : t.rb.get c = chipImage t.params.roRegs (t.chip.get c).core := by
  rw [h]
  simp [hc]

/-- EN.APPLY ends with a publication (R212). -/
theorem applyHead_rb (s : State) :
    (applyHead s).rb = onActive (applyHead s).cfg s.rb (images (applyHead s).params (applyHead s).chip) := rfl

/-- EN.STEP publishes after its clocking, and the sample check changes no chip (R214). -/
theorem engineStep_rb (k : Nat) (s : State) :
    (engineStep k s).rb =
      onActive (engineStep k s).cfg s.rb (images (engineStep k s).params (engineStep k s).chip) := by
  simp [engineStep]

/-- EN.STEP clocks every active chip by its slice (R214). -/
theorem engineStep_chip (k : Nat) {s : State} {c : ChipId} (hc : s.cfg.active c = true) :
    (engineStep k s).chip.get c = clockChip k (s.chip.get c) := by
  simp only [engineStep, sampleCheck_fields, publish_fields, clockChips_fields, onActive_get, hc, if_true]
  cases c <;> rfl

/-- EN.APPLY clocks no chip (R202, R212). -/
theorem applyHead_emu (s : State) (c : ChipId) : ((applyHead s).chip.get c).emu = (s.chip.get c).emu := by
  simp only [applyHead_fields, PerChip.get_set]
  split
  next h => rw [h]
  next => rfl

@[simp] theorem freshChips_get (p : Params) (cfg : SessionConfig) (c : ChipId) :
    (freshChips p cfg).get c = freshChip p cfg c := by
  cases c <;> rfl

/-- The fields that the chips' invariant speaks of. -/
theorem ChipsPublished.of_same_chips {s t : State} (h : ChipsPublished s) (hp : t.params = s.params)
    (hcfg : t.cfg = s.cfg) (hph : t.phase = s.phase) (hchip : t.chip = s.chip) (hE : t.E = s.E) (hrb : t.rb = s.rb) :
    ChipsPublished t := by
  refine ⟨fun hr c hc => ?_, fun hr c hc => ?_⟩
  · rw [hchip, hE]
    exact h.lockstep (hph ▸ hr) c (hcfg ▸ hc)
  · rw [hrb, hp, hchip]
    exact h.image (hph ▸ hr) c (hcfg ▸ hc)

/-- With no session running there is nothing to keep. -/
theorem chipsPublished_of_not_running {t : State} (h : t.phase ≠ .running) : ChipsPublished t :=
  ⟨fun hr => absurd hr h, fun hr => absurd hr h⟩

/-- A baseline starts every active chip anew at the engine's position and publishes it (R345, R60). -/
theorem chipsPublished_of_baseline {s t : State} (hE : t.E = 0)
    (hchip : t.chip = onActive t.cfg s.chip (freshChips t.params t.cfg))
    (hrb : t.rb = onActive t.cfg s.rb (images t.params t.chip)) : ChipsPublished t := by
  refine ⟨fun _ c hc => ?_, fun _ c hc => image_of_published hrb hc⟩
  rw [hchip, hE, onActive_get, if_pos hc, freshChips_get]
  rfl

theorem chipsPublished_syncView (v : ViewSync) {s : State} (h : ChipsPublished s) : ChipsPublished (syncView v s) := by
  obtain ⟨now, w, r, image, flight, he, -⟩ := syncView_views v s
  rw [he]
  exact h.of_same_chips rfl rfl rfl rfl rfl rfl

theorem chipsPublished_busMoved {s t : State} (ht : BusMoved s t) (h : ChipsPublished s) : ChipsPublished t := by
  cases ht with
  | measured hp => exact h.of_same_chips rfl rfl rfl rfl rfl rfl
  | counted hp hr => exact h.of_same_chips rfl rfl rfl rfl rfl rfl
  | committed hp hr => apply chipsPublished_of_baseline (s := s) <;> simp
  | transacted hp ht =>
    cases ht with
    | answered det out hd => exact h.of_same_chips rfl rfl rfl rfl rfl rfl
    | queued det ev hd hroom hts => exact h.of_same_chips rfl rfl rfl rfl rfl rfl
    | overflowed det hd hfull => exact h.of_same_chips rfl rfl rfl rfl rfl rfl

theorem chipsPublished_engineMoved {s t : State} (hr : s.phase = .running) (ht : EngineMoved s t)
    (h : ChipsPublished s) : ChipsPublished t := by
  cases ht with
  | exited r => exact chipsPublished_of_not_running Phase.noConfusion
  | applied hd =>
    refine ⟨fun _ c hc => ?_, fun _ c hc => image_of_published (applyHead_rb s) hc⟩
    rw [applyHead_emu]
    simpa using h.lockstep hr c (by simpa using hc)
  | stepped k hk =>
    refine ⟨fun _ c hc => ?_, fun _ c hc => image_of_published (engineStep_rb k s) hc⟩
    have hc : s.cfg.active c = true := by simpa using hc
    rw [engineStep_chip k hc]
    simpa [clockChip] using h.lockstep hr c hc
  | idled => exact h

theorem turnInvariant_chipsPublished : TurnInvariant ChipsPublished where
  take _ _ h := h.of_same_chips rfl rfl rfl rfl rfl rfl
  strobe _ _ _ h := by apply h.of_same_chips <;> simp
  inputs _ _ h := by apply h.of_same_chips <;> simp
  sync v _ := chipsPublished_syncView v
  bus _ _ := chipsPublished_busMoved
  engine _ _ := chipsPublished_engineMoved
  opened _ _ _ _ _ := chipsPublished_of_not_running Phase.noConfusion
  started _ s _ _ _ := chipsPublished_of_baseline (s := s) rfl rfl rfl

/-- Settles O58: what changes a chip or E is an application, a slice or a baseline, and each publishes. -/
theorem stepKeepsChipsPublished : Obligations.StepKeepsChipsPublished :=
  fun _ _ hc h => turnInvariant_chipsPublished.step hc h

/-! The rate controller. -/

/-- The bounds of the rate controller in a running session (R48, R50, R51, R264). -/
structure RateBounded (p : Params) (rc : RateState) : Prop where
  rate : p.rateMin ≤ rc.rate ∧ rc.rate ≤ p.rateMax
  count : rc.n < p.window
  windows : rc.mc ≤ p.acqWindows
  watermark : 1 ≤ rc.mc → p.minWatermark ≤ rc.wm

/-- What V8 says of the rate controller's parameters. -/
theorem clauseV8_rate {p : Params} (h : clauseV8 p = true) :
    1 ≤ p.window ∧ 1 ≤ p.acqWindows ∧ p.rateMin ≤ p.nominalRate ∧ p.nominalRate ≤ p.rateMax := by
  simp only [clauseV8, Bool.and_eq_true, decide_eq_true_eq] at h
  tauto

theorem freshRate_bounded {p : Params} (h : clauseV8 p = true) : RateBounded p (freshRate p) := by
  obtain ⟨hw, -, hlo, hhi⟩ := clauseV8_rate h
  exact ⟨⟨hlo, hhi⟩, hw, Nat.zero_le _, fun h0 => absurd h0 (by simp [freshRate])⟩

/-- Everything the decision of a window can do (R259): during acquisition it sets the watermark, after it it moves the rate
within its limits; it never touches the counts. -/
theorem rateDecide_cases (avg : Nat) (s : State) :
    (s.rc.mc < s.params.acqWindows ∧
      (rateDecide avg s).rc = { s.rc with wm := max avg s.params.minWatermark }) ∨
    (s.params.acqWindows ≤ s.rc.mc ∧ ∃ r, (rateDecide avg s).rc = { s.rc with rate := r } ∧
      (s.params.rateMin ≤ s.rc.rate ∧ s.rc.rate ≤ s.params.rateMax → s.params.rateMin ≤ r ∧ r ≤ s.params.rateMax)) := by
  unfold rateDecide
  split
  next ha => exact .inl ⟨acquiring_iff.mp ha, by simp⟩
  next ha =>
    have hm : s.params.acqWindows ≤ s.rc.mc := Nat.le_of_not_lt fun hlt => ha (acquiring_iff.mpr hlt)
    refine .inr ⟨hm, ?_⟩
    split
    · exact ⟨min (s.rc.rate + 1) s.params.rateMax, by simp, by omega⟩
    · split
      · exact ⟨max (s.rc.rate - 1) s.params.rateMin, by simp, by omega⟩
      · exact ⟨s.rc.rate, by simp, id⟩

/-- A closing window begins the next one within the bounds, however far its count had come (R259). -/
theorem rateWindow_bounded {p : Params} {s : State} (hp : s.params = p) (h8 : clauseV8 p = true)
    (hrate : p.rateMin ≤ s.rc.rate ∧ s.rc.rate ≤ p.rateMax)
    (hwm : 1 ≤ s.rc.mc → p.minWatermark ≤ s.rc.wm) : RateBounded p (rateWindow s).rc := by
  subst hp
  obtain ⟨hw, ha, -, -⟩ := clauseV8_rate h8
  simp only [rateWindow, closeWindow_fields, rateDecide_fields]
  rcases rateDecide_cases (windowAverage s) s with ⟨hm, hd⟩ | ⟨hm, r, hd, hr⟩
  · rw [hd]
    exact ⟨hrate, hw, Nat.min_le_right _ _, fun _ => Nat.le_max_right _ _⟩
  · rw [hd]
    exact ⟨hr hrate, hw, Nat.min_le_right _ _, fun _ => hwm (ha.trans hm)⟩

theorem rateAccum_bounded (occ : Nat) {p : Params} {s : State} (hp : s.params = p) (h8 : clauseV8 p = true)
    (h : RateBounded p s.rc) : RateBounded p (rateAccum occ s).rc := by
  subst hp
  obtain ⟨hrate, hn, hmc, hwm⟩ := h
  unfold rateAccum
  split
  next => exact rateWindow_bounded rfl h8 hrate hwm
  next hc =>
    have hne : s.rc.n + 1 ≠ s.params.window := fun he => hc (windowComplete_iff.mpr he)
    exact ⟨hrate, by simp only [countSample_fields]; omega, hmc, hwm⟩

theorem takeSample_bounded {p : Params} {s : State} (hp : s.params = p) (h8 : clauseV8 p = true)
    (h : RateBounded p s.rc) : RateBounded p (takeSample s).rc := by
  simp only [takeSample]
  split
  · exact rateAccum_bounded _ hp h8 h
  · exact h

theorem sampleCheck_bounded {p : Params} {s : State} (hp : s.params = p) (h8 : clauseV8 p = true)
    (h : RateBounded p s.rc) : RateBounded p (sampleCheck s).rc := by
  unfold sampleCheck
  split
  · exact takeSample_bounded hp h8 h
  · exact h

theorem engineStep_bounded (k : Nat) {s : State} (h8 : clauseV8 s.params = true) (h : RateBounded s.params s.rc) :
    RateBounded s.params (engineStep k s).rc :=
  sampleCheck_bounded rfl h8 h

theorem ControlBounds.rateBounded {s : State} (h : ControlBounds s) (hr : s.phase = .running) :
    RateBounded s.params s.rc :=
  ⟨h.rate hr, h.count hr, h.windows hr, h.watermark hr⟩

theorem controlBounds_of_rateBounded {s : State} (h8 : clauseV8 s.params = true)
    (hd : ∀ ch, (s.det.get ch).step ≤ s.params.detSeq.length)
    (hrc : s.phase = .running → RateBounded s.params s.rc) : ControlBounds s :=
  ⟨h8, hd, fun hr => (hrc hr).rate, fun hr => (hrc hr).count, fun hr => (hrc hr).windows,
    fun hr => (hrc hr).watermark⟩

/-! The detection counters. -/

/-- A write advances a counter only along the handshake, and a probe resets it (R241 to R243). -/
theorem DetMoved.step_le {s : State} {det : PerSynth DetState} (h : DetMoved s det)
    (hs : ∀ ch, (s.det.get ch).step ≤ s.params.detSeq.length) (ch : SynthId) :
    (det.get ch).step ≤ s.params.detSeq.length := by
  cases h with
  | kept => exact hs ch
  | written c reg val =>
    rw [PerSynth.get_set]
    split
    · unfold writtenDet
      split
      next he => exact (List.getElem?_eq_some_iff.mp he).choose
      next => exact Nat.zero_le _
    · exact hs ch
  | probed c =>
    rw [PerSynth.get_set]
    split
    · exact Nat.zero_le _
    · exact hs ch

/-- A baseline resets the counters of the active chips (R247). -/
theorem onActiveSynth_freshDet_le {cfg : SessionConfig} {det : PerSynth DetState} {n : Nat}
    (h : ∀ ch, (det.get ch).step ≤ n) (ch : SynthId) : ((onActiveSynth cfg det freshDet).get ch).step ≤ n := by
  rw [onActiveSynth_get]
  split
  · cases ch <;> exact Nat.zero_le _
  · exact h ch

/-! The bounds together. -/

theorem ControlBounds.of_same_control {s t : State} (h : ControlBounds s) (hp : t.params = s.params)
    (hph : t.phase = s.phase) (hd : t.det = s.det) (hrc : t.rc = s.rc) : ControlBounds t := by
  apply controlBounds_of_rateBounded
  · rw [hp]
    exact h.params
  · rw [hd, hp]
    exact h.detection
  · rw [hph, hp, hrc]
    exact h.rateBounded

theorem ControlBounds.of_detMoved {s t : State} (h : ControlBounds s) (hd : DetMoved s t.det)
    (hp : t.params = s.params) (hph : t.phase = s.phase) (hrc : t.rc = s.rc) : ControlBounds t := by
  apply controlBounds_of_rateBounded
  · rw [hp]
    exact h.params
  · rw [hp]
    exact hd.step_le h.detection
  · rw [hph, hp, hrc]
    exact h.rateBounded

theorem ControlBounds.of_baseline {s t : State} (h : ControlBounds s) (hp : t.params = s.params)
    (hd : t.det = onActiveSynth s.cfg s.det freshDet) (hrc : t.rc = freshRate s.params) : ControlBounds t := by
  apply controlBounds_of_rateBounded
  · rw [hp]
    exact h.params
  · rw [hd, hp]
    exact onActiveSynth_freshDet_le h.detection
  · rw [hp, hrc]
    exact fun _ => freshRate_bounded h.params

theorem controlBounds_syncView (v : ViewSync) {s : State} (h : ControlBounds s) : ControlBounds (syncView v s) := by
  obtain ⟨now, w, r, image, flight, he, -⟩ := syncView_views v s
  rw [he]
  exact h.of_same_control rfl rfl rfl rfl

theorem controlBounds_busMoved {s t : State} (ht : BusMoved s t) (h : ControlBounds s) : ControlBounds t := by
  cases ht with
  | measured hp => exact h.of_same_control rfl rfl rfl rfl
  | counted hp hr => exact h.of_same_control rfl rfl rfl rfl
  | committed hp hr => apply h.of_baseline <;> simp
  | transacted hp ht =>
    cases ht with
    | answered det out hd => exact h.of_detMoved hd rfl rfl rfl
    | queued det ev hd hroom hts => exact h.of_detMoved hd rfl rfl rfl
    | overflowed det hd hfull => exact h.of_detMoved hd rfl rfl rfl

theorem controlBounds_engineMoved {s t : State} (hr : s.phase = .running) (ht : EngineMoved s t)
    (h : ControlBounds s) : ControlBounds t := by
  cases ht with
  | exited r => exact controlBounds_of_rateBounded h.params h.detection fun hp => Phase.noConfusion hp
  | applied hd => apply h.of_same_control <;> simp
  | stepped k hk =>
    have hrc := engineStep_bounded k h.params (h.rateBounded hr)
    apply controlBounds_of_rateBounded <;> simp only [engineStep_fields]
    · exact h.params
    · exact h.detection
    · exact fun _ => hrc
  | idled => exact h

theorem turnInvariant_controlBounds : TurnInvariant ControlBounds where
  take _ _ h := h.of_same_control rfl rfl rfl rfl
  strobe _ _ _ h := by apply h.of_same_control <;> simp
  inputs _ _ h := by apply h.of_same_control <;> simp
  sync v _ := controlBounds_syncView v
  bus _ _ := controlBounds_busMoved
  engine _ _ := controlBounds_engineMoved
  opened _ _ _ _ h := controlBounds_of_rateBounded h.params h.detection fun hp => Phase.noConfusion hp
  started _ _ _ _ h := h.of_baseline rfl rfl rfl

/-- Settles O59: each move keeps the counters within the handshake and the controller within its limits. -/
theorem stepKeepsControlBounds : Obligations.StepKeepsControlBounds :=
  fun _ _ hb h => turnInvariant_controlBounds.step hb h

end Sys2Proof.Machine

/-! SUPPORT. The family 10_state, part 4: the frozen configuration, the ownership of the two agents, the fault and the phases,
and the reset state (O51, O52, O13, O14, O50, O60). -/

namespace Sys2Proof.Machine

/-! The configuration. -/

/-- The session of `f` has started: neither half of a start can follow (R341), and its fixed part is as it was. -/
structure StartedWith (f : Frozen) (s : State) : Prop where
  started : s.phase ≠ .notStarted
  measured : s.phase ≠ .measuring
  frozen : frozenPart s = f

/-- A move inside a session: the phase is kept or becomes Exited, the fixed part is kept. -/
theorem StartedWith.of_same {f : Frozen} {s t : State} (h : StartedWith f s)
    (hp : t.phase = s.phase ∨ ∃ r, t.phase = .exited r) (hf : frozenPart t = frozenPart s) : StartedWith f t := by
  obtain ⟨h1, h2, h3⟩ := h
  rcases hp with hp | ⟨r, hp⟩
  · exact ⟨hp ▸ h1, hp ▸ h2, hf.trans h3⟩
  · exact ⟨by simp [hp], by simp [hp], hf.trans h3⟩

theorem startedWith_busMoved {f : Frozen} {s t : State} (ht : BusMoved s t) (h : StartedWith f s) :
    StartedWith f t := by
  cases ht with
  | measured hp => exact absurd hp h.measured
  | counted hp hr => exact h.of_same (.inl rfl) rfl
  | committed hp hr => exact h.of_same (.inl (by simp)) (by simp [frozenPart])
  | transacted hp ht =>
    cases ht with
    | answered det out hd => exact h.of_same (.inl rfl) rfl
    | queued det ev hd hroom hts => exact h.of_same (.inl rfl) rfl
    | overflowed det hd hfull => exact h.of_same (.inl rfl) rfl

theorem startedWith_engineMoved {f : Frozen} {s t : State} (ht : EngineMoved s t) (h : StartedWith f s) :
    StartedWith f t := by
  cases ht with
  | exited r => exact h.of_same (.inr ⟨r, rfl⟩) rfl
  | applied hd => exact h.of_same (.inl rfl) rfl
  | stepped k hk => exact h.of_same (.inl (by simp)) (by simp [frozenPart])
  | idled => exact h

theorem startedWith_syncView {f : Frozen} (v : ViewSync) {s : State} (h : StartedWith f s) :
    StartedWith f (syncView v s) := by
  obtain ⟨now, w, r, image, flight, he, -⟩ := syncView_views v s
  rw [he]
  exact h.of_same (.inl rfl) rfl

theorem turnInvariant_startedWith (f : Frozen) : TurnInvariant (StartedWith f) where
  take _ _ h := h.of_same (.inl rfl) rfl
  strobe _ _ _ h := h.of_same (.inl (by simp)) (by simp [frozenPart])
  inputs _ _ h := h.of_same (.inl (by simp)) (by simp [frozenPart])
  sync v _ := startedWith_syncView v
  bus _ _ := startedWith_busMoved
  engine _ _ _ := startedWith_engineMoved
  opened _ _ hp _ h := absurd hp h.started
  started _ _ hp _ h := absurd hp h.measured

/-- Settles O51: in a running session no move writes the fixed part, and no half of a start has a step. -/
theorem configurationFrozen : Obligations.ConfigurationFrozen := by
  intro s t hr h
  have hs : StartedWith (frozenPart s) s := ⟨by simp [hr], by simp [hr], rfl⟩
  exact ((turnInvariant_startedWith _).step hs h).frozen

/-! Ownership. -/

theorem Transacted.engineOwned_eq {s t : State} (h : Transacted s t) : engineOwned t = engineOwned s := by
  cases h <;> rfl

theorem Transacted.phase_eq {s t : State} (h : Transacted s t) : t.phase = s.phase := by
  cases h <;> rfl

/-- An operation of EN leaves alone what BD owns, and raises nothing (R59, R313). -/
abbrev BusKept (s t : State) : Prop := busOwned t = busOwned s ∧ t.fault = s.fault

theorem takeSample_busKept (s : State) : BusKept s (takeSample s) := by simp [BusKept, busOwned]

theorem rateAccum_busKept (occ : Nat) (s : State) : BusKept s (rateAccum occ s) := by simp [BusKept, busOwned]

theorem rateWindow_busKept (s : State) : BusKept s (rateWindow s) := by simp [BusKept, busOwned]

theorem engineStep_busKept (k : Nat) (s : State) : BusKept s (engineStep k s) := by simp [BusKept, busOwned]

/-- Every operation of EN keeps what BD owns (R59, R132). -/
theorem exec_engineOp {i : Instr} {s t : State} (hi : isEngineOp i = true) (h : exec i s = .next t) : BusKept s t := by
  cases i with
  | enStep k =>
    obtain ⟨-, -, -, rfl⟩ := perform_next.mp h
    exact engineStep_busKept k s
  | enSample =>
    obtain ⟨-, -, -, rfl⟩ := perform_next.mp h
    exact takeSample_busKept s
  | rateAccum occ =>
    obtain ⟨-, -, -, rfl⟩ := perform_next.mp h
    exact rateAccum_busKept occ s
  | rateWindow =>
    obtain ⟨-, -, -, rfl⟩ := perform_next.mp h
    exact rateWindow_busKept s
  | qDrainUpTo | qPeek | enExit | enApply | enPublish | enIdle | mix | sinkWrite | rateAcquire | rateUp | rateDown
  | rateHold =>
    obtain ⟨-, -, -, rfl⟩ := perform_next.mp h
    exact ⟨rfl, rfl⟩
  | _ => exact absurd hi Bool.false_ne_true

/-- Settles O52, by the forms of the two agents' operations. -/
theorem ownershipKept : Obligations.OwnershipKept := by
  intro i s t h
  refine ⟨fun hb => ?_, fun he => exec_engineOp he h⟩
  obtain ⟨-, ht⟩ := exec_transaction hb h
  exact ⟨ht.engineOwned_eq, ht.phase_eq⟩

/-! The fault and the phases. -/

theorem raiseFatal_of_some {f g : FatalReason} {s : State} (h : s.fault = some f) : raiseFatal g s = s := by
  simp [raiseFatal, h]

/-- Settles O13: the fault is tested before everything else. -/
theorem faultStopsAll : Obligations.FaultStopsAll :=
  ⟨fun _ _ h => ⟨step_of_fault h, exec_of_fault h, fun _ => raiseFatal_of_some h⟩, fun _ _ => raiseFatal_of_none,
    rfl, rfl⟩

/-- Outside phase Running, BUS.MEASURE in Measuring and SESSION.START in NotStarted are the only operations whose phase it
can be (R54, R156, R343). -/
theorem ne_runsIn {ph : Phase} {i : Instr} (hr : ph ≠ .running) (hm : ¬(ph = .measuring ∧ i = .busMeasure))
    (hs : ¬(ph = .notStarted ∧ ∃ config clk, i = .sessionStart config clk)) : ph ≠ runsIn i := by
  intro h
  cases i with
  | busMeasure => exact hm ⟨h, rfl⟩
  | sessionStart config clk => exact hs ⟨h, config, clk, rfl⟩
  | _ => exact hr h

/-- Settles O14: each operation tests its phase, and a step tests for Exited first. -/
theorem phaseGates : Obligations.PhaseGates := fun _ hf =>
  ⟨fun _ hr hm hs => exec_wrongPhase hf (ne_runsIn hr hm hs), fun _ h => step_of_exited hf h⟩

/-! The reset state. -/

theorem atBaseline_reset : AtBaseline State.reset where
  queue := ⟨rfl, rfl⟩
  position := ⟨rfl, rfl, rfl⟩
  views := ⟨rfl, rfl, rfl, rfl, rfl⟩
  rate := rfl
  chips c _ := by cases c <;> rfl
  detection ch _ := by cases ch <;> exact ⟨rfl, fun _ => rfl⟩
  image c _ r := by
    revert r
    cases c <;> decide

/-- Settles O50, by evaluation of the start from the power-on state. -/
theorem resetIsAfterStart : Obligations.ResetIsAfterStart := ⟨rfl, atBaseline_reset, rfl, rfl⟩

theorem canonical_reset : Canonical State.reset where
  capacity := by decide
  slots := rfl
  images c := by cases c <;> exact ⟨⟨rfl, rfl⟩, rfl, rfl⟩
  flight m h := by cases h
  snapshots ch := by cases ch <;> exact ⟨rfl, rfl⟩
  cores c := by cases c <;> exact ⟨rfl, rfl⟩
  special := ⟨rfl, rfl⟩

theorem countersOrdered_reset : CountersOrdered State.reset :=
  countersOrdered_of_zero rfl rfl rfl rfl rfl rfl (Nat.zero_le _)

theorem chipsPublished_reset : ChipsPublished State.reset where
  lockstep _ c _ := by cases c <;> rfl
  image _ c _ := by cases c <;> rfl

theorem controlBounds_reset : ControlBounds State.reset :=
  controlBounds_of_rateBounded rfl (fun ch => by cases ch <;> exact Nat.zero_le _)
    fun _ => freshRate_bounded (p := refParams) rfl

/-- Settles O60, invariant by invariant. -/
theorem resetMeetsInvariants : Obligations.ResetMeetsInvariants :=
  ⟨canonical_reset, countersOrdered_reset, queueTimely_of_empty le_rfl, chipsPublished_reset, controlBounds_reset⟩

end Sys2Proof.Machine

/-! SUPPORT. The family 20_memory, part 1: the window match (O3, O4, O5). -/

namespace Sys2Proof

/-! Aligned windows. -/

/-- An aligned chip window is the 32 addresses from its base on (R84, R85). -/
theorem matchesSnap_window {w : Window} (c : ChipId) {sn : Snap} (hb : w.base % 32 = 0) :
    (w.region c).matchesSnap sn = true ↔
      (w.cs = none ∨ ∃ i, w.cs = some i ∧ sn.cs.testBit i = true) ∧ w.base ≤ sn.a ∧ sn.a ≤ w.base + 31 := by
  have hr := matchesSnap_range (r := w.region c) (sn := sn) hb
  have hlast : sn.a < w.base + 32 ↔ sn.a ≤ w.base + 31 := by omega
  rw [hr, csMatches_iff]
  exact and_congr_right fun _ => and_congr_right fun _ => hlast

/-- The register index is the address within its block of 32 (R123). -/
theorem Snap.reg_toNat (sn : Snap) : sn.reg.toNat = sn.a % 32 := BitVec.toNat_ofNat _ _

/-- Settles O3: the match is a range of addresses, and in it the low five bits are the distance from the aligned base. -/
theorem windowCovers : Obligations.WindowCovers := by
  intro w c sn hb
  refine ⟨matchesSnap_window c hb, fun hm => ?_⟩
  obtain ⟨-, hlo, hhi⟩ := (matchesSnap_window c hb).mp hm
  rw [Snap.reg_toNat]
  omega

/-! The shared window. -/

/-- The entry of a synthesizer chip in the shared mode: SID2 has the select bit set (R87, R88). -/
def sharedRegion (w : Window) (sel : Nat) (ch : SynthId) : Region :=
  match ch with
  | .sid1 => w.region .sid1
  | .sid2 => (Window.mk w.cs (w.base ||| 2 ^ sel)).region .sid2

theorem synth_sharedRegion (w : Window) (sel : Nat) (ch : SynthId) : (sharedRegion w sel ch).synth = some ch := by
  cases ch <;> rfl

/-- A bit of the base of a chip's shared entry: the select bit tells the chip, the others are those of the window. -/
theorem testBit_sharedRegion_base {w : Window} {sel : Nat} (hw : w.base.testBit sel = false) (ch : SynthId) (i : Nat) :
    (sharedRegion w sel ch).base.testBit i = if i = sel then decide (ch = .sid2) else w.base.testBit i := by
  by_cases hi : i = sel
  · subst hi
    cases ch <;> simp [sharedRegion, Window.region, hw]
  · cases ch <;> simp [sharedRegion, Window.region, hi, Nat.testBit_two_pow_of_ne (Ne.symm hi)]

/-- A snapshot matches a chip's shared entry when the address agrees with the window but for the select bit, which is the
chip's (R87). -/
theorem matchesSnap_sharedRegion {w : Window} {sel : Nat} {sn : Snap} (h5 : 5 ≤ sel) (hw : w.base.testBit sel = false)
    (ch : SynthId) :
    (sharedRegion w sel ch).matchesSnap sn = true ↔
      (w.cs = none ∨ ∃ i, w.cs = some i ∧ sn.cs.testBit i = true) ∧
      (∀ i, 5 ≤ i → i ≠ sel → sn.a.testBit i = w.base.testBit i) ∧ sn.a.testBit sel = decide (ch = .sid2) := by
  have hcs : (sharedRegion w sel ch).cs = w.cs := by cases ch <;> rfl
  have hbits : (sharedRegion w sel ch).bits = 5 := by cases ch <;> rfl
  rw [matchesSnap_iff, hcs, hbits, csMatches_iff, div_pow_eq_iff]
  refine and_congr_right fun _ => ⟨fun h => ⟨fun i hi hne => ?_, ?_⟩, fun ⟨hne, hsel⟩ i hi => ?_⟩
  · rw [h i hi, testBit_sharedRegion_base hw, if_neg hne]
  · rw [h sel h5, testBit_sharedRegion_base hw, if_pos rfl]
  · rw [testBit_sharedRegion_base hw]
    split
    next he => rw [he, hsel]
    next hi' => exact hne i hi hi'

/-- In the shared mode the decode looks at SID1's entry, then at SID2's (R88, R124). -/
theorem synthAt_shared {cfg : SessionConfig} {w : Window} {sel : Nat} (hm : cfg.mapMode = .sharedSel w sel) (sn : Snap) :
    cfg.synthAt sn =
      if (sharedRegion w sel .sid1).matchesSnap sn then some .sid1
      else if (sharedRegion w sel .sid2).matchesSnap sn then some .sid2
      else none := by
  have hl : cfg.mapMode.regions = [sharedRegion w sel .sid1, sharedRegion w sel .sid2] := by rw [hm]; rfl
  rw [synthAt_eq, hl]
  split_ifs with h1 h2
  · simp [h1, synth_sharedRegion]
  · simp [h1, h2, synth_sharedRegion]
  · simp [h1, h2]

/-- Settles O4: the two shared entries exclude each other by the select bit, so the order of the decode does not matter. -/
theorem sharedWindowSelects : Obligations.SharedWindowSelects := by
  intro cfg w sel sn ch hm h5 hw
  rw [← matchesSnap_sharedRegion h5 hw, synthAt_shared hm]
  have hexcl : (sharedRegion w sel .sid1).matchesSnap sn = true → ¬(sharedRegion w sel .sid2).matchesSnap sn = true := by
    intro h1 h2
    obtain ⟨-, -, hsel1⟩ := (matchesSnap_sharedRegion h5 hw .sid1).mp h1
    obtain ⟨-, -, hsel2⟩ := (matchesSnap_sharedRegion h5 hw .sid2).mp h2
    exact absurd (hsel1.symm.trans hsel2) (by decide)
  by_cases h1 : (sharedRegion w sel .sid1).matchesSnap sn = true
  · have h2 := hexcl h1
    cases ch <;> simp [h1, h2]
  · cases ch <;> simp [h1]

/-! Disjoint windows. -/

theorem regionsDisjoint_iff {r t : Region} :
    regionsDisjoint r t = true ↔ r.base + 2 ^ r.bits ≤ t.base ∨ t.base + 2 ^ t.bits ≤ r.base := by
  simp [regionsDisjoint]

theorem regionsDisjoint_symm {r t : Region} (h : regionsDisjoint r t = true) : regionsDisjoint t r = true :=
  regionsDisjoint_iff.mpr (regionsDisjoint_iff.mp h).symm

/-- A snapshot matches only one of two disjoint aligned regions. -/
theorem not_matchesSnap_of_disjoint {r t : Region} {sn : Snap} (hr : r.base % 2 ^ r.bits = 0)
    (ht : t.base % 2 ^ t.bits = 0) (hd : regionsDisjoint r t = true) (hm : r.matchesSnap sn = true) :
    ¬t.matchesSnap sn = true := by
  intro hm'
  obtain ⟨-, hlo, hhi⟩ := (matchesSnap_range hr).mp hm
  obtain ⟨-, hlo', hhi'⟩ := (matchesSnap_range ht).mp hm'
  rcases regionsDisjoint_iff.mp hd with h | h <;> omega

/-- Settles O5: V2 and V4 align the entries, V5 keeps any two of them apart. -/
theorem oneOwner : Obligations.OneOwner := by
  intro p cfg sn r t hv hr ht hmr hmt
  obtain ⟨-, -, -, -, h5, -⟩ := configViolation_none hv
  obtain ⟨hbr, -⟩ := windows_aligned hv r hr
  obtain ⟨hbt, -⟩ := windows_aligned hv t ht
  have : Std.Symm fun r t => regionsDisjoint r t = true := ⟨fun _ _ => regionsDisjoint_symm⟩
  by_contra hne
  have hd := (allDisjoint_pairwise h5).forall hr ht hne
  exact not_matchesSnap_of_disjoint hbr hbt hd hmr hmt

end Sys2Proof

/-! SUPPORT. The family 20_memory, part 2: the two agents commute (O53). Each agent's words can be replaced by those of
another state; an operation of the one agent commutes with a replacement of the other's words, as far as it does not read
them. -/

namespace Sys2Proof.Machine

/-- `s` with the words BD owns (R59) as they are in `w`. -/
def withBus (w s : State) : State :=
  { s with
    cycleCount := w.cycleCount, resetRun := w.resetRun, slots := w.slots, writeIndex := w.writeIndex, det := w.det
    out := w.out }

/-- `s` with the words EN owns (R59), what it left in `mixed` and its sink as they are in `w`. -/
def withEngine (w s : State) : State :=
  { s with
    readIndex := w.readIndex, chip := w.chip, E := w.E, prevS := w.prevS, rb := w.rb, rc := w.rc
    sinkOut := w.sinkOut, mixed := w.mixed, synth := w.synth }

theorem withBus_withEngine (w v s : State) : withBus w (withEngine v s) = withEngine v (withBus w s) := rfl

/-! BD leaves EN's words alone, and does not read them. -/

/-- A transaction that raises nothing changes only what BD owns (R59). -/
theorem Transacted.withBus_eq {s t : State} (h : Transacted s t) (ht : t.fault = none) :
    withBus t s = t := by
  cases h with
  | answered det out hd => rfl
  | queued det ev hd hroom hts => rfl
  | overflowed det hd hfull => cases ht

theorem completeActivation_withEngine (w : State) (c : Nat) (s : State) :
    completeActivation c (withEngine w s) = withEngine w (completeActivation c s) := by
  cases hf : s.fault with
  | none => rw [completeActivation_of_none hf, completeActivation_of_none (s := withEngine w s) hf]; rfl
  | some f => rw [completeActivation_of_some hf, completeActivation_of_some (s := withEngine w s) hf]

/-- An activation does not read EN's words where its body does not. -/
theorem activation_withEngine {w : State} {body : Nat → State → State}
    (hb : ∀ c s, body c (withEngine w s) = withEngine w (body c s)) (s : State) :
    activation body (withEngine w s) = withEngine w (activation body s) := by
  have hbody : body (s.cycleCount + 1) (enterActivation (withEngine w s)) =
      withEngine w (body (s.cycleCount + 1) (enterActivation s)) :=
    hb _ (enterActivation s)
  have hcycle : (withEngine w s).cycleCount = s.cycleCount := rfl
  unfold activation
  rw [hcycle, hbody, completeActivation_withEngine]

theorem raiseFatal_withEngine (w : State) (f : FatalReason) (s : State) :
    raiseFatal f (withEngine w s) = withEngine w (raiseFatal f s) := by
  cases hf : s.fault with
  | none => rw [raiseFatal_of_none hf, raiseFatal_of_none (s := withEngine w s) hf]; rfl
  | some g => rw [raiseFatal_of_some hf, raiseFatal_of_some (s := withEngine w s) hf]

/-- Q.ENQUEUE tests BD's view of readIndex, not the index itself (R100, R180). -/
theorem enqueue_withEngine (w : State) (ev : BusEvent) (s : State) :
    enqueue ev (withEngine w s) = withEngine w (enqueue ev s) := by
  rcases Nat.lt_or_ge (s.writeIndex - s.rView) s.params.qcap with hr | hr
  · rw [enqueue_of_room hr, enqueue_of_room (s := withEngine w s) hr]; rfl
  · rw [enqueue_of_full hr, enqueue_of_full (s := withEngine w s) hr, raiseFatal_withEngine]

theorem busWriteSid_withEngine (w : State) (ch : SynthId) (reg : RegIx) (val : Byte) (s : State) :
    busWriteSid ch reg val (withEngine w s) = withEngine w (busWriteSid ch reg val s) := by
  unfold busWriteSid
  refine activation_withEngine (fun _ _ => ?_) s
  rw [recordWrite_detWrite, recordWrite_detWrite, ← enqueue_withEngine]
  rfl

theorem busWriteFm_withEngine (w : State) (reg : RegIx) (val : Byte) (s : State) :
    busWriteFm reg val (withEngine w s) = withEngine w (busWriteFm reg val s) :=
  activation_withEngine (fun _ _ => enqueue_withEngine ..) s

theorem busReadProbe_withEngine (w : State) (ch : SynthId) (s : State) :
    busReadProbe ch (withEngine w s) = withEngine w (busReadProbe ch s) := by
  unfold busReadProbe
  refine activation_withEngine (fun _ _ => ?_) s
  rfl

/-- A read of a chip answers from BD's view of the image, not from the image itself (R100, R160). -/
theorem busReadSid_withEngine (w : State) (ch : SynthId) (reg : RegIx) (s : State) :
    busReadSid ch reg (withEngine w s) = withEngine w (busReadSid ch reg s) := by
  unfold busReadSid
  refine activation_withEngine (fun _ _ => ?_) s
  rfl

theorem busReadSpecial_withEngine (w : State) (off : Byte) (s : State) :
    busReadSpecial off (withEngine w s) = withEngine w (busReadSpecial off s) := by
  unfold busReadSpecial
  refine activation_withEngine (fun _ _ => ?_) s
  rfl

theorem busNop_withEngine (w s : State) : busNop (withEngine w s) = withEngine w (busNop s) := by
  unfold busNop
  refine activation_withEngine (fun _ _ => ?_) s
  rfl

/-- A bus transaction does not read EN's words: with others in their place it is possible too, and does the same. -/
theorem exec_transaction_withEngine {b : Instr} {s t : State} (w : State) (hb : isTransaction b = true)
    (h : exec b s = .next t) : exec b (withEngine w s) = .next (withEngine w t) := by
  cases b with
  | busWriteSid1 reg val =>
    obtain ⟨hf, hp, hg, rfl⟩ := perform_next.mp h
    exact perform_next.mpr ⟨hf, hp, hg, busWriteSid_withEngine w .sid1 reg val s⟩
  | busWriteSid2 reg val =>
    obtain ⟨hf, hp, hg, rfl⟩ := perform_next.mp h
    exact perform_next.mpr ⟨hf, hp, hg, busWriteSid_withEngine w .sid2 reg val s⟩
  | busWriteFm reg val =>
    obtain ⟨hf, hp, hg, rfl⟩ := perform_next.mp h
    exact perform_next.mpr ⟨hf, hp, hg, busWriteFm_withEngine w reg val s⟩
  | busReadProbe1 =>
    obtain ⟨hf, hp, hg, rfl⟩ := perform_next.mp h
    exact perform_next.mpr ⟨hf, hp, hg, busReadProbe_withEngine w .sid1 s⟩
  | busReadProbe2 =>
    obtain ⟨hf, hp, hg, rfl⟩ := perform_next.mp h
    exact perform_next.mpr ⟨hf, hp, hg, busReadProbe_withEngine w .sid2 s⟩
  | busReadSid1 reg =>
    obtain ⟨hf, hp, hg, rfl⟩ := perform_next.mp h
    exact perform_next.mpr ⟨hf, hp, hg, busReadSid_withEngine w .sid1 reg s⟩
  | busReadSid2 reg =>
    obtain ⟨hf, hp, hg, rfl⟩ := perform_next.mp h
    exact perform_next.mpr ⟨hf, hp, hg, busReadSid_withEngine w .sid2 reg s⟩
  | busReadSpecial off =>
    obtain ⟨hf, hp, hg, rfl⟩ := perform_next.mp h
    exact perform_next.mpr ⟨hf, hp, hg, busReadSpecial_withEngine w off s⟩
  | busNop =>
    obtain ⟨hf, hp, hg, rfl⟩ := perform_next.mp h
    exact perform_next.mpr ⟨hf, hp, hg, busNop_withEngine w s⟩
  | _ => exact absurd hb Bool.false_ne_true

/-! EN leaves BD's words alone, and of them reads only the head event. -/

/-- From `s` to `t` only what EN owns, `mixed` and its sink have changed. -/
abbrev EngineOnly (s t : State) : Prop := withEngine t s = t

theorem EngineOnly.trans {s t u : State} (h : EngineOnly s t) (h' : EngineOnly t u) : EngineOnly s u := by
  calc withEngine u s = withEngine u (withEngine t s) := rfl
    _ = withEngine u t := by rw [h]
    _ = u := h'

theorem rateAccum_engineOnly (occ : Nat) (s : State) : EngineOnly s (rateAccum occ s) := by
  unfold rateAccum rateWindow rateDecide
  split_ifs <;> rfl

theorem takeSample_engineOnly (s : State) : EngineOnly s (takeSample s) := by
  unfold takeSample
  dsimp only
  split
  · exact EngineOnly.trans rfl (rateAccum_engineOnly _ _)
  · rfl

/-- EN.STEP changes only what EN owns (R59, R214). -/
theorem engineStep_engineOnly (k : Nat) (s : State) : EngineOnly s (engineStep k s) := by
  unfold engineStep sampleCheck
  split
  · exact EngineOnly.trans rfl (takeSample_engineOnly _)
  · rfl

theorem rateDecide_withBus (w : State) (avg : Nat) (s : State) :
    rateDecide avg (withBus w s) = withBus w (rateDecide avg s) := by
  unfold rateDecide
  simp only [apply_ite (withBus w)]
  rfl

theorem rateAccum_withBus (w : State) (occ : Nat) (s : State) :
    rateAccum occ (withBus w s) = withBus w (rateAccum occ s) := by
  have hw : rateWindow (withBus w (countSample occ s)) = withBus w (rateWindow (countSample occ s)) :=
    congrArg closeWindow (rateDecide_withBus w _ _)
  unfold rateAccum
  rw [apply_ite (withBus w), ← hw]
  rfl

theorem takeSample_withBus (w s : State) : takeSample (withBus w s) = withBus w (takeSample s) := by
  unfold takeSample
  dsimp only
  rw [apply_ite (withBus w), ← rateAccum_withBus]
  rfl

/-- EN.STEP reads no word of BD: the cycle count and writeIndex reach it as views (R100). -/
theorem engineStep_withBus (w : State) (k : Nat) (s : State) :
    engineStep k (withBus w s) = withBus w (engineStep k s) := by
  unfold engineStep sampleCheck
  rw [apply_ite (withBus w), ← takeSample_withBus]
  rfl

/-- The event at the head of the queue, if EN sees one, is the same with BD's words as they are in `w`. -/
def HeadKept (w s : State) : Prop := headVisible s = true → headEvent (withBus w s) = headEvent s

theorem headDue_withBus {w s : State} (h : HeadKept w s) : headDue (withBus w s) = headDue s := by
  have hv : headVisible (withBus w s) = headVisible s := rfl
  unfold headDue
  rw [hv]
  cases hs : headVisible s with
  | false => rfl
  | true => rw [h hs]; rfl

theorem sliceAllowed_withBus {w s : State} (h : HeadKept w s) (k : Nat) :
    sliceAllowed k (withBus w s) = sliceAllowed k s := by
  have hpeek : peek (withBus w s) = peek s := by
    unfold peek
    exact ite_congr rfl (fun hv => by rw [h hv]) fun _ => rfl
  have hhead : sliceBeforeHead k (withBus w s) = sliceBeforeHead k s := by
    unfold sliceBeforeHead
    rw [hpeek]
    rfl
  unfold sliceAllowed
  rw [hhead]
  rfl

theorem applyHead_withBus {w s : State} (h : headEvent (withBus w s) = headEvent s) :
    applyHead (withBus w s) = withBus w (applyHead s) := by
  unfold applyHead
  rw [h]
  rfl

/-- An application, a slice and an idle turn change only what EN owns (R59, R212, R214, R220). -/
theorem exec_engine_engineOnly {e : Instr} {s u : State} (he : e = .enApply ∨ e = .enIdle ∨ ∃ k, e = .enStep k)
    (h : exec e s = .next u) : EngineOnly s u := by
  rcases he with rfl | rfl | ⟨k, rfl⟩
  · obtain ⟨-, -, -, rfl⟩ := perform_next.mp h
    rfl
  · obtain ⟨-, -, -, rfl⟩ := perform_next.mp h
    rfl
  · obtain ⟨-, -, -, rfl⟩ := perform_next.mp h
    exact engineStep_engineOnly k s

/-- With the head kept an application, a slice and an idle turn are possible with other words of BD too, and do the same. -/
theorem exec_engine_withBus {e : Instr} {w s u : State} (he : e = .enApply ∨ e = .enIdle ∨ ∃ k, e = .enStep k)
    (hk : HeadKept w s) (h : exec e s = .next u) : exec e (withBus w s) = .next (withBus w u) := by
  have hdue := headDue_withBus hk
  rcases he with rfl | rfl | ⟨k, rfl⟩
  · obtain ⟨hf, hp, hg, rfl⟩ := perform_next.mp h
    have hv := headVisible_iff.mpr (headDue_iff.mp hg).1
    exact perform_next.mpr ⟨hf, hp, hdue.trans hg, applyHead_withBus (hk hv)⟩
  · obtain ⟨hf, hp, hg, rfl⟩ := perform_next.mp h
    exact perform_next.mpr ⟨hf, hp, by rw [hdue]; exact hg, rfl⟩
  · obtain ⟨hf, hp, hg, rfl⟩ := perform_next.mp h
    exact perform_next.mpr ⟨hf, hp, by rw [hdue, sliceAllowed_withBus hk]; exact hg, engineStep_withBus w k s⟩

/-- A transaction keeps the head that EN sees: where the queue has room, the slot it writes is another one (R92, R104). -/
theorem Transacted.headKept {s t : State} (h : Transacted s t) (hc : CountersOrdered s) : HeadKept t s := by
  obtain ⟨hrr, hrw, hww⟩ := hc.indices
  intro hv
  have hne := headVisible_iff.mp hv
  cases h with
  | answered det out hd => rfl
  | queued det ev hd hroom hts =>
    have hpending : s.readIndex < s.writeIndex := by omega
    have hwithin : s.writeIndex < s.readIndex + s.params.qcap := by omega
    exact eventAt_queued rfl rfl hpending hwithin
  | overflowed det hd hfull => rfl

/-- Settles O53: each agent moves as before when the other's words are replaced by what they become, and both orders end in
the state with the words of either agent as that agent leaves them. -/
theorem agentsCommute : Obligations.AgentsCommute := by
  intro b e s t u hc hb he hbt ht heu
  obtain ⟨-, hmoved⟩ := exec_transaction hb hbt
  have hts : withBus t s = t := hmoved.withBus_eq ht
  have hus : withEngine u s = u := exec_engine_engineOnly he heu
  have het := exec_engine_withBus he (hmoved.headKept hc) heu
  have hbu := exec_transaction_withEngine u hb hbt
  have hsame : withEngine u t = withBus t u := by
    calc withEngine u t = withEngine u (withBus t s) := by rw [hts]
      _ = withBus t (withEngine u s) := (withBus_withEngine t u s).symm
      _ = withBus t u := by rw [hus]
  rw [hts] at het
  rw [hus, hsame] at hbu
  exact ⟨withBus t u, het, hbu⟩

end Sys2Proof.Machine

/-! SUPPORT. The family 30_encoding, part 1: the decode order of R130 line by line (O1, O2). -/

namespace Sys2Proof

section
variable {p : Params} {cfg : SessionConfig} {steps : PerSynth Nat} {sn : Snap}

/-- Line 2 of R130. -/
theorem decodeRunning_of_reset (h : sn.rst = true) : decodeRunning p cfg steps sn = .busReset := if_pos h

theorem decodeRunning_of_write (hrst : sn.rst = false) (hrw : sn.rw = false) :
    decodeRunning p cfg steps sn = decodeWrite cfg sn := by
  simp [decodeRunning, hrst, hrw]

theorem decodeRunning_of_read (hrst : sn.rst = false) (hrw : sn.rw = true) :
    decodeRunning p cfg steps sn = decodeRead p cfg steps sn := by
  simp [decodeRunning, hrst, hrw]

/-- Line 3 of R130. -/
theorem decodeWrite_of_synth {ch : SynthId} (h : cfg.synthAt sn = some ch) :
    decodeWrite cfg sn = writeSidOf ch sn.reg sn.d := by
  rw [decodeWrite, h]

/-- Line 4 of R130. -/
theorem decodeWrite_of_fm (h : cfg.synthAt sn = none) (hfm : cfg.ownerAt (.chip .fm) sn = true) :
    decodeWrite cfg sn = .busWriteFm sn.reg sn.d := by
  rw [decodeWrite, h]
  exact if_pos hfm

/-- Line 8 of R130, for a write. -/
theorem decodeWrite_of_unowned (h : cfg.synthAt sn = none) (hfm : cfg.ownerAt (.chip .fm) sn = false) :
    decodeWrite cfg sn = .busNop := by
  simp [decodeWrite, h, hfm]

/-- Lines 5 and 6 of R130. -/
theorem decodeRead_of_synth {ch : SynthId} (he : cfg.readEmu = true) (h : cfg.synthAt sn = some ch) :
    decodeRead p cfg steps sn =
      if steps.get ch = p.detSeq.length ∧ sn.reg = p.probeReg then readProbeOf ch else readSidOf ch sn.reg := by
  simp [decodeRead, he, h]

theorem decodeRead_of_noSynth (h : cfg.readEmu = false ∨ cfg.synthAt sn = none) :
    decodeRead p cfg steps sn = decodeSpecial cfg sn := by
  have hn : (if cfg.readEmu then cfg.synthAt sn else none) = none := by
    rcases h with h | h <;> simp [h]
  rw [decodeRead, hn]

/-- Line 7 of R130. -/
theorem decodeSpecial_of_owned (h : cfg.ownerAt .special sn = true) : decodeSpecial cfg sn = .busReadSpecial sn.off :=
  if_pos h

/-- Line 8 of R130, for a read. -/
theorem decodeSpecial_of_unowned (h : cfg.ownerAt .special sn = false) : decodeSpecial cfg sn = .busNop := by
  simp [decodeSpecial, h]

end

/-- Settles O1, line by line of R130. -/
theorem decodeOrder : Obligations.DecodeOrder := by
  intro p cfg steps sn
  refine ⟨rfl, ⟨_, rfl⟩, fun _ => ⟨_, rfl⟩, fun h => congrArg _ (decodeRunning_of_reset h), fun hrst hrw => ?_,
    fun hrst hrw => ?_⟩
  · have hd : decode p cfg .running steps sn = .ok (decodeWrite cfg sn) :=
      congrArg _ (decodeRunning_of_write hrst hrw)
    rw [hd]
    exact ⟨fun _ h => congrArg _ (decodeWrite_of_synth h), fun h hfm => congrArg _ (decodeWrite_of_fm h hfm),
      fun h hfm => congrArg _ (decodeWrite_of_unowned h hfm)⟩
  · have hd : decode p cfg .running steps sn = .ok (decodeRead p cfg steps sn) :=
      congrArg _ (decodeRunning_of_read hrst hrw)
    rw [hd]
    refine ⟨fun ch he h => ?_, fun h => ?_⟩
    · rw [decodeRead_of_synth he h]
      exact ⟨fun hp => congrArg _ (if_pos hp), fun hp => congrArg _ (if_neg hp)⟩
    · rw [decodeRead_of_noSynth h]
      exact ⟨fun hs => congrArg _ (decodeSpecial_of_owned hs), fun hs => congrArg _ (decodeSpecial_of_unowned hs)⟩

/-- Settles O2, by evaluation of the decoder on each of the ten words. -/
theorem decodeWords : Obligations.DecodeWords := by
  unfold Obligations.DecodeWords
  decide

/-- A snapshot in no window of the session and with the reset line released is BUS.NOP (R130, R164). -/
theorem decodeRunning_of_unmatched {p : Params} {cfg : SessionConfig} {steps : PerSynth Nat} {sn : Snap}
    (hrst : sn.rst = false) (h : ∀ r ∈ cfg.windows, r.matchesSnap sn = false) :
    decodeRunning p cfg steps sn = .busNop := by
  have hsynth : cfg.synthAt sn = none := by
    rw [SessionConfig.synthAt, List.findSome?_eq_none_iff]
    intro r hr
    simp [h r hr]
  have howner (o : Owner) : cfg.ownerAt o sn = false := by
    rw [SessionConfig.ownerAt, List.any_eq_false]
    intro r hr
    simp [h r hr]
  cases hrw : sn.rw with
  | false => rw [decodeRunning_of_write hrst hrw, decodeWrite_of_unowned hsynth (howner _)]
  | true =>
    rw [decodeRunning_of_read hrst hrw, decodeRead_of_noSynth (.inr hsynth), decodeSpecial_of_unowned (howner _)]

end Sys2Proof

/-! SUPPORT. The family 30_encoding, part 2: the fields of a word and of a window row bit by bit (O6). -/

namespace Sys2Proof

/-! The fields of a word (R120, R121). -/

theorem Snap.rst_ofWord (w : SnapWord) : (Snap.ofWord w).rst = w.getLsbD 25 := rfl

theorem Snap.rw_ofWord (w : SnapWord) : (Snap.ofWord w).rw = w.getLsbD 24 := rfl

theorem Snap.testBit_a_ofWord (w : SnapWord) (i : Nat) :
    (Snap.ofWord w).a.testBit i = (decide (i < 16) && w.getLsbD i) := by
  simp [Snap.ofWord, BitVec.testBit_toNat, -BitVec.extractLsb'_toNat]

theorem Snap.testBit_cs_ofWord (w : SnapWord) (i : Nat) :
    (Snap.ofWord w).cs.testBit i = (decide (i < 4) && w.getLsbD (26 + i)) := by
  simp [Snap.ofWord, BitVec.testBit_toNat, -BitVec.extractLsb'_toNat]

theorem Snap.reg_ofWord (w : SnapWord) : (Snap.ofWord w).reg = w.extractLsb' 0 5 := by
  apply BitVec.eq_of_toNat_eq
  simp only [Snap.reg, Snap.ofWord, BitVec.toNat_ofNat, BitVec.extractLsb'_toNat, Nat.shiftRight_zero]
  omega

theorem Snap.off_ofWord (w : SnapWord) : (Snap.ofWord w).off = w.extractLsb' 0 8 := by
  apply BitVec.eq_of_toNat_eq
  simp only [Snap.off, Snap.ofWord, BitVec.toNat_ofNat, BitVec.extractLsb'_toNat, Nat.shiftRight_zero]
  omega

/-! The bits of a window row (R133). -/

/-- A window that a row can be built from: aligned, with 16 address lines, and on one of 4 chip-select lines. -/
structure Region.Encodable (r : Region) : Prop where
  bits : r.bits ≤ 16
  base : r.base < 2 ^ 16
  aligned : r.base % 2 ^ r.bits = 0
  line : ∀ i, r.cs = some i → i < 4

/-- An aligned base has no bit below the window's bits. -/
theorem testBit_base_of_aligned {r : Region} (h : r.base % 2 ^ r.bits = 0) {i : Nat} (hi : i < r.bits) :
    r.base.testBit i = false := by
  have hb := Nat.testBit_mod_two_pow r.base r.bits i
  simpa [h, hi] using hb.symm

/-- A base within 16 address lines has no bit past them. -/
theorem testBit_base_of_lt {r : Region} (h : r.base < 2 ^ 16) {i : Nat} (hi : 16 ≤ i) : r.base.testBit i = false :=
  Nat.testBit_lt_two_pow (h.trans_le (Nat.pow_le_pow_right (by decide) hi))

theorem getLsbD_rstBit (i : Nat) : rstBit.getLsbD i = decide (i = 25) := by
  rw [show rstBit = BitVec.twoPow 32 25 by decide, BitVec.getLsbD_twoPow]
  simp [eq_comm]

theorem getLsbD_rwBit (i : Nat) : rwBit.getLsbD i = decide (i = 24) := by
  rw [show rwBit = BitVec.twoPow 32 24 by decide, BitVec.getLsbD_twoPow]
  simp [eq_comm]

theorem getLsbD_csBit {need : Option Nat} (h : ∀ k, need = some k → k < 4) (i : Nat) :
    (csBit need).getLsbD i = (decide (26 ≤ i) && decide (need = some (i - 26))) := by
  cases need with
  | none => simp [csBit]
  | some k =>
    have hk := h k rfl
    have hline : 26 ≤ i ∧ some k = some (i - 26) ↔ i = 26 + k := by
      rw [Option.some.injEq]
      omega
    rw [show csBit (some k) = BitVec.twoPow 32 (26 + k) from (BitVec.twoPow_eq ..).symm, BitVec.getLsbD_twoPow,
      ← Bool.decide_and, ← Bool.decide_and, decide_eq_decide, hline]
    omega

theorem getLsbD_highAddressBits {bits : Nat} (h : bits ≤ 16) (i : Nat) :
    (highAddressBits bits).getLsbD i = (decide (bits ≤ i) && decide (i < 16)) := by
  have hsplit : 2 ^ 16 - 2 ^ bits = 2 ^ bits * (2 ^ (16 - bits) - 1) := by
    rw [Nat.mul_sub, ← Nat.pow_add, Nat.add_sub_cancel' h, Nat.mul_one]
  rw [highAddressBits, hsplit, BitVec.getLsbD_ofNat, Nat.testBit_two_pow_mul, Nat.testBit_two_pow_sub_one,
    ← Bool.decide_and, ← Bool.decide_and, ← Bool.decide_and, decide_eq_decide]
  omega

theorem getLsbD_rowMask {r : Region} (h : r.Encodable) (i : Nat) :
    (rowMask r).getLsbD i =
      (decide (i = 25) || decide (i = 24) || (decide (r.bits ≤ i) && decide (i < 16)) ||
        (decide (26 ≤ i) && decide (r.cs = some (i - 26)))) := by
  simp only [rowMask, BitVec.getLsbD_or, getLsbD_rstBit, getLsbD_rwBit, getLsbD_highAddressBits h.bits,
    getLsbD_csBit h.line]

theorem getLsbD_rowMatch {r : Region} (h : r.Encodable) (read : Bool) (i : Nat) :
    (rowMatch r read).getLsbD i =
      ((decide (i < 32) && r.base.testBit i) || (read && decide (i = 24)) ||
        (decide (26 ≤ i) && decide (r.cs = some (i - 26)))) := by
  cases read <;>
    simp [rowMatch, BitVec.getLsbD_ofNat, getLsbD_rwBit, getLsbD_csBit h.line]

/-- A word agrees with a row at one bit: where the mask has it, it is the match's. -/
def AgreesAt (r : Region) (read : Bool) (w : SnapWord) (i : Nat) : Prop :=
  (w.getLsbD i && (rowMask r).getLsbD i) = (rowMatch r read).getLsbD i

theorem masked_eq_iff {r : Region} {read : Bool} {w : SnapWord} :
    w &&& rowMask r = rowMatch r read ↔ ∀ i < 32, AgreesAt r read w i := by
  simp only [BitVec.eq_of_getLsbD_eq_iff, BitVec.getLsbD_and, AgreesAt]

theorem agreesAt_iff {r : Region} {read : Bool} {w : SnapWord} {i : Nat} (h : r.Encodable) :
    AgreesAt r read w i ↔
      (w.getLsbD i &&
        (decide (i = 25) || decide (i = 24) || (decide (r.bits ≤ i) && decide (i < 16)) ||
          (decide (26 ≤ i) && decide (r.cs = some (i - 26))))) =
      ((decide (i < 32) && r.base.testBit i) || (read && decide (i = 24)) ||
        (decide (26 ≤ i) && decide (r.cs = some (i - 26)))) := by
  rw [AgreesAt, getLsbD_rowMask h, getLsbD_rowMatch h]

section
variable {r : Region} {read : Bool} {w : SnapWord}

theorem agreesAt_rst (h : r.Encodable) : AgreesAt r read w 25 ↔ w.getLsbD 25 = false := by
  simp [agreesAt_iff h, testBit_base_of_lt h.base]

theorem agreesAt_rw (h : r.Encodable) : AgreesAt r read w 24 ↔ w.getLsbD 24 = read := by
  simp [agreesAt_iff h, testBit_base_of_lt h.base]

theorem agreesAt_address (h : r.Encodable) {i : Nat} (hi : i < 16) :
    AgreesAt r read w i ↔ (r.bits ≤ i → w.getLsbD i = r.base.testBit i) := by
  have h32 : i < 32 := by omega
  have h26 : ¬26 ≤ i := by omega
  have h25 : i ≠ 25 := by omega
  have h24 : i ≠ 24 := by omega
  rcases Nat.lt_or_ge i r.bits with hlow | hhigh
  · simp [agreesAt_iff h, testBit_base_of_aligned h.aligned hlow, h26, h25, h24, hlow]
  · simp [agreesAt_iff h, hhigh, hi, h32, h26, h25, h24]

/-- The data lines are in no window row. -/
theorem agreesAt_data (h : r.Encodable) {i : Nat} (h16 : 16 ≤ i) (hi : i < 24) : AgreesAt r read w i := by
  have h26 : ¬26 ≤ i := by omega
  have h25 : i ≠ 25 := by omega
  have h24 : i ≠ 24 := by omega
  have hlt : ¬i < 16 := by omega
  simp [agreesAt_iff h, testBit_base_of_lt h.base h16, h26, h25, h24, hlt]

theorem agreesAt_line (h : r.Encodable) (k : Nat) :
    AgreesAt r read w (26 + k) ↔ (r.cs = some k → w.getLsbD (26 + k) = true) := by
  have hbase : r.base.testBit (26 + k) = false := testBit_base_of_lt h.base (by omega)
  have h25 : 26 + k ≠ 25 := by omega
  have h24 : 26 + k ≠ 24 := by omega
  have hlt : ¬26 + k < 16 := by omega
  by_cases hk : r.cs = some k <;>
    simp [agreesAt_iff h, hbase, h25, h24, hlt, hk]

/-- What a window row tests, field by field: the reset line, the direction, the chip-select line and the high address. -/
theorem masked_eq_iff_fields (h : r.Encodable) :
    w &&& rowMask r = rowMatch r read ↔
      w.getLsbD 25 = false ∧ w.getLsbD 24 = read ∧ (∀ k, r.cs = some k → w.getLsbD (26 + k) = true) ∧
        ∀ i < 16, r.bits ≤ i → w.getLsbD i = r.base.testBit i := by
  rw [masked_eq_iff]
  constructor
  · intro ha
    refine ⟨(agreesAt_rst h).mp (ha 25 (by decide)), (agreesAt_rw h).mp (ha 24 (by decide)), fun k hk => ?_,
      fun i hi => (agreesAt_address h hi).mp (ha i (by omega))⟩
    have hlt := h.line k hk
    exact (agreesAt_line h k).mp (ha _ (by omega)) hk
  · rintro ⟨hrst, hrw, hline, haddr⟩ i -
    have hfield : i < 16 ∨ (16 ≤ i ∧ i < 24) ∨ i = 24 ∨ i = 25 ∨ 26 ≤ i := by omega
    rcases hfield with hi | ⟨hlo, hhi⟩ | rfl | rfl | hi
    · exact (agreesAt_address h hi).mpr (haddr i hi)
    · exact agreesAt_data h hlo hhi
    · exact (agreesAt_rw h).mpr hrw
    · exact (agreesAt_rst h).mpr hrst
    · obtain ⟨k, rfl⟩ := Nat.exists_eq_add_of_le hi
      exact (agreesAt_line h k).mpr (hline k)

end

/-- The chip-select condition of a window on the lines of a word. -/
theorem csMatches_ofWord {need : Option Nat} (h : ∀ k, need = some k → k < 4) (w : SnapWord) :
    csMatches need (Snap.ofWord w).cs = true ↔ ∀ k, need = some k → w.getLsbD (26 + k) = true := by
  cases need with
  | none => simp [csMatches]
  | some k => simp [csMatches, Snap.testBit_cs_ofWord, h k rfl]

/-- The address condition of a window on the address of a word. -/
theorem address_ofWord_iff {r : Region} (h : r.base < 2 ^ 16) (w : SnapWord) :
    (Snap.ofWord w).a / 2 ^ r.bits = r.base / 2 ^ r.bits ↔
      ∀ i < 16, r.bits ≤ i → w.getLsbD i = r.base.testBit i := by
  simp only [div_pow_eq_iff, Snap.testBit_a_ofWord]
  refine ⟨fun ha i hi hb => by simpa [hi] using ha i hb, fun ha i hb => ?_⟩
  rcases Nat.lt_or_ge i 16 with hi | hi
  · simpa [hi] using ha i hi hb
  · simp [testBit_base_of_lt h hi, Nat.not_lt.mpr hi]

/-- A row's test of a word is the match of its window with the word's snapshot (R85, R133). -/
theorem masked_eq_iff_matchesSnap {r : Region} (h : r.Encodable) (read : Bool) (w : SnapWord) :
    w &&& rowMask r = rowMatch r read ↔
      (Snap.ofWord w).rst = false ∧ (Snap.ofWord w).rw = read ∧ r.matchesSnap (Snap.ofWord w) = true := by
  rw [masked_eq_iff_fields h, matchesSnap_iff, csMatches_ofWord h.line, address_ofWord_iff h.base, Snap.rst_ofWord,
    Snap.rw_ofWord]

/-- Settles O6: mask and match test the reset line, the direction and the window's match. -/
theorem generalRow : Obligations.GeneralRow :=
  fun _ read w hbits hbase haligned hline => masked_eq_iff_matchesSnap ⟨hbits, hbase, haligned, hline⟩ read w

end Sys2Proof

/-! SUPPORT. The family 30_encoding, part 3: the rows of the reference table against the decode order (O7). -/

namespace Sys2Proof

/-! The probe rows. -/

/-- The register bits of a probe row's mask: A[4:0] (R133). -/
theorem getLsbD_registerBits (i : Nat) : (0x1F#32).getLsbD i = decide (i < 5) := by
  rw [show 0x1F#32 = BitVec.ofNat 32 (2 ^ 5 - 1) from rfl, BitVec.getLsbD_ofNat, Nat.testBit_two_pow_sub_one,
    ← Bool.decide_and, decide_eq_decide]
  omega

/-- A probe row tests at each bit what the window's read row tests, and on A[4:0] the register index (R133). -/
theorem probe_agrees_iff {r : Region} (h : r.Encodable) (h5 : r.bits = 5) (p : Params) (w : SnapWord) {i : Nat}
    (hi : i < 32) :
    (w &&& probeMask r).getLsbD i = (probeMatch p r).getLsbD i ↔
      AgreesAt r true w i ∧ (i < 5 → w.getLsbD i = p.probeReg.getLsbD i) := by
  by_cases h5i : i < 5
  · have hb : i < r.bits := h5 ▸ h5i
    have hrow : AgreesAt r true w i := (agreesAt_address h (by omega)).mpr (by omega)
    have h24 : i ≠ 24 := by omega
    have h26 : ¬26 ≤ i := by omega
    simp [hrow, probeMask, probeMatch, BitVec.getLsbD_setWidth, getLsbD_registerBits, h5i, hi, getLsbD_rowMatch h,
      testBit_base_of_aligned h.aligned hb, h24, h26, -BitVec.getLsbD_eq_getElem]
  · have hreg : p.probeReg.getLsbD i = false := BitVec.getLsbD_of_ge _ _ (by omega)
    simp [AgreesAt, probeMask, probeMatch, getLsbD_registerBits, h5i, hreg, -BitVec.getLsbD_eq_getElem]

/-- A probe row is the window's read row with the register index joined to it (R133). -/
theorem masked_eq_probe_iff {r : Region} (h : r.Encodable) (h5 : r.bits = 5) (p : Params) (w : SnapWord) :
    w &&& probeMask r = probeMatch p r ↔ w &&& rowMask r = rowMatch r true ∧ w.extractLsb' 0 5 = p.probeReg := by
  have hreg : w.extractLsb' 0 5 = p.probeReg ↔ ∀ i < 5, w.getLsbD i = p.probeReg.getLsbD i := by
    rw [BitVec.eq_of_getLsbD_eq_iff]
    refine forall₂_congr fun i hi => ?_
    rw [BitVec.getLsbD_extractLsb', Nat.zero_add, decide_eq_true hi, Bool.true_and]
  rw [masked_eq_iff, hreg, BitVec.eq_of_getLsbD_eq_iff]
  constructor
  · exact fun ha => ⟨fun i hi => ((probe_agrees_iff h h5 p w hi).mp (ha i hi)).1,
      fun i hi => ((probe_agrees_iff h h5 p w (by omega)).mp (ha i (by omega))).2 hi⟩
  · exact fun ⟨hrow, hr⟩ i hi => (probe_agrees_iff h h5 p w hi).mpr ⟨hrow i hi, hr i⟩

/-! The selection of a row. -/

theorem selectRow_cons (row : BusRow) (rows : List BusRow) (w : SnapWord) :
    selectRow (row :: rows) w =
      if w &&& row.mask = row.mtch then
        some (row.op (Snap.ofWord w).reg (Snap.ofWord w).d (Snap.ofWord w).off)
      else selectRow rows w := by
  rw [Snap.reg_ofWord, Snap.off_ofWord]
  unfold selectRow
  by_cases h : w &&& row.mask = row.mtch
  · rw [List.find?_cons_of_pos (by simpa using h), if_pos h]
    rfl
  · rw [List.find?_cons_of_neg (by simpa using h), if_neg h]

/-! The windows of REFCFG (R88, R133). -/

/-- The entry of an owner in REFCFG's window list. -/
def refWindow : Owner → Region
  | .chip .sid1 => ⟨.chip .sid1, none, 0xD400, 5⟩
  | .chip .sid2 => ⟨.chip .sid2, none, 0xD420, 5⟩
  | .chip .fm => ⟨.chip .fm, some 1, 0xDF40, 5⟩
  | .special => ⟨.special, some 0, 0xDE00, 8⟩

theorem windows_refConfig :
    refConfig.windows =
      [refWindow (.chip .sid1), refWindow (.chip .sid2), refWindow (.chip .fm), refWindow .special] := rfl

theorem encodable_refWindow (o : Owner) : (refWindow o).Encodable := by
  rcases o with (_ | _ | _) | _ <;>
    exact ⟨by decide, by decide, by decide, fun i hi => by cases hi <;> decide⟩

theorem synthAt_refConfig (sn : Snap) :
    refConfig.synthAt sn =
      if (refWindow (.chip .sid1)).matchesSnap sn then some .sid1
      else if (refWindow (.chip .sid2)).matchesSnap sn then some .sid2
      else none := by
  have hl : refConfig.mapMode.regions = [refWindow (.chip .sid1), refWindow (.chip .sid2)] := rfl
  rw [synthAt_eq, hl]
  have hs1 : (refWindow (.chip .sid1)).synth = some .sid1 := rfl
  have hs2 : (refWindow (.chip .sid2)).synth = some .sid2 := rfl
  split_ifs with h1 h2
  · simp [h1, hs1]
  · simp [h1, h2, hs2]
  · simp [h1, h2]

theorem ownerAt_refConfig (o : Owner) (sn : Snap) : refConfig.ownerAt o sn = (refWindow o).matchesSnap sn := by
  rw [SessionConfig.ownerAt, windows_refConfig]
  rcases o with (_ | _ | _) | _ <;> simp [refWindow]

/-- The two synthesizer windows of REFCFG have no snapshot in common. -/
theorem refWindow_sid_exclusive {sn : Snap} (h : (refWindow (.chip .sid2)).matchesSnap sn = true) :
    (refWindow (.chip .sid1)).matchesSnap sn = false :=
  Bool.eq_false_iff.mpr
    (not_matchesSnap_of_disjoint (encodable_refWindow _).aligned (encodable_refWindow _).aligned (by decide) h)

/-! The table. -/

/-- The row of a window of REFCFG in one direction (R133). -/
def windowRow (o : Owner) (read : Bool) (op : RegIx → Byte → Byte → Instr) : BusRow :=
  ⟨rowMask (refWindow o), rowMatch (refWindow o) read, op⟩

/-- The probe row of a window of REFCFG (R133). -/
def probeRow (o : Owner) (op : RegIx → Byte → Byte → Instr) : BusRow :=
  ⟨probeMask (refWindow o), probeMatch refParams (refWindow o), op⟩

/-- The rows for a read, top to bottom, as conditions on the snapshot. -/
def readOrder (t1 t2 : Bool) (sn : Snap) : Instr :=
  if t1 = true ∧ (refWindow (.chip .sid1)).matchesSnap sn ∧ sn.reg = refParams.probeReg then .busReadProbe1
  else if t2 = true ∧ (refWindow (.chip .sid2)).matchesSnap sn ∧ sn.reg = refParams.probeReg then .busReadProbe2
  else if (refWindow (.chip .sid1)).matchesSnap sn then .busReadSid1 sn.reg
  else if (refWindow (.chip .sid2)).matchesSnap sn then .busReadSid2 sn.reg
  else if (refWindow .special).matchesSnap sn then .busReadSpecial sn.off
  else .busNop

/-- The rows for a write, top to bottom, as conditions on the snapshot. -/
def writeOrder (sn : Snap) : Instr :=
  if (refWindow (.chip .sid1)).matchesSnap sn then .busWriteSid1 sn.reg sn.d
  else if (refWindow (.chip .sid2)).matchesSnap sn then .busWriteSid2 sn.reg sn.d
  else if (refWindow (.chip .fm)).matchesSnap sn then .busWriteFm sn.reg sn.d
  else .busNop

/-- The constants of the reference table are the general form at REFCFG's windows (R133). -/
theorem refRows_eq (t1 t2 : Bool) :
    refRows t1 t2 =
      ⟨rstBit, rstBit, fun _ _ _ => .busReset⟩ ::
      windowRow (.chip .sid1) false (fun r d _ => .busWriteSid1 r d) ::
      windowRow (.chip .sid2) false (fun r d _ => .busWriteSid2 r d) ::
      windowRow (.chip .fm) false (fun r d _ => .busWriteFm r d) ::
      ((if t1 then [probeRow (.chip .sid1) fun _ _ _ => .busReadProbe1] else []) ++
        ((if t2 then [probeRow (.chip .sid2) fun _ _ _ => .busReadProbe2] else []) ++
          [windowRow (.chip .sid1) true (fun r _ _ => .busReadSid1 r),
            windowRow (.chip .sid2) true (fun r _ _ => .busReadSid2 r),
            windowRow .special true (fun _ _ o => .busReadSpecial o),
            ⟨rstBit, 0, fun _ _ _ => .busNop⟩])) := by
  cases t1 <;> cases t2 <;> rfl

/-- The first and the last row test the reset line alone (R133). -/
theorem masked_rstBit (w : SnapWord) (b : Bool) : w &&& rstBit = (if b then rstBit else 0) ↔ (Snap.ofWord w).rst = b := by
  rw [Snap.rst_ofWord, BitVec.eq_of_getLsbD_eq_iff]
  constructor
  · intro h
    have := h 25 (by decide)
    cases b <;> simpa [getLsbD_rstBit, -BitVec.getLsbD_eq_getElem] using this
  · rintro rfl i -
    by_cases hi : i = 25
    · subst hi
      cases hb : w.getLsbD 25 <;> simp [getLsbD_rstBit, hb, -BitVec.getLsbD_eq_getElem]
    · cases w.getLsbD 25 <;> simp [getLsbD_rstBit, hi, -BitVec.getLsbD_eq_getElem]

section
variable (rows : List BusRow) (w : SnapWord)

theorem selectRow_reset (op : RegIx → Byte → Byte → Instr) :
    selectRow (⟨rstBit, rstBit, op⟩ :: rows) w =
      if (Snap.ofWord w).rst = true then some (op (Snap.ofWord w).reg (Snap.ofWord w).d (Snap.ofWord w).off)
      else selectRow rows w := by
  rw [selectRow_cons]
  exact if_congr (masked_rstBit w true) rfl rfl

theorem selectRow_released (op : RegIx → Byte → Byte → Instr) :
    selectRow (⟨rstBit, 0, op⟩ :: rows) w =
      if (Snap.ofWord w).rst = false then some (op (Snap.ofWord w).reg (Snap.ofWord w).d (Snap.ofWord w).off)
      else selectRow rows w := by
  rw [selectRow_cons]
  exact if_congr (masked_rstBit w false) rfl rfl

theorem selectRow_window (o : Owner) (read : Bool) (op : RegIx → Byte → Byte → Instr) :
    selectRow (windowRow o read op :: rows) w =
      if (Snap.ofWord w).rst = false ∧ (Snap.ofWord w).rw = read ∧ (refWindow o).matchesSnap (Snap.ofWord w) = true then
        some (op (Snap.ofWord w).reg (Snap.ofWord w).d (Snap.ofWord w).off)
      else selectRow rows w := by
  rw [selectRow_cons]
  exact if_congr (masked_eq_iff_matchesSnap (encodable_refWindow o) read w) rfl rfl

/-- A probe row stands in the table when the counter of its chip is terminal. -/
theorem selectRow_probe (t : Bool) (o : Owner) (h5 : (refWindow o).bits = 5) (op : RegIx → Byte → Byte → Instr) :
    selectRow ((if t then [probeRow o op] else []) ++ rows) w =
      if t = true ∧ ((Snap.ofWord w).rst = false ∧ (Snap.ofWord w).rw = true ∧
          (refWindow o).matchesSnap (Snap.ofWord w) = true) ∧ (Snap.ofWord w).reg = refParams.probeReg then
        some (op (Snap.ofWord w).reg (Snap.ofWord w).d (Snap.ofWord w).off)
      else selectRow rows w := by
  cases t with
  | false => simp
  | true =>
    have hp := masked_eq_probe_iff (encodable_refWindow o) h5 refParams w
    rw [masked_eq_iff_matchesSnap (encodable_refWindow o), ← Snap.reg_ofWord] at hp
    exact (selectRow_cons ..).trans (if_congr (hp.trans (and_iff_right rfl).symm) rfl rfl)

end

/-- The row a word selects, in the order of the table. -/
theorem selectRow_refRows (t1 t2 : Bool) (w : SnapWord) :
    selectRow (refRows t1 t2) w =
      some (if (Snap.ofWord w).rst then .busReset
        else if (Snap.ofWord w).rw then readOrder t1 t2 (Snap.ofWord w) else writeOrder (Snap.ofWord w)) := by
  rw [refRows_eq, selectRow_reset, selectRow_window, selectRow_window, selectRow_window,
    selectRow_probe _ _ _ _ rfl, selectRow_probe _ _ _ _ rfl, selectRow_window, selectRow_window, selectRow_window,
    selectRow_released, readOrder, writeOrder]
  cases (Snap.ofWord w).rst <;> cases (Snap.ofWord w).rw <;> simp [apply_ite some]

theorem decodeWrite_refConfig (sn : Snap) : decodeWrite refConfig sn = writeOrder sn := by
  rw [decodeWrite, synthAt_refConfig, ownerAt_refConfig, writeOrder]
  split_ifs <;> rfl

/-- Where R130 finds the chip first and then tests its counter, the table has the probe rows before the read rows of both
chips: the windows of the two exclude each other. -/
theorem decodeRead_refConfig {t1 t2 : Bool} {steps : PerSynth Nat}
    (ht1 : t1 = true ↔ steps.sid1 = refParams.detSeq.length) (ht2 : t2 = true ↔ steps.sid2 = refParams.detSeq.length)
    (sn : Snap) : decodeRead refParams refConfig steps sn = readOrder t1 t2 sn := by
  have hsynth := synthAt_refConfig sn
  by_cases h2 : (refWindow (.chip .sid2)).matchesSnap sn = true
  · have h1 := refWindow_sid_exclusive h2
    have hrow : readOrder t1 t2 sn =
        if t2 = true ∧ sn.reg = refParams.probeReg then .busReadProbe2 else .busReadSid2 sn.reg := by
      simp [readOrder, h1, h2]
    rw [decodeRead_of_synth rfl (by simpa [h1, h2] using hsynth), hrow]
    exact if_congr (and_congr_left' ht2.symm) rfl rfl
  · by_cases h1 : (refWindow (.chip .sid1)).matchesSnap sn = true
    · have hrow : readOrder t1 t2 sn =
          if t1 = true ∧ sn.reg = refParams.probeReg then .busReadProbe1 else .busReadSid1 sn.reg := by
        simp [readOrder, h1, h2]
      rw [decodeRead_of_synth rfl (by simpa [h1] using hsynth), hrow]
      exact if_congr (and_congr_left' ht1.symm) rfl rfl
    · rw [decodeRead_of_noSynth (.inr (by simpa [h1, h2] using hsynth)), decodeSpecial, ownerAt_refConfig]
      simp [readOrder, h1, h2]

/-- Settles O7: the order of the table's rows is the order of R130 under REFCFG. -/
theorem referenceRows : Obligations.ReferenceRows := by
  intro w steps
  rw [selectRow_refRows, decodeRunning, decodeWrite_refConfig,
    decodeRead_refConfig decide_eq_true_iff decide_eq_true_iff]
  rfl

end Sys2Proof

/-! SUPPORT. The family 30_encoding, part 4: the encoder (O8). The word of a transaction selects its window's row and carries
its operands; in a valid session the window it matches is the only one. -/

namespace Sys2Proof

/-! The word of a transaction. -/

/-- The word of a transaction on an entry of the window list, as the encoder builds it (R133). -/
def transactionWord (r : Region) (read : Bool) (low : Nat) (d : Byte) : SnapWord :=
  rowMatch r read ||| BitVec.ofNat 32 low ||| (d.zeroExtend 32 <<< 16)

theorem regionWord_eq_some {cfg : SessionConfig} {o : Owner} {read : Bool} {low : Nat} {d : Byte} {w : SnapWord} :
    regionWord cfg o read low d = some w ↔ ∃ r, cfg.regionOf o = some r ∧ transactionWord r read low d = w :=
  Option.map_eq_some_iff

theorem regionOf_eq_some {cfg : SessionConfig} {o : Owner} {r : Region} (h : cfg.regionOf o = some r) :
    r ∈ cfg.windows ∧ r.owner = o :=
  ⟨List.mem_of_find?_eq_some h, by simpa using List.find?_some h⟩

section
variable {r : Region} {low : Nat}

theorem getLsbD_transactionWord (r : Region) (read : Bool) (low : Nat) (d : Byte) {i : Nat} (hi : i < 32) :
    (transactionWord r read low d).getLsbD i =
      ((rowMatch r read).getLsbD i || low.testBit i || (!decide (i < 16) && d.getLsbD (i - 16))) := by
  have hd : i - 16 < 32 := by omega
  simp [transactionWord, BitVec.getLsbD_ofNat, BitVec.getLsbD_setWidth, hi, hd, -BitVec.getLsbD_eq_getElem]

/-- A low address has no bit from the window's bits on. -/
theorem testBit_low (hlow : low < 2 ^ r.bits) {i : Nat} (hi : r.bits ≤ i) : low.testBit i = false :=
  Nat.testBit_lt_two_pow (hlow.trans_le (Nat.pow_le_pow_right (by decide) hi))

/-- The word of a transaction selects the row of its window and direction (R133). -/
theorem transactionWord_masked (h : r.Encodable) (hlow : low < 2 ^ r.bits) (read : Bool) (d : Byte) :
    transactionWord r read low d &&& rowMask r = rowMatch r read := by
  have hb := h.bits
  have hbit (i : Nat) (hi : i < 32) := getLsbD_transactionWord r read low d hi
  have hhigh (i : Nat) (hi : 16 ≤ i) : low.testBit i = false := testBit_low hlow (hb.trans hi)
  have hbase (i : Nat) (hi : 16 ≤ i) : r.base.testBit i = false := testBit_base_of_lt h.base hi
  rw [masked_eq_iff_fields h]
  refine ⟨?_, ?_, fun k hk => ?_, fun i hi hbi => ?_⟩
  · simp [hbit, hhigh, hbase, getLsbD_rowMatch h, -BitVec.getLsbD_eq_getElem]
  · simp [hbit, hhigh, hbase, getLsbD_rowMatch h, -BitVec.getLsbD_eq_getElem]
  · have hk4 := h.line k hk
    rw [hbit _ (by omega), getLsbD_rowMatch h]
    simp [hk]
  · have h26 : ¬26 ≤ i := by omega
    have h24 : i ≠ 24 := by omega
    have h32 : i < 32 := by omega
    rw [hbit i h32, testBit_low hlow hbi, getLsbD_rowMatch h]
    simp [hi, h26, h24, h32]

/-- Below the window's bits the word holds the low address. -/
theorem extractLsb'_transactionWord (h : r.Encodable) (read : Bool) (low : Nat) (d : Byte) :
    (transactionWord r read low d).extractLsb' 0 r.bits = BitVec.ofNat r.bits low := by
  have hb := h.bits
  apply BitVec.eq_of_getLsbD_eq
  intro i hi
  have h16 : i < 16 := by omega
  have h26 : ¬26 ≤ i := by omega
  have h24 : i ≠ 24 := by omega
  rw [BitVec.getLsbD_extractLsb', Nat.zero_add, getLsbD_transactionWord r read low d (by omega), getLsbD_rowMatch h,
    testBit_base_of_aligned h.aligned hi, BitVec.getLsbD_ofNat]
  simp [hi, h16, h26, h24]

theorem reg_transactionWord (h : r.Encodable) (h5 : r.bits = 5) (read : Bool) (reg : RegIx) (d : Byte) :
    (Snap.ofWord (transactionWord r read reg.toNat d)).reg = reg := by
  have hlow := extractLsb'_transactionWord h read reg.toNat d
  rw [h5] at hlow
  rw [Snap.reg_ofWord, hlow, BitVec.ofNat_toNat, BitVec.setWidth_eq]

theorem off_transactionWord (h : r.Encodable) (h8 : r.bits = 8) (read : Bool) (off : Byte) (d : Byte) :
    (Snap.ofWord (transactionWord r read off.toNat d)).off = off := by
  have hlow := extractLsb'_transactionWord h read off.toNat d
  rw [h8] at hlow
  rw [Snap.off_ofWord, hlow, BitVec.ofNat_toNat, BitVec.setWidth_eq]

theorem d_transactionWord (h : r.Encodable) (hlow : low < 2 ^ r.bits) (read : Bool) (d : Byte) :
    (Snap.ofWord (transactionWord r read low d)).d = d := by
  have hb := h.bits
  apply BitVec.eq_of_getLsbD_eq
  intro i hi
  have h26 : ¬26 ≤ 16 + i := by omega
  have h24 : 16 + i ≠ 24 := by omega
  rw [show (Snap.ofWord (transactionWord r read low d)).d = (transactionWord r read low d).extractLsb' 16 8 from rfl,
    BitVec.getLsbD_extractLsb', getLsbD_transactionWord r read low d (by omega), getLsbD_rowMatch h,
    testBit_base_of_lt h.base (by omega), testBit_low hlow (by omega)]
  simp [hi, h26, h24]

end

/-! The window list of a valid session. -/

/-- A session has the entries of the mapping mode, the FM entry when FM is enabled, and the special entry when the region is
configured (R88). -/
theorem mem_windows {cfg : SessionConfig} {r : Region} (h : r ∈ cfg.windows) :
    r ∈ cfg.mapMode.regions ∨ r = cfg.fmWindow.region .fm ∨
      ∃ sp, cfg.special = some sp ∧ r = ⟨.special, sp.cs, sp.base, 8⟩ := by
  simp only [SessionConfig.windows, List.mem_append] at h
  rcases h with (h | h) | h
  · exact .inl h
  · cases hf : cfg.fmEnabled with
    | false => simp [hf] at h
    | true => exact .inr (.inl (by simpa [hf] using h))
  · cases hs : cfg.special with
    | none => simp [hs] at h
    | some sp => exact .inr (.inr ⟨sp, rfl, by simpa [hs] using h⟩)

/-- The entries of the mapping mode are windows of synthesizer chips (R86, R87). -/
theorem mem_mapMode_regions {m : MapMode} {r : Region} (h : r ∈ m.regions) :
    ∃ (w : Window) (ch : SynthId), r = w.region ch.chip := by
  cases m with
  | single a =>
    obtain rfl := List.mem_singleton.mp h
    exact ⟨a, .sid1, rfl⟩
  | sideBySide a b =>
    rcases List.mem_pair.mp h with rfl | rfl
    · exact ⟨a, .sid1, rfl⟩
    · exact ⟨b, .sid2, rfl⟩
  | sharedSel w sel =>
    rcases List.mem_pair.mp h with rfl | rfl
    · exact ⟨w, .sid1, rfl⟩
    · exact ⟨_, .sid2, rfl⟩

/-- A chip has 32 addresses, the special region 256 (R84, R90). -/
theorem bits_of_mem_windows {cfg : SessionConfig} {r : Region} (h : r ∈ cfg.windows) :
    r.bits = if r.owner = .special then 8 else 5 := by
  rcases mem_windows h with h | rfl | ⟨sp, -, rfl⟩
  · obtain ⟨w, ch, rfl⟩ := mem_mapMode_regions h
    rfl
  · rfl
  · rfl

/-- With 16 address and 4 chip-select lines every entry of a valid window list has a row (R133). -/
theorem encodable_of_valid {p : Params} {cfg : SessionConfig} (ha : p.aw = 16) (hn : p.ncs = 4)
    (hv : configViolation p cfg = none) {r : Region} (hr : r ∈ cfg.windows) : r.Encodable := by
  obtain ⟨haligned, hbase, hline⟩ := windows_aligned hv r hr
  rw [ha] at hbase
  rw [hn] at hline
  refine ⟨?_, hbase, haligned, hline⟩
  rw [bits_of_mem_windows hr]
  split <;> decide

/-! The decode of a snapshot in a window. -/

section
variable {p : Params} {cfg : SessionConfig} {sn : Snap} {r : Region}

/-- In a valid session a snapshot in a window belongs to the chip of that window (R88, R124). -/
theorem synthAt_of_matches (hv : configViolation p cfg = none) (hr : r ∈ cfg.windows) (hm : r.matchesSnap sn = true) :
    cfg.synthAt sn = r.synth := by
  cases hs : cfg.synthAt sn with
  | none =>
    have := List.findSome?_eq_none_iff.mp hs r hr
    simpa [hm] using this.symm
  | some ch =>
    obtain ⟨t, ht, hch⟩ := List.exists_of_findSome?_eq_some hs
    split at hch
    next hmt =>
      rw [oneOwner p cfg sn r t hv hr ht hm hmt]
      exact hch.symm
    next => cases hch

/-- In a valid session a snapshot in a window belongs to the owner of that window alone (R88). -/
theorem ownerAt_of_matches (hv : configViolation p cfg = none) (hr : r ∈ cfg.windows) (hm : r.matchesSnap sn = true)
    (o : Owner) : cfg.ownerAt o sn = decide (r.owner = o) := by
  rw [Bool.eq_iff_iff, SessionConfig.ownerAt, List.any_eq_true, decide_eq_true_iff]
  constructor
  · rintro ⟨t, ht, hto⟩
    simp only [Bool.and_eq_true, decide_eq_true_eq] at hto
    obtain ⟨ho, hmt⟩ := hto
    rw [oneOwner p cfg sn r t hv hr ht hm hmt]
    exact ho
  · exact fun ho => ⟨r, hr, by simp [ho, hm]⟩

end

/-! Decoding an encoded operation. -/

/-- What the word of a transaction holds: the row's lines, the match of its window, the data. -/
structure Carries (r : Region) (read : Bool) (d : Byte) (sn : Snap) : Prop where
  rst : sn.rst = false
  rw : sn.rw = read
  window : r.matchesSnap sn = true
  data : sn.d = d

theorem carries_transactionWord {r : Region} {low : Nat} (h : r.Encodable) (hlow : low < 2 ^ r.bits) (read : Bool)
    (d : Byte) : Carries r read d (Snap.ofWord (transactionWord r read low d)) := by
  obtain ⟨hrst, hrw, hm⟩ := (masked_eq_iff_matchesSnap h read _).mp (transactionWord_masked h hlow read d)
  exact ⟨hrst, hrw, hm, d_transactionWord h hlow read d⟩

section
variable {p : Params} {cfg : SessionConfig} {w : SnapWord} (ha : p.aw = 16) (hn : p.ncs = 4)
  (hv : configViolation p cfg = none)
include ha hn hv

/-- The word of a transaction on a chip's window carries the register index and the data to that window. -/
theorem chipWord_carries {c : ChipId} {read : Bool} {reg : RegIx} {d : Byte}
    (h : regionWord cfg (.chip c) read reg.toNat d = some w) :
    ∃ r ∈ cfg.windows, r.owner = .chip c ∧ Carries r read d (Snap.ofWord w) ∧ (Snap.ofWord w).reg = reg := by
  obtain ⟨r, hr, rfl⟩ := regionWord_eq_some.mp h
  obtain ⟨hmem, ho⟩ := regionOf_eq_some hr
  have henc := encodable_of_valid ha hn hv hmem
  have h5 : r.bits = 5 := by simpa [ho] using bits_of_mem_windows hmem
  have hlow : reg.toNat < 2 ^ r.bits := by rw [h5]; exact reg.isLt
  exact ⟨r, hmem, ho, carries_transactionWord henc hlow read d, reg_transactionWord henc h5 read reg d⟩

/-- The word of a read of the special region carries the offset to it. -/
theorem specialWord_carries {read : Bool} {off d : Byte} (h : regionWord cfg .special read off.toNat d = some w) :
    ∃ r ∈ cfg.windows, r.owner = .special ∧ Carries r read d (Snap.ofWord w) ∧ (Snap.ofWord w).off = off := by
  obtain ⟨r, hr, rfl⟩ := regionWord_eq_some.mp h
  obtain ⟨hmem, ho⟩ := regionOf_eq_some hr
  have henc := encodable_of_valid ha hn hv hmem
  have h8 : r.bits = 8 := by simpa [ho] using bits_of_mem_windows hmem
  have hlow : off.toNat < 2 ^ r.bits := by rw [h8]; exact off.isLt
  exact ⟨r, hmem, ho, carries_transactionWord henc hlow read d, off_transactionWord henc h8 read off d⟩

/-- The owner of a window is the synthesizer chip the decode finds there. -/
theorem synthWord_carries {ch : SynthId} {read : Bool} {reg : RegIx} {d : Byte}
    (h : regionWord cfg (.chip ch.chip) read reg.toNat d = some w) :
    (Snap.ofWord w).rst = false ∧ (Snap.ofWord w).rw = read ∧ (Snap.ofWord w).d = d ∧ (Snap.ofWord w).reg = reg ∧
      cfg.synthAt (Snap.ofWord w) = some ch := by
  obtain ⟨r, hmem, ho, ⟨hrst, hrw, hm, hd⟩, hreg⟩ := chipWord_carries ha hn hv h
  refine ⟨hrst, hrw, hd, hreg, ?_⟩
  rw [synthAt_of_matches hv hmem hm, Region.synth, ho]
  cases ch <;> rfl

theorem decode_writeSid_word {steps : PerSynth Nat} {ch : SynthId} {reg : RegIx} {val : Byte}
    (h : regionWord cfg (.chip ch.chip) false reg.toNat val = some w) :
    decodeRunning p cfg steps (Snap.ofWord w) = writeSidOf ch reg val := by
  obtain ⟨hrst, hrw, hd, hreg, hs⟩ := synthWord_carries ha hn hv h
  rw [decodeRunning_of_write hrst hrw, decodeWrite_of_synth hs, hreg, hd]

theorem decode_writeFm_word {steps : PerSynth Nat} {reg : RegIx} {val : Byte}
    (h : regionWord cfg (.chip .fm) false reg.toNat val = some w) :
    decodeRunning p cfg steps (Snap.ofWord w) = .busWriteFm reg val := by
  obtain ⟨r, hmem, ho, ⟨hrst, hrw, hm, hd⟩, hreg⟩ := chipWord_carries ha hn hv h
  have hsynth : cfg.synthAt (Snap.ofWord w) = none := by rw [synthAt_of_matches hv hmem hm, Region.synth, ho]
  have hfm : cfg.ownerAt (.chip .fm) (Snap.ofWord w) = true := by rw [ownerAt_of_matches hv hmem hm, ho]; rfl
  rw [decodeRunning_of_write hrst hrw, decodeWrite_of_fm hsynth hfm, hreg, hd]

theorem decode_readSid_word {steps : PerSynth Nat} {ch : SynthId} {reg : RegIx} {d : Byte} (he : cfg.readEmu = true)
    (h : regionWord cfg (.chip ch.chip) true reg.toNat d = some w) :
    decodeRunning p cfg steps (Snap.ofWord w) =
      if steps.get ch = p.detSeq.length ∧ reg = p.probeReg then readProbeOf ch else readSidOf ch reg := by
  obtain ⟨hrst, hrw, -, hreg, hs⟩ := synthWord_carries ha hn hv h
  rw [decodeRunning_of_read hrst hrw, decodeRead_of_synth he hs, hreg]

theorem decode_readSpecial_word {steps : PerSynth Nat} {off d : Byte}
    (h : regionWord cfg .special true off.toNat d = some w) :
    decodeRunning p cfg steps (Snap.ofWord w) = .busReadSpecial off := by
  obtain ⟨r, hmem, ho, ⟨hrst, hrw, hm, -⟩, hoff⟩ := specialWord_carries ha hn hv h
  have hsynth : cfg.synthAt (Snap.ofWord w) = none := by rw [synthAt_of_matches hv hmem hm, Region.synth, ho]
  have hsp : cfg.ownerAt .special (Snap.ofWord w) = true := by rw [ownerAt_of_matches hv hmem hm, ho]; rfl
  rw [decodeRunning_of_read hrst hrw, decodeRead_of_noSynth (.inr hsynth), decodeSpecial_of_owned hsp, hoff]

end

/-- `IDLE` as a word (R136). -/
theorem ofWord_rwBit : Snap.ofWord rwBit = Machine.scriptIdle := rfl

/-- A 32-bit word in phase Running is decoded through its snapshot (R130, R134). -/
theorem decodeWord_running (p : Params) (cfg : SessionConfig) (steps : PerSynth Nat) (w : SnapWord) :
    decodeWord p cfg .running steps 32 w.toNat = .ok (decodeRunning p cfg steps (Snap.ofWord w)) := by
  rw [decodeWord, if_pos rfl, BitVec.ofNat_toNat, BitVec.setWidth_eq]
  rfl

/-- Settles O8, by the operations that have a word: each word carries its operands to the window of its chip, and there the
decode order finds the operation. -/
theorem decodeOfEncode : Obligations.DecodeOfEncode := by
  intro p cfg steps i w ha hn hv hwf he hp1 hp2 hs1 hs2 hidle
  by_cases hi : i = .busMeasure
  · rw [if_pos hi, hi]
    rfl
  rw [if_neg hi, decodeWord_running]
  refine congrArg _ ?_
  cases i with
  | busMeasure => exact absurd rfl hi
  | busReset =>
    obtain rfl := Option.some.inj he
    exact decodeRunning_of_reset rfl
  | busWriteSid1 reg val => exact decode_writeSid_word (ch := .sid1) ha hn hv he
  | busWriteSid2 reg val => exact decode_writeSid_word (ch := .sid2) ha hn hv he
  | busWriteFm reg val => exact decode_writeFm_word ha hn hv he
  | busReadProbe1 =>
    obtain ⟨-, hr⟩ := active_of_needReadable hwf
    exact (decode_readSid_word (ch := .sid1) ha hn hv hr he).trans (if_pos ⟨hp1 rfl, rfl⟩)
  | busReadProbe2 =>
    obtain ⟨-, hr⟩ := active_of_needReadable hwf
    exact (decode_readSid_word (ch := .sid2) ha hn hv hr he).trans (if_pos ⟨hp2 rfl, rfl⟩)
  | busReadSid1 reg =>
    obtain ⟨-, hr⟩ := active_of_needReadable hwf
    refine (decode_readSid_word (ch := .sid1) ha hn hv hr he).trans (if_neg ?_)
    rintro ⟨ht, rfl⟩
    exact hs1 rfl ht
  | busReadSid2 reg =>
    obtain ⟨-, hr⟩ := active_of_needReadable hwf
    refine (decode_readSid_word (ch := .sid2) ha hn hv hr he).trans (if_neg ?_)
    rintro ⟨ht, rfl⟩
    exact hs2 rfl ht
  | busReadSpecial off => exact decode_readSpecial_word ha hn hv he
  | busNop =>
    obtain rfl := Option.some.inj he
    rw [ofWord_rwBit]
    exact decodeRunning_of_unmatched rfl (hidle rfl)
  | _ => cases he

end Sys2Proof

/-! SUPPORT. The family 30_encoding, part 5: the packed formats (O9) and the line `WAIT n` of a bus script (O10). -/

namespace Sys2Proof

/-! The packed formats (R126, R127). -/

theorem toNat_append_eq_add {m n : Nat} (x : BitVec m) (y : BitVec n) : (x ++ y).toNat = 2 ^ n * x.toNat + y.toNat := by
  rw [BitVec.toNat_append, ← Nat.shiftLeft_add_eq_or_of_lt y.isLt, Nat.shiftLeft_eq, Nat.mul_comm]

theorem ofCode_code (c : ChipId) : ChipId.ofCode c.code = some c := by
  cases c <;> rfl

/-- The layout of the event slot (R126). -/
theorem toNat_pack {ev : BusEvent} (h : ev.ts < 2 ^ 64) :
    ev.pack.toNat = ev.chip.code.toNat + 4 * ev.reg.toNat + 128 * ev.val.toNat + 32768 * ev.ts := by
  have hts : (BitVec.ofNat 64 ev.ts).toNat = ev.ts := by rw [BitVec.toNat_ofNat, Nat.mod_eq_of_lt h]
  have hsum : ev.pack.toNat =
      2 ^ 2 * (2 ^ 5 * (2 ^ 8 * (BitVec.ofNat 64 ev.ts).toNat + ev.val.toNat) + ev.reg.toNat) + ev.chip.code.toNat := by
    rw [← toNat_append_eq_add, ← toNat_append_eq_add, ← toNat_append_eq_add]
    rfl
  rw [hsum, hts]
  omega

/-- Unpacking gives back a packed event (R126). -/
theorem unpack_pack {ev : BusEvent} (h : ev.ts < 2 ^ 64) : BusEvent.unpack ev.pack = some ev := by
  have hp := toNat_pack h
  have hchip := ev.chip.code.isLt
  have hreg := ev.reg.isLt
  have hval := ev.val.isLt
  have hfield (start len : Nat) :
      (ev.pack.extractLsb' start len).toNat = ev.pack.toNat / 2 ^ start % 2 ^ len := by
    rw [BitVec.extractLsb'_toNat, Nat.shiftRight_eq_div_pow]
  have hc : ev.pack.extractLsb' 0 2 = ev.chip.code := BitVec.eq_of_toNat_eq (by rw [hfield, hp]; omega)
  have hr : ev.pack.extractLsb' 2 5 = ev.reg := BitVec.eq_of_toNat_eq (by rw [hfield, hp]; omega)
  have hv : ev.pack.extractLsb' 7 8 = ev.val := BitVec.eq_of_toNat_eq (by rw [hfield, hp]; omega)
  have ht : (ev.pack.extractLsb' 15 64).toNat = ev.ts := by rw [hfield, hp]; omega
  rw [BusEvent.unpack, hc, hr, hv, ht, ofCode_code]
  rfl

theorem extractLsb'_packVolumePan (volume pan : BitVec 4) :
    (packVolumePan volume pan).extractLsb' 4 4 = pan ∧ (packVolumePan volume pan).extractLsb' 0 4 = volume :=
  ⟨BitVec.extractLsb'_append_eq_left, BitVec.extractLsb'_append_eq_right⟩

/-- Settles O9: each field of a packed word is read back where the layout puts it. -/
theorem recordFormats : Obligations.RecordFormats := by
  refine ⟨fun ev h => ⟨toNat_pack h, unpack_pack h⟩, fun volume pan => ?_⟩
  obtain ⟨hpan, hvolume⟩ := extractLsb'_packVolumePan volume pan
  refine ⟨toNat_append_eq_add pan volume, fun h => ?_, fun h => ?_⟩
  · rw [unpackVolumePan, hpan, hvolume]
    exact if_neg h
  · rw [unpackVolumePan, hpan]
    exact if_pos h

end Sys2Proof

namespace Sys2Proof.Machine

/-! The line `WAIT n` (R136). -/

/-- IDLE asserts no line, so it is the same on any lines (R81, R83). -/
theorem onLines_scriptIdle (p : Params) : scriptIdle.onLines p = scriptIdle := by
  simp [Snap.onLines, scriptIdle, scriptRead]

/-- A strobe of a live session runs what its snapshot decodes to (R150, R156). -/
theorem step_strobe {s : State} {sn : Snap} {fresh : Bool} {rest : List Turn} (h : Live s)
    (hs : s.script = .strobe sn fresh :: rest) :
    step s = exec (decodeRunning s.params s.cfg (detSteps s) (sn.onLines s.params))
      (latchStrobe sn fresh (takeTurn rest s)) := by
  obtain ⟨hf, hp⟩ := h
  have hd : decodeState (latchStrobe sn fresh (takeTurn rest s)) =
      .ok (decodeRunning s.params s.cfg (detSteps s) (sn.onLines s.params)) := by
    simp [decodeState, hp, decode, detSteps]
  have hfetch : fetch s = fetchStrobe sn fresh (takeTurn rest s) := by simp [fetch, hp, hs, fetchTurn]
  rw [step_eq, hf, hfetch, fetchStrobe, hd]
  rfl

/-- From `s` to `t` the bus has done k cycles of BUS.NOP, one at least (R164): `rest` is left of the script; detection, the
queue and what EN owns are as before. -/
structure Idled (k : Nat) (rest : List Turn) (s t : State) : Prop where
  live : Live t
  cycles : t.cycleCount = s.cycleCount + k
  script : t.script = rest
  answer : t.out = ⟨none, true⟩
  run : t.resetRun = 0
  det : t.det = s.det
  slots : t.slots = s.slots
  writeIndex : t.writeIndex = s.writeIndex
  engine : engineOwned t = engineOwned s
  config : t.cfg = s.cfg

theorem Idled.trans {j k : Nat} {turns rest : List Turn} {s t u : State} (h : Idled j turns s t)
    (h' : Idled k rest t u) : Idled (k + j) rest s u where
  live := h'.live
  cycles := by rw [h'.cycles, h.cycles]; omega
  script := h'.script
  answer := h'.answer
  run := h'.run
  det := h'.det.trans h.det
  slots := h'.slots.trans h.slots
  writeIndex := h'.writeIndex.trans h.writeIndex
  engine := h'.engine.trans h.engine
  config := h'.config.trans h.config

/-- One IDLE outside every window is a BUS.NOP (R130, R164). -/
theorem step_idle {s : State} {rest : List Turn} (h : Live s)
    (hx : ∀ r ∈ s.cfg.windows, r.matchesSnap scriptIdle = false) (hs : s.script = .strobe scriptIdle true :: rest) :
    ∃ t, step s = .next t ∧ Idled 1 rest s t := by
  have hf : (latchStrobe scriptIdle true (takeTurn rest s)).fault = none := by simpa using h.1
  have hp : (latchStrobe scriptIdle true (takeTurn rest s)).phase = .running := by simpa using h.2
  refine ⟨busNop (latchStrobe scriptIdle true (takeTurn rest s)), ?_, ?_⟩
  · rw [step_strobe h hs, onLines_scriptIdle, decodeRunning_of_unmatched rfl hx]
    exact perform_next.mpr ⟨hf, hp, rfl, rfl⟩
  · rw [busNop_eq hf]
    refine ⟨⟨hf, hp⟩, ?_, ?_, rfl, rfl, ?_, ?_, ?_, ?_, ?_⟩ <;> simp [engineOwned]

/-- A run of k + 1 IDLE lines outside every window takes the bus k + 1 cycles on. -/
theorem runSteps_idle {rest : List Turn} (k : Nat) : ∀ {s : State}, Live s →
    (∀ r ∈ s.cfg.windows, r.matchesSnap scriptIdle = false) → s.script = repeatLine (k + 1) scriptIdle ++ rest →
    ∃ t, runSteps (k + 1) s = .next t ∧ Idled (k + 1) rest s t := by
  induction k with
  | zero =>
    intro s h hx hs
    obtain ⟨t, ht, hi⟩ := step_idle h hx hs
    exact ⟨t, by rw [runSteps, ht]; rfl, hi⟩
  | succ k ih =>
    intro s h hx hs
    obtain ⟨t, ht, hi⟩ := step_idle h hx hs
    obtain ⟨u, hu, hiu⟩ := ih hi.live (by rw [hi.config]; exact hx) hi.script
    exact ⟨u, by rw [runSteps, ht]; exact hu, hi.trans hiu⟩

/-- Settles O10: WAIT n is a run of n - cycleCount IDLE lines, each one bus cycle. -/
theorem waitReachesCycle : Obligations.WaitReachesCycle := by
  intro s n rest h hlt hx hs
  obtain ⟨k, hk⟩ : ∃ k, n - s.cycleCount = k + 1 := ⟨n - s.cycleCount - 1, by omega⟩
  rw [waitUntil, hk] at hs
  obtain ⟨t, ht, hi⟩ := runSteps_idle k h hx hs
  refine ⟨t, by rw [hk]; exact ht, ?_, hi.script, hi.answer, hi.run, hi.det, hi.slots, hi.writeIndex, hi.engine, hi.live⟩
  rw [hi.cycles]
  omega

end Sys2Proof.Machine

/-! SUPPORT. The family 40_bus_decoder, part 1: the bus operations with room in the queue (O16, O17, O18, O20, O21, O22). An
operation of either synthesizer chip is one guarded activation, said once for both; the guard follows from the
statement's hypotheses, and Laws/Bus.lean gives the activation as a record. -/

namespace Sys2Proof.Machine

/-! The operations that name a synthesizer chip. -/

/-- BUS.WRITE.SID of either chip (R157). -/
theorem exec_writeSidOf (ch : SynthId) (reg : RegIx) (val : Byte) (s : State) :
    exec (writeSidOf ch reg val) s =
      perform .running s "BUS.WRITE.SID" (s.cfg.active ch.chip) (busWriteSid ch reg val s) := by
  cases ch <;> rfl

/-- BUS.READ.PROBE of either chip (R162). -/
theorem exec_readProbeOf (ch : SynthId) (s : State) :
    exec (readProbeOf ch) s =
      perform .running s "BUS.READ.PROBE" (s.cfg.active ch.chip && s.cfg.readEmu && detTerminal s ch)
        (busReadProbe ch s) := by
  cases ch <;> rfl

/-- BUS.READ.SID of either chip (R160). -/
theorem exec_readSidOf (ch : SynthId) (reg : RegIx) (s : State) :
    exec (readSidOf ch reg) s =
      perform .running s "BUS.READ.SID"
        (s.cfg.active ch.chip && s.cfg.readEmu && !(detTerminal s ch && decide (reg = s.params.probeReg)))
        (busReadSid ch reg s) := by
  cases ch <;> rfl

/-- A synthesizer chip with a model is active, and that model is the one its probe answers for (R30, R162). -/
theorem active_of_model {cfg : SessionConfig} {ch : SynthId} {m : ChipModel} (h : cfg.model ch.chip = some m) :
    cfg.active ch.chip = true ∧ synthModel cfg ch = m := by
  cases ch with
  | sid1 => exact ⟨rfl, Option.some.inj h⟩
  | sid2 =>
    have h2 : cfg.modelSid2 = some m := h
    exact ⟨by simp [SynthId.chip, SessionConfig.active, h2], by simp [synthModel, h2]⟩

/-! The statements. -/

/-- Settles O16: BUS.NOP has no guard beyond the phase, and is the bare frame of an activation. -/
theorem nopOnlyCounts : Obligations.NopOnlyCounts := fun _ ⟨hf, hp⟩ =>
  perform_next.mpr ⟨hf, hp, rfl, busNop_eq hf⟩

/-- Settles O17: the guard is that the chip is active; with room the write is detection, snapshot and queue. -/
theorem writeSidAccepted : Obligations.WriteSidAccepted := by
  intro ch reg val s ⟨hf, hp⟩ hactive hroom
  rw [exec_writeSidOf]
  exact perform_next.mpr ⟨hf, hp, hactive, busWriteSid_of_room hf hroom⟩

/-- Settles O18: the guard is that the FM chip is enabled. -/
theorem writeFmAccepted : Obligations.WriteFmAccepted := fun _ _ _ ⟨hf, hp⟩ hfm hroom =>
  perform_next.mpr ⟨hf, hp, hfm, busWriteFm_of_room hf hroom⟩

/-- Settles O20: a chip with a model is active, so at the terminal step the guard holds. -/
theorem probeDrivesSentinel : Obligations.ProbeDrivesSentinel := by
  intro ch m s ⟨hf, hp⟩ hmodel hemu hterminal
  obtain ⟨hactive, hm⟩ := active_of_model hmodel
  have hguard : (s.cfg.active ch.chip && s.cfg.readEmu && detTerminal s ch) = true := by
    simp [hactive, hemu, hterminal]
  rw [exec_readProbeOf, ← hm]
  exact perform_next.mpr ⟨hf, hp, hguard, busReadProbe_eq hf⟩

/-- Settles O21: outside the case of the probe the guard holds. -/
theorem readSidDrivesImage : Obligations.ReadSidDrivesImage := by
  intro ch reg s ⟨hf, hp⟩ hactive hemu hplain
  have hguard : (s.cfg.active ch.chip && s.cfg.readEmu &&
      !(detTerminal s ch && decide (reg = s.params.probeReg))) = true := by
    have hprobe : (detTerminal s ch && decide (reg = s.params.probeReg)) = false :=
      Bool.eq_false_iff.mpr fun h => hplain (by simpa using h)
    simp [hactive, hemu, hprobe]
  rw [exec_readSidOf]
  exact perform_next.mpr ⟨hf, hp, hguard, busReadSid_eq hf⟩

/-- Settles O22: the guard is that a special region is configured, and its table is the one read. -/
theorem readSpecialDrivesTable : Obligations.ReadSpecialDrivesTable := by
  intro off region s ⟨hf, hp⟩ hspecial
  have hbytes : specialBytes s.cfg = region.bytes := by simp [specialBytes, hspecial]
  have hread := busReadSpecial_eq (off := off) hf
  rw [hbytes] at hread
  exact perform_next.mpr ⟨hf, hp, by rw [hspecial]; rfl, hread⟩

end Sys2Proof.Machine

/-! SUPPORT. The family 40_bus_decoder, part 2: what a turn of the schedule comes to (O11), and the measurement of the clock
(O23). -/

namespace Sys2Proof.Machine

/-! One turn. -/

/-- Before the exit of a session a step is the outcome of the turn at the head of the script (R4, R222). -/
theorem step_of_turn {s : State} {turn : Turn} {rest : List Turn} (hf : s.fault = none)
    (hx : ∀ r, s.phase ≠ .exited r) (hs : s.script = turn :: rest) :
    step s = (fetchTurn turn (takeTurn rest s)).outcome := by
  have hfetch : fetch s = fetchTurn turn (takeTurn rest s) := by
    unfold fetch
    split
    next r hp => exact absurd hp (hx r)
    next => rw [hs]
  rw [step_eq, hf, hfetch]

/-- Where something is decoded the session has not exited (R156). -/
theorem not_exited_of_decode {p : Params} {cfg : SessionConfig} {ph : Phase} {steps : PerSynth Nat} {sn : Snap}
    {i : Instr} (h : decode p cfg ph steps sn = .ok i) (r : ExitReason) : ph ≠ .exited r := by
  rintro rfl
  cases h

/-- The decoder sees of a strobe's state what the turn and the sampling leave as it was, and the sampled lines (R120, R130). -/
theorem decodeState_latchStrobe (sn : Snap) (fresh : Bool) (rest : List Turn) (s : State) :
    decodeState (latchStrobe sn fresh (takeTurn rest s)) =
      decode s.params s.cfg s.phase (detSteps s) (sn.onLines s.params) := by
  simp [decodeState, detSteps]

/-- A strobe runs the operation its snapshot selects, on the state with the lines sampled (R150, R156). -/
theorem fetchStrobe_of_decode {sn : Snap} {fresh : Bool} {s : State} {i : Instr}
    (h : decodeState (latchStrobe sn fresh s) = .ok i) : fetchStrobe sn fresh s = .run i (latchStrobe sn fresh s) := by
  rw [fetchStrobe, h]

/-- A strobe turn with a decoded snapshot, logical or read off raw lines (R122, R150). -/
theorem step_of_decode {s : State} {sn : Snap} {fresh : Bool} {rest : List Turn} {i : Instr} (hf : s.fault = none)
    (hs : s.script = .strobe sn fresh :: rest ∨
      ∃ raw, s.script = .strobeRaw raw fresh :: rest ∧ sn = s.params.readPins raw)
    (hd : decode s.params s.cfg s.phase (detSteps s) (sn.onLines s.params) = .ok i) :
    step s = exec i (latchStrobe sn fresh (takeTurn rest s)) := by
  have hx := not_exited_of_decode hd
  have hstrobe : (fetchStrobe sn fresh (takeTurn rest s)).outcome =
      exec i (latchStrobe sn fresh (takeTurn rest s)) := by
    rw [fetchStrobe_of_decode ((decodeState_latchStrobe sn fresh rest s).trans hd)]
    rfl
  rcases hs with hs | ⟨raw, hs, rfl⟩
  · exact (step_of_turn hf hx hs).trans hstrobe
  · exact (step_of_turn hf hx hs).trans hstrobe

/-- A sync turn of a live session is the reading it asks for, and nothing else (R100). -/
theorem step_sync {s : State} {v : ViewSync} {rest : List Turn} (h : Live s) (hs : s.script = .sync v :: rest) :
    step s = .next (syncView v (takeTurn rest s)) := by
  obtain ⟨hf, hp⟩ := h
  exact step_of_turn hf (by simp [hp]) hs

/-- Settles O11: the outcome of the turn, with each reading exact where R100 and R102 allow it. -/
theorem strobeRunsDecoded : Obligations.StrobeRunsDecoded := by
  refine ⟨fun s sn fresh rest i hf hs hd => ⟨step_of_decode hf hs hd, by simp, fun hfresh => by simp [hfresh]⟩,
    fun s rest h => ⟨?now, ?writeIx, ?readIx, ?capture, ?image, ?present⟩⟩
  case now =>
    intro c w hs hc hc' hw hw' hunseen
    have hsee : seeCycles c w (takeTurn rest s) = { takeTurn rest s with nowView := c, wView := w } :=
      seeCycles_eq hc hc' hw hw' (hunseen w le_rfl)
    rw [step_sync h hs, syncView, hsee]
    rfl
  case writeIx =>
    intro i hs hi hi'
    have hread : readBetween (takeTurn rest s).wView (takeTurn rest s).writeIndex i = i := readBetween_eq hi hi'
    rw [step_sync h hs, syncView, hread]
    rfl
  case readIx =>
    intro i hs hi hi'
    have hread : readBetween (takeTurn rest s).rView (takeTurn rest s).readIndex i = i := readBetween_eq hi hi'
    rw [step_sync h hs, syncView, hread]
    rfl
  case capture =>
    intro hs
    rw [step_sync h hs]
    rfl
  case image =>
    intro image later hs hflight
    have hdeliver : deliverImage (takeTurn rest s) =
        { takeTurn rest s with rbView := image, rbFlight := later } := by
      simp [deliverImage, hflight]
    rw [step_sync h hs, syncView, hdeliver]
    rfl
  case present =>
    intro hs hflight
    have hdeliver : deliverImage (takeTurn rest s) = { takeTurn rest s with rbView := s.rb } := by
      simp [deliverImage, hflight]
    rw [step_sync h hs, syncView, hdeliver]
    rfl

/-! The measurement. -/

theorem exec_busMeasure {s : State} (hf : s.fault = none) (hp : s.phase = .measuring) :
    exec .busMeasure s = .next { s with measureCount := s.measureCount + 1 } :=
  perform_next.mpr ⟨hf, hp, rfl, rfl⟩

/-- One strobe during the measurement (R166): the lines are sampled and the cycle is counted. -/
def measureStrobe (sn : Snap) (s : State) : State :=
  { latchStrobe sn true s with measureCount := s.measureCount + 1 }

/-- The strobes of a measurement, one after the other. -/
def measureStrobes (sns : List Snap) (s : State) : State := sns.foldl (fun t sn => measureStrobe sn t) s

/-- A strobe in phase Measuring, whatever its snapshot (R130, R166). -/
theorem step_measureStrobe {s : State} {sn : Snap} {rest : List Turn} (hf : s.fault = none)
    (hp : s.phase = .measuring) :
    step (takeTurn (.strobe sn true :: rest) s) = .next (takeTurn rest (measureStrobe sn s)) := by
  have hd : decode s.params s.cfg s.phase (detSteps s) (sn.onLines s.params) = .ok .busMeasure := by rw [hp]; rfl
  calc step (takeTurn (.strobe sn true :: rest) s)
      = exec .busMeasure (latchStrobe sn true (takeTurn rest s)) :=
        step_of_decode (s := takeTurn (.strobe sn true :: rest) s) hf (.inl rfl) hd
    _ = .next (takeTurn rest (measureStrobe sn s)) := exec_busMeasure hf hp

/-- The strobes at the head of the script of a measurement are all measured. -/
theorem runSteps_measureStrobes (sns : List Snap) {s : State} {rest : List Turn} (n : Nat) (hf : s.fault = none)
    (hp : s.phase = .measuring) :
    runSteps (sns.length + n) (takeTurn (sns.map (fun sn => Turn.strobe sn true) ++ rest) s) =
      runSteps n (takeTurn rest (measureStrobes sns s)) := by
  induction sns generalizing s with
  | nil => rw [List.length_nil, Nat.zero_add]; rfl
  | cons sn sns ih =>
    rw [List.length_cons, Nat.add_right_comm, runSteps, List.map_cons, List.cons_append, step_measureStrobe hf hp]
    exact ih hf hp

/-- The measurement leaves the machine faultless and in its phase. -/
theorem measureStrobes_fields (sns : List Snap) (s : State) :
    (measureStrobes sns s).params = s.params ∧ (measureStrobes sns s).fault = s.fault ∧
      (measureStrobes sns s).phase = s.phase := by
  induction sns generalizing s with
  | nil => exact ⟨rfl, rfl, rfl⟩
  | cons sn sns ih => exact ih (measureStrobe sn s)

/-- The start of the session forgets the measurement but for its count and the lines last sampled: it sets anew the views
that a strobe refreshes (R60, R345). -/
theorem runSession_measureStrobes (clk : Nat) (sns : List Snap) {s : State} (hp : s.phase = .measuring) :
    runSession clk (measureStrobes sns s) =
      { runSession clk s with
        measureCount := s.measureCount + sns.length, snap := (measureStrobes sns s).snap } := by
  induction sns generalizing s with
  | nil => rfl
  | cons sn sns ih =>
    have hone : runSession clk (measureStrobe sn s) =
        { runSession clk s with measureCount := s.measureCount + 1, snap := sn.onLines s.params } := by
      simp [measureStrobe, latchStrobe, refreshBus, hp, runSession, baseline, publish, flush]
    have hcount : (measureStrobe sn s).measureCount + sns.length = s.measureCount + (sn :: sns).length :=
      Nat.add_right_comm _ _ _
    calc runSession clk (measureStrobes (sn :: sns) s)
        = runSession clk (measureStrobes sns (measureStrobe sn s)) := rfl
      _ = _ := ih hp
      _ = _ := by rw [hone, hcount]; rfl

/-! The start of a session, in one step and split (R341). -/

/-- A valid start in one step: both halves, one after the other. -/
theorem step_start {s : State} {config : SessionConfig} {clk : Nat} {rest : List Turn} (hf : s.fault = none)
    (hp : s.phase = .notStarted) (hv : sessionViolation s.params config clk = none)
    (hs : s.script = .start config clk :: rest) :
    step s = .next (runSession clk (openSession config (takeTurn rest s))) := by
  rw [step_of_turn hf (by simp [hp]) hs]
  exact refuseInvalid_next.mpr ⟨hv, perform_next.mpr ⟨hf, hp, rfl, rfl⟩⟩

/-- The first half of a split start, with a valid configuration. -/
theorem step_beginSession {s : State} {config : SessionConfig} {rest : List Turn} (hf : s.fault = none)
    (hp : s.phase = .notStarted) (hv : configViolation s.params config = none)
    (hs : s.script = .beginSession config :: rest) : step s = .next (openSession config (takeTurn rest s)) := by
  have hb : fetchBegin config (takeTurn rest s) = .pass (openSession config (takeTurn rest s)) := by
    simp [fetchBegin, hp, hv]
  rw [step_of_turn hf (by simp [hp]) hs, fetchTurn, hb]
  rfl

/-- The second half, with a valid clock. -/
theorem step_finishSession {s : State} {clk : Nat} {rest : List Turn} (hf : s.fault = none)
    (hp : s.phase = .measuring) (hv : clauseV9 s.params clk = true) (hs : s.script = .finishSession clk :: rest) :
    step s = .next (runSession clk (takeTurn rest s)) := by
  have he : fetchFinish clk (takeTurn rest s) = .pass (runSession clk (takeTurn rest s)) := by
    simp [fetchFinish, hp, hv]
  rw [step_of_turn hf (by simp [hp]) hs, fetchTurn, he]
  rfl

/-- A valid start split around any strobes ends in the second half, after those strobes are measured. -/
theorem runSteps_splitStart {s : State} {config : SessionConfig} {clk : Nat} (sns : List Snap) {rest : List Turn}
    (hf : s.fault = none) (hp : s.phase = .notStarted) (hv : sessionViolation s.params config clk = none) :
    runSteps (sns.length + 2)
        (takeTurn (.beginSession config :: (sns.map (fun sn => Turn.strobe sn true) ++ .finishSession clk :: rest)) s) =
      .next (runSession clk (takeTurn rest (measureStrobes sns (openSession config s)))) := by
  obtain ⟨hconfig, hclock⟩ := sessionViolation_none hv
  obtain ⟨hparams, hfault, hphase⟩ := measureStrobes_fields sns (openSession config s)
  have hbegin := step_beginSession
    (s := takeTurn (.beginSession config :: (sns.map (fun sn => Turn.strobe sn true) ++ .finishSession clk :: rest)) s)
    hf hp hconfig rfl
  have hfinish := step_finishSession
    (s := takeTurn (.finishSession clk :: rest) (measureStrobes sns (openSession config s)))
    (hfault.trans hf) hphase (by simpa [hparams] using hclock) rfl
  rw [runSteps, hbegin]
  refine (runSteps_measureStrobes sns (s := openSession config s) 1 hf rfl).trans ?_
  rw [runSteps, hfinish]
  rfl

/-- Settles O23: both starts end in the second half, which forgets what the strobes between did but for their count and the
lines last sampled. -/
theorem measurementLosesTraffic : Obligations.MeasurementLosesTraffic := by
  refine ⟨fun _ => exec_busMeasure, fun s config clk sns rest hf hp hv => ?_⟩
  have hone := step_start (s := takeTurn (.start config clk :: rest) s) hf hp hv rfl
  refine ⟨_, _, hone, runSteps_splitStart sns hf hp hv, ?_⟩
  have hlost := congrArg (takeTurn rest) (runSession_measureStrobes clk sns (s := openSession config s) rfl)
  have hcount : (openSession config s).measureCount + sns.length = sns.length := Nat.zero_add _
  rw [hcount] at hlost
  exact hlost

end Sys2Proof.Machine

/-! SUPPORT. The family 41_event_queue: the operations of the queue (O27 to O30) and its index words (O31). What each
operation leaves is said once, and the statements cite it. -/

namespace Sys2Proof

/-! The index words (R186). -/

/-- The difference of two index words is the difference of the indices modulo 2^IDXW. -/
theorem wordOccupancy_wordIndex (idxw : Nat) {w r : Nat} (h : r ≤ w) :
    wordOccupancy idxw (wordIndex idxw w) (wordIndex idxw r) = (w - r) % 2 ^ idxw := by
  unfold wordOccupancy wordIndex
  have hlt : r % 2 ^ idxw < 2 ^ idxw := Nat.mod_lt _ (Nat.two_pow_pos idxw)
  have hdiv : r % 2 ^ idxw + 2 ^ idxw * (r / 2 ^ idxw) = r := Nat.mod_add_div r (2 ^ idxw)
  have hsum : w % 2 ^ idxw + (2 ^ idxw - r % 2 ^ idxw) + r =
      w % 2 ^ idxw + 2 ^ idxw * (r / 2 ^ idxw + 1) := by rw [Nat.mul_add]; omega
  refine Nat.ModEq.add_right_cancel' r (?_ : _ % _ = _ % _)
  rw [hsum, Nat.sub_add_cancel h, Nat.add_mul_mod_self_left, Nat.mod_mod]

/-- Two indices less than 2^IDXW apart have the same word only when they are equal. -/
theorem wordIndex_eq_iff {idxw w r : Nat} (h : r ≤ w) (hd : w - r < 2 ^ idxw) :
    wordIndex idxw w = wordIndex idxw r ↔ w = r := by
  refine ⟨fun he => ?_, fun he => by rw [he]⟩
  have hdvd : 2 ^ idxw ∣ w - r := (Nat.modEq_iff_dvd' h).mp he.symm
  have hzero := Nat.eq_zero_of_dvd_of_lt hdvd hd
  omega

/-- The wrap of an index keeps its slot when the capacity divides 2^IDXW. -/
theorem slotNumber_wordIndex {idxw qcap : Nat} (h : qcap ∣ 2 ^ idxw) (i : Nat) :
    slotNumber qcap (wordIndex idxw i) = slotNumber qcap i :=
  Nat.mod_mod_of_dvd i h

/-- A capacity as R186 wants it divides the number of index words and is below it. -/
theorem capacity_dvd_and_lt {idxw qcap : Nat} (h2 : 2 ≤ qcap) (hpow : ∃ e, qcap = 2 ^ e)
    (hcap : qcap ≤ 2 ^ (idxw - 1)) : qcap ∣ 2 ^ idxw ∧ qcap < 2 ^ idxw := by
  obtain ⟨e, rfl⟩ := hpow
  have hexp : e ≤ idxw - 1 := (Nat.pow_le_pow_iff_right (by decide)).mp hcap
  have hpos : e ≠ 0 := by rintro rfl; exact absurd h2 (by decide)
  exact ⟨Nat.pow_dvd_pow 2 (by omega), Nat.pow_lt_pow_right (by decide) (by omega)⟩

/-- Settles O31: the occupancy is exact below 2^IDXW, and a power of two up to 2^(IDXW-1) divides 2^IDXW. -/
theorem wrappedIndicesAgree : Obligations.WrappedIndicesAgree := by
  intro idxw qcap w r h2 hpow hcap hle hocc
  obtain ⟨hdvd, hlt⟩ := capacity_dvd_and_lt h2 hpow hcap
  have hdiff : w - r < 2 ^ idxw := hocc.trans_lt hlt
  exact ⟨(wordOccupancy_wordIndex idxw hle).trans (Nat.mod_eq_of_lt hdiff), wordIndex_eq_iff hle hdiff,
    slotNumber_wordIndex hdvd w⟩

end Sys2Proof

namespace Sys2Proof.Machine

/-! Q.ENQUEUE (R180, R181). -/

/-- Q.ENQUEUE with room as BD sees it. -/
theorem exec_qEnqueue_of_room {ev : BusEvent} {s : State} (h : Live s)
    (hroom : s.writeIndex - s.rView < s.params.qcap) :
    exec (.qEnqueue ev) s = .next
      { s with
        slots := Slots.set s.slots (slotNumber s.params.qcap s.writeIndex) ev
        writeIndex := s.writeIndex + 1 } := by
  obtain ⟨hf, hp⟩ := h
  exact perform_next.mpr ⟨hf, hp, rfl, enqueue_of_room hroom⟩

/-- Q.ENQUEUE on a queue that is full as BD sees it. -/
theorem exec_qEnqueue_of_full {ev : BusEvent} {s : State} (h : Live s)
    (hfull : s.params.qcap ≤ s.writeIndex - s.rView) :
    exec (.qEnqueue ev) s = .next { s with fault := some .queueOverflow } := by
  obtain ⟨hf, hp⟩ := h
  exact perform_next.mpr ⟨hf, hp, rfl, (enqueue_of_full hfull).trans (raiseFatal_of_none hf)⟩

/-- Settles O27: a view not past readIndex sees at least the true occupancy, so a full queue is seen to be full. -/
theorem enqueueRoomOrFatal : Obligations.EnqueueRoomOrFatal := fun _ _ hlive =>
  ⟨exec_qEnqueue_of_room hlive, exec_qEnqueue_of_full hlive,
    fun hview hfull => exec_qEnqueue_of_full hlive (hfull.trans (Nat.sub_le_sub_left hview _))⟩

/-! Filling the queue (R187). -/

/-- Operations appended to a run that has a next state go on from it. -/
theorem execAll_append {is js : List Instr} {s t : State} (h : execAll is s = .next t) :
    execAll (is ++ js) s = execAll js t := by
  induction is generalizing s with
  | nil =>
    obtain rfl : s = t := Host.Outcome.next.inj h
    rfl
  | cons i is ih =>
    rw [execAll] at h
    rw [List.cons_append, execAll]
    cases hi : exec i s with
    | next u => rw [hi] at h; exact ih h
    | fault f => rw [hi] at h; exact nomatch h
    | refused r => rw [hi] at h; exact nomatch h

/-- `t` is a live state that the events `evs`, queued one after the other from `s` on, lead to: they stand in order from
the old writeIndex on, and neither readIndex nor BD's view of it has moved. -/
structure Filled (s : State) (evs : List BusEvent) (t : State) : Prop where
  live : Live t
  params : t.params = s.params
  readIndex : t.readIndex = s.readIndex
  rView : t.rView = s.rView
  writeIndex : t.writeIndex = s.writeIndex + evs.length
  events : ∀ k, (h : k < evs.length) → eventAt t (s.writeIndex + k) = evs[k]

theorem Filled.nil {s : State} (h : Live s) : Filled s [] s :=
  ⟨h, rfl, rfl, rfl, rfl, fun _ hk => absurd hk (Nat.not_lt_zero _)⟩

/-- With fewer events than the capacity queued, one more goes in: the slots of those before it are others (R92). -/
theorem Filled.snoc {s t : State} {evs : List BusEvent} (h : Filled s evs t) (ev : BusEvent)
    (hview : s.rView = s.writeIndex) (hroom : evs.length < s.params.qcap) :
    ∃ u, exec (.qEnqueue ev) t = .next u ∧ Filled s (evs ++ [ev]) u := by
  obtain ⟨hlive, hparams, hread, hrView, hwrite, hevents⟩ := h
  have hseen : t.writeIndex - t.rView < t.params.qcap := by rw [hwrite, hrView, hview, hparams]; omega
  refine ⟨_, exec_qEnqueue_of_room hlive hseen, hlive, hparams, hread, hrView, ?_, fun k hk => ?_⟩
  · rw [List.length_append, List.length_singleton, ← Nat.add_assoc, ← hwrite]
  · rcases Nat.lt_or_ge k evs.length with hold | hnew
    · rw [List.getElem_append_left hold, ← hevents k hold]
      exact eventAt_queued (s := t) rfl rfl (by omega) (by rw [hparams]; omega)
    · have hlast : k = evs.length := by
        rw [List.length_append, List.length_singleton] at hk
        omega
      subst hlast
      rw [List.getElem_concat_length rfl, ← hwrite]
      exact eventAt_queued_self (s := t) rfl rfl

/-- Up to a capacity of events go into a queue that BD sees empty. -/
theorem execAll_qEnqueue {s : State} (evs : List BusEvent) (hlive : Live s) (hview : s.rView = s.writeIndex)
    (hlen : evs.length ≤ s.params.qcap) :
    ∃ t, execAll (evs.map .qEnqueue) s = .next t ∧ Filled s evs t := by
  induction evs using List.reverseRecOn with
  | nil => exact ⟨s, rfl, .nil hlive⟩
  | append_singleton evs ev ih =>
    rw [List.length_append, List.length_singleton] at hlen
    obtain ⟨t, hrun, hfilled⟩ := ih (by omega)
    obtain ⟨u, hstep, hu⟩ := hfilled.snoc ev hview hlen
    refine ⟨u, ?_, hu⟩
    rw [List.map_append, execAll_append hrun, List.map_singleton, execAll, hstep]
    rfl

/-- Settles O28: a capacity of events fills the queue, and the next one finds it full. -/
theorem capacityBoundary : Obligations.CapacityBoundary := by
  intro s evs ev hlive hempty hview _ hlen
  obtain ⟨t, hrun, ht⟩ := execAll_qEnqueue evs hlive (hview.trans hempty) hlen.le
  have hread : t.readIndex = s.writeIndex := ht.readIndex.trans hempty
  have hocc : t.writeIndex - t.readIndex = s.params.qcap := by
    rw [ht.writeIndex, hread, hlen, Nat.add_sub_cancel_left]
  have hfull : t.params.qcap ≤ t.writeIndex - t.rView := by
    rw [ht.rView, hview, ← ht.readIndex, hocc, ht.params]
  exact ⟨t, hrun, ht.live.1, hocc, hread ▸ ht.events, exec_qEnqueue_of_full ht.live hfull⟩

/-! The consumer's operations, and Q.FLUSH (R182 to R184). -/

/-- drainUpTo returns the visible events that are due, up to the first that is not, and the index after them (R182). -/
theorem drainUpTo_eq (cycle : Nat) (s : State) :
    ∃ n, drainUpTo cycle s = ((List.range n).map fun k => eventAt s (s.readIndex + k), s.readIndex + n) ∧
      n ≤ s.wView - s.readIndex ∧ (∀ k, k < n → (eventAt s (s.readIndex + k)).ts ≤ cycle) ∧
      (n < s.wView - s.readIndex → cycle < (eventAt s (s.readIndex + n)).ts) := by
  obtain ⟨n, hle, hindex, hlist, hdue, hlater⟩ :=
    drainLoop_spec s.slots s.params.qcap cycle (s.wView - s.readIndex) s.readIndex
  exact ⟨n, Prod.ext hlist hindex, hle, hdue, hlater⟩

/-- Settles O29: with readIndex at most the view, the number of visible events is exact. -/
theorem drainTakesDuePrefix : Obligations.DrainTakesDuePrefix := by
  intro cycle s ⟨hf, hp⟩ hview
  obtain ⟨n, hdrain, hle, hdue, hlater⟩ := drainUpTo_eq cycle s
  refine ⟨n, perform_next.mpr ⟨hf, hp, rfl, by rw [hdrain]⟩, by omega, hdue, fun hn => hlater (by omega)⟩

theorem peek_of_empty {s : State} (h : s.readIndex = s.wView) : peek s = none :=
  if_neg fun hv => headVisible_iff.mp hv h

theorem peek_of_visible {s : State} (h : s.readIndex ≠ s.wView) : peek s = some (eventAt s s.readIndex).ts :=
  if_pos (headVisible_iff.mpr h)

/-- Settles O30: the answer of Q.PEEK turns on whether the head is visible. -/
theorem peekAndFlush : Obligations.PeekAndFlush := fun _ ⟨hf, hp⟩ =>
  ⟨fun hempty => perform_next.mpr ⟨hf, hp, rfl, by rw [peek_of_empty hempty]⟩,
    fun hvisible => perform_next.mpr ⟨hf, hp, rfl, by rw [peek_of_visible hvisible]⟩,
    perform_next.mpr ⟨hf, hp, rfl, rfl⟩⟩

end Sys2Proof.Machine

/-! SUPPORT. The family 42_chip_engine, part 1: the laws of the chip cores (O42). The two facts that need the inside of a
core are that clock runs of a history add up and that a write reads back; part 2 uses additivity for slices. -/

namespace Sys2Proof.Machine

/-! ChipClock (R203). -/

/-- A run of the clock put on a history that begins with a run lengthens it. -/
theorem clockHistory_clock (j k : Nat) (ops : List ChipOp) :
    clockHistory (.clock j :: ops) k = .clock (j + k) :: ops := by
  unfold clockHistory
  split
  next h => rw [h, Nat.add_zero]
  next => rfl

/-- After a nonempty run of the clock a history begins with a run, which every further cycle lengthens. -/
theorem clockHistory_begins {k : Nat} (h : k ≠ 0) (ops : List ChipOp) :
    ∃ j rest, ∀ i, clockHistory ops (k + i) = .clock (j + i) :: rest := by
  match ops with
  | [] => exact ⟨k, [], fun i => by simp [clockHistory, h]⟩
  | .write r v :: ops => exact ⟨k, .write r v :: ops, fun i => by simp [clockHistory, h]⟩
  | .clock j :: ops => exact ⟨j + k, ops, fun i => by rw [clockHistory_clock, Nat.add_assoc]⟩

theorem clockHistory_add (ops : List ChipOp) (a b : Nat) :
    clockHistory (clockHistory ops a) b = clockHistory ops (a + b) := by
  by_cases ha : a = 0
  · subst ha
    rw [Nat.zero_add]
    rfl
  · obtain ⟨j, rest, hrun⟩ := clockHistory_begins ha ops
    have hfirst : clockHistory ops a = .clock j :: rest := hrun 0
    rw [hfirst, hrun b, clockHistory_clock]

theorem chipClock_zero (core : ChipCore) : chipClock core 0 = core := by
  cases core with
  | testchip regs phase => simp [chipClock]
  | history kind model ops => rfl

theorem chipClock_add (core : ChipCore) (a b : Nat) : chipClock (chipClock core a) b = chipClock core (a + b) := by
  cases core with
  | testchip regs phase => simp only [chipClock, BitVec.ofNat_add, BitVec.add_mul, BitVec.add_assoc]
  | history kind model ops => simp only [chipClock, clockHistory_add]

/-! A write read back (R204). -/

theorem chipRead_chipWrite_testchip {ro : PerKind (List RegIx)} {regs : Memory} {phase : BitVec 16} {r : RegIx}
    (hregs : Memory.wf regs = true) (hr : r ≠ testReadOnly) (v : Byte) :
    chipRead ro (chipWrite (.testchip regs phase) r v) r = v := by
  simp only [chipWrite, chipRead, if_neg hr, Memory.get_set hregs, if_true]

theorem chipRead_chipWrite_synth {ro : PerKind (List RegIx)} {r : RegIx} (hr : r ∉ ro.synth) (model : Option ChipModel)
    (ops : List ChipOp) (v : Byte) : chipRead ro (chipWrite (.history .synth model ops) r v) r = v :=
  if_pos ⟨rfl, hr⟩

/-- Settles O42: additivity and the round trip, each for TESTCHIP and for a history. -/
theorem chipCoreLaws : Obligations.ChipCoreLaws := by
  refine ⟨fun impl m m' => by cases impl <;> rfl, chipClock_zero, chipClock_add, fun ro core r v hcanonical hfm hr => ?_⟩
  match core with
  | .testchip regs phase =>
    exact chipRead_chipWrite_testchip hcanonical.1 (fun h => hr (List.mem_singleton.mpr h)) v
  | .history .synth model ops => exact chipRead_chipWrite_synth hr model ops v
  | .history .fmchip model ops => exact absurd rfl (hfm model ops)

end Sys2Proof.Machine

/-! SUPPORT. The family 42_chip_engine, part 2: the operations of the engine (O35, O36, O37, O39, O40, O41), a slice against
single steps (O38), and which operation an engine turn performs (O12). -/

namespace Sys2Proof.Machine

/-! EN.PUBLISH and EN.APPLY (R212, R213, R218). -/

/-- What an image reads after a publication. -/
theorem publish_image (s : State) (c : ChipId) :
    if s.cfg.active c then
      ∀ r : RegIx, Memory.get ((publish s).rb.get c) r.toNat = chipRead s.params.roRegs (s.chip.get c).core r
    else (publish s).rb.get c = s.rb.get c := by
  split
  next hc => simp [hc, get_chipImage]
  next hc => simp [hc]

/-- Settles O40: the publication is the whole of EN.PUBLISH. -/
theorem publishCopiesReadback : Obligations.PublishCopiesReadback := fun s ⟨hf, hp⟩ =>
  ⟨publish s, perform_next.mpr ⟨hf, hp, rfl, rfl⟩, rfl, publish_image s⟩

/-- EN.APPLY with the head visible and due. -/
theorem exec_enApply {s : State} (h : Live s) (hvisible : s.readIndex ≠ s.wView)
    (hdue : (eventAt s s.readIndex).ts ≤ s.E) : exec .enApply s = .next (applyHead s) :=
  perform_next.mpr ⟨h.1, h.2, headDue_iff.mpr ⟨hvisible, hdue⟩, rfl⟩

/-- Settles O35: EN.APPLY is the write of the head event and then a publication. -/
theorem applyInjectsHead : Obligations.ApplyInjectsHead := by
  rintro s ev hlive hvisible rfl hdue
  exact ⟨applyHead s, exec_enApply hlive hvisible hdue, rfl,
    publish_image { s with chip := (applyHead s).chip, readIndex := s.readIndex + 1 }⟩

/-- Settles O36: the head is not past E because it is due, and not behind it because the queue is in time (R104). -/
theorem appliedAtOwnCycle : Obligations.AppliedAtOwnCycle := by
  intro s t hcounters htimely hchips h
  obtain ⟨-, hrunning, hdue, rfl⟩ := perform_next.mp h
  obtain ⟨hvisible, hts⟩ := headDue_iff.mp hdue
  obtain ⟨-, hview, hwrite⟩ := hcounters.indices
  have hpending : Pending s s.readIndex := ⟨le_rfl, by omega⟩
  have hcycle : (eventAt s s.readIndex).ts = s.E := le_antisymm hts (htimely.ahead _ hpending)
  exact ⟨hcycle, by simp, fun c hc => (hchips.lockstep hrunning c hc).trans hcycle.symm⟩

/-! EN.SAMPLE (R217). -/

/-- The pair EN.SAMPLE mixes, left where MIX leaves it. -/
def mixedState (s : State) : State := { s with mixed := mixPair s (chipOutputs s) }

/-- The state in which EN.SAMPLE reads the sink's occupancy: the pair has been written. -/
def writtenState (s : State) : State :=
  sinkWrite (mixPair s (chipOutputs s)).1 (mixPair s (chipOutputs s)).2 (mixedState s)

/-- A sample with the sink away is mixed and dropped (R266, R283). -/
theorem takeSample_of_away {s : State} (h : s.sinkAvailable = false) : takeSample s = mixedState s :=
  if_neg (Bool.eq_false_iff.mp h)

/-- A sample with the sink there is written, and then counted with the occupancy read after the write. -/
theorem takeSample_of_available {s : State} (h : s.sinkAvailable = true) :
    takeSample s = rateAccum (sinkOccupancy (writtenState s)) (writtenState s) :=
  if_pos h

theorem exec_enSample {s : State} (h : Live s) : exec .enSample s = .next (takeSample s) :=
  perform_next.mpr ⟨h.1, h.2, rfl, rfl⟩

/-- Settles O39: MIX, SINK.WRITE and RATE.ACCUM by themselves meet the states EN.SAMPLE passes through. -/
theorem sampleMixesWritesCounts : Obligations.SampleMixesWritesCounts := fun s ⟨hf, hp⟩ =>
  ⟨(mixPair s (chipOutputs s)).1, (mixPair s (chipOutputs s)).2, perform_next.mpr ⟨hf, hp, rfl, rfl⟩,
    fun haway => (exec_enSample ⟨hf, hp⟩).trans (congrArg _ (takeSample_of_away haway)),
    fun hsink => ⟨writtenState s, takeSample s, perform_next.mpr ⟨hf, hp, hsink, rfl⟩,
      perform_next.mpr ⟨hf, hp, hsink, (takeSample_of_available hsink).symm⟩, exec_enSample ⟨hf, hp⟩⟩⟩

/-! EN.STEP (R214, R216). -/

/-- EN.STEP with a slice that fits. -/
theorem exec_enStep {s : State} {k : Nat} (h : Live s) (hfit : SliceFits k s) :
    exec (.enStep k) s = .next (engineStep k s) := by
  obtain ⟨hdue, hbehind, hallowed⟩ := guard_of_sliceFits hfit
  exact perform_next.mpr ⟨h.1, h.2, by simp [hdue, hbehind, hallowed], rfl⟩

/-- The state of EN.STEP at its sample check: the chips clocked and their images published. -/
def clockAndPublish (k : Nat) (s : State) : State := publish (clockChips k s)

theorem engineStep_of_quiet {s : State} {k : Nat} (h : (s.E + k) * s.rc.rate / s.clk = s.prevS) :
    engineStep k s = clockAndPublish k s :=
  if_neg (not_not.mpr h)

theorem engineStep_of_sample {s : State} {k : Nat} (h : (s.E + k) * s.rc.rate / s.clk ≠ s.prevS) :
    engineStep k s = takeSample { clockAndPublish k s with prevS := (s.E + k) * s.rc.rate / s.clk } :=
  if_pos h

theorem clockChips_chip (k : Nat) (s : State) (c : ChipId) :
    (clockChips k s).chip.get c = if s.cfg.active c then clockChip k (s.chip.get c) else s.chip.get c := by
  cases c <;> rfl

/-- What a chip and its image are at the sample check. -/
theorem clockAndPublish_chip (k : Nat) (s : State) (c : ChipId) :
    if s.cfg.active c then
      (clockAndPublish k s).chip.get c = ⟨chipClock (s.chip.get c).core k, (s.chip.get c).emu + k⟩ ∧
      ∀ r : RegIx, Memory.get ((clockAndPublish k s).rb.get c) r.toNat =
        chipRead s.params.roRegs ((clockAndPublish k s).chip.get c).core r
    else (clockAndPublish k s).chip.get c = s.chip.get c ∧ (clockAndPublish k s).rb.get c = s.rb.get c := by
  have hchip := clockChips_chip k s c
  have himage := publish_image (clockChips k s) c
  split
  next hc => exact ⟨hchip.trans (if_pos hc), (if_pos hc).mp himage⟩
  next hc => exact ⟨hchip.trans (if_neg hc), (if_neg hc).mp himage⟩

/-- Settles O37: EN.STEP is the clocking and publication, and then the sample check. -/
theorem stepClocksAndSamples : Obligations.StepClocksAndSamples := by
  intro s k hlive hfit
  have hstep := exec_enStep hlive hfit
  refine ⟨clockAndPublish k s, rfl, clockAndPublish_chip k s, fun hquiet => ?quiet, fun hsample => ?sample⟩
  case quiet => rw [hstep, engineStep_of_quiet hquiet]
  case sample => exact ⟨engineStep k s, hstep, by rw [engineStep_of_sample hsample]; exact exec_enSample hlive⟩

/-! A slice against single steps (R215). -/

theorem PerChip.ext_get {α : Type} {p q : PerChip α} (h : ∀ c, p.get c = q.get c) : p = q := by
  cases p
  cases q
  exact (PerChip.mk.injEq ..).mpr ⟨h .sid1, h .sid2, h .fm⟩

/-- Of two changes of the active chips only the last is seen. -/
theorem onActive_onActive {α : Type} (cfg : SessionConfig) (old mid new : PerChip α) :
    onActive cfg (onActive cfg old mid) new = onActive cfg old new := by
  unfold onActive
  congr 1 <;> split <;> rfl

theorem clockChip_add (a b : Nat) (c : ChipState) : clockChip b (clockChip a c) = clockChip (a + b) c := by
  simp only [clockChip, chipClock_add, Nat.add_assoc]

/-- Clocking adds up, chip by chip (R203). -/
theorem clockChips_add (a b : Nat) (s : State) : clockChips b (clockChips a s) = clockChips (a + b) s := by
  have hchip : (clockChips b (clockChips a s)).chip = (clockChips (a + b) s).chip := by
    refine PerChip.ext_get fun c => ?_
    have hcfg : (clockChips a s).cfg = s.cfg := rfl
    simp only [clockChips_chip, hcfg]
    split
    next => exact clockChip_add a b _
    next => rfl
  calc clockChips b (clockChips a s)
    _ = { s with chip := (clockChips b (clockChips a s)).chip, E := s.E + a + b } := rfl
    _ = { s with chip := (clockChips (a + b) s).chip, E := s.E + (a + b) } := by rw [hchip, Nat.add_assoc]

/-- Publication in the middle of a slice is lost in the one at its end. -/
theorem publish_clockChips_publish (k : Nat) (s : State) :
    publish (clockChips k (publish s)) = publish (clockChips k s) := by
  simp only [publish, clockChips, onActive_onActive]

theorem clockAndPublish_add (a b : Nat) (s : State) :
    clockAndPublish b (clockAndPublish a s) = clockAndPublish (a + b) s := by
  unfold clockAndPublish
  rw [publish_clockChips_publish, clockChips_add]

/-- The rest of a slice after cycles that took no sample. -/
theorem engineStep_clockAndPublish (a b : Nat) (s : State) :
    engineStep b (clockAndPublish a s) = engineStep (a + b) s :=
  congrArg sampleCheck (clockAndPublish_add a b s)

/-- The first cycle of a slice fits. -/
theorem SliceFits.first {s : State} {k : Nat} (h : SliceFits k s) : SliceFits 1 s := by
  obtain ⟨⟨hpos, hmax⟩, hbehind, hhead, -⟩ := h
  exact ⟨⟨le_rfl, by omega⟩, by omega, fun hv => by have := hhead hv; omega, by omega⟩

/-- After the first cycle of a longer slice the rest of it fits. -/
theorem SliceFits.rest {s : State} {k : Nat} (h : SliceFits (k + 1) s) (hk : 1 ≤ k) :
    SliceFits k (clockAndPublish 1 s) := by
  obtain ⟨⟨-, hmax⟩, hbehind, hhead, hquiet⟩ := h
  have hcycle (j : Nat) : s.E + 1 + j = s.E + (j + 1) := by omega
  refine ⟨⟨hk, Nat.le_of_succ_le hmax⟩, (hcycle k).trans_le hbehind, fun hv => (hcycle k).trans_le (hhead hv), ?_⟩
  intro j h1 hj
  change (s.E + 1 + j) * s.rc.rate / s.clk = s.prevS
  rw [hcycle]
  exact hquiet (j + 1) (by omega) (by omega)

/-- By induction on the length of the slice: its first cycle takes no sample unless it is the only one. -/
theorem execAll_singleSteps {s : State} {k : Nat} (h : Live s) (hfit : SliceFits k s) :
    execAll (List.replicate k (.enStep 1)) s = .next (engineStep k s) := by
  induction k generalizing s with
  | zero => exact absurd hfit.length.1 (by omega)
  | succ k ih =>
    have hfirst := exec_enStep h hfit.first
    rw [List.replicate_succ, execAll, hfirst]
    rcases Nat.eq_zero_or_pos k with rfl | hk
    · rfl
    · have hquiet := hfit.quiet 1 le_rfl (by omega)
      rw [engineStep_of_quiet hquiet, Nat.add_comm k 1, ← engineStep_clockAndPublish]
      exact ih h (hfit.rest hk)

/-- Settles O38: both runs end in the state of the whole slice. -/
theorem sliceEqualsSingleSteps : Obligations.SliceEqualsSingleSteps := fun s k hlive hfit =>
  ⟨engineStep k s, exec_enStep hlive hfit, execAll_singleSteps hlive hfit⟩

/-! EN.IDLE and EN.EXIT (R220, R222). -/

/-- Settles O41: idling is the identity; after the exit no turn is fetched. -/
theorem idleAndExit : Obligations.IdleAndExit := by
  intro s ⟨hf, hp⟩
  refine ⟨fun hx hhead hview => perform_next.mpr ⟨hf, hp, ?_, rfl⟩,
    fun r hr => ⟨perform_next.mpr ⟨hf, hp, decide_eq_true hr, rfl⟩, step_of_exited hf rfl⟩⟩
  have hdue : ¬headDue s = true := fun hd => by
    obtain ⟨hv, hts⟩ := headDue_iff.mp hd
    exact absurd (hhead hv) (Nat.not_lt.mpr hts)
  have hbehind : ¬engineBehind s = true := fun hb => absurd (engineBehind_iff.mp hb) (Nat.not_lt.mpr hview)
  simp [hx, hdue, hbehind]

/-! The choice of the operation (R211). -/

/-- An engine turn of a live session performs the operation its latched state selects. -/
theorem step_engine {s : State} {inp : EngineInput} {rest : List Turn} (h : Live s)
    (hs : s.script = .engine inp :: rest) :
    step s = exec (selectEngine inp.slice (latchEngine inp (takeTurn rest s))) (latchEngine inp (takeTurn rest s)) := by
  obtain ⟨hf, hp⟩ := h
  have hfetch : fetchTurn (.engine inp) (takeTurn rest s) =
      .run (selectEngine inp.slice (latchEngine inp (takeTurn rest s))) (latchEngine inp (takeTurn rest s)) :=
    if_pos hp
  rw [step_of_turn hf (by simp [hp]) hs, hfetch]
  rfl

section

variable {slice : Nat} {s : State}

theorem selectEngine_of_exit {r : ExitReason} (h : s.exitCond = some r) : selectEngine slice s = .enExit r := by
  rw [selectEngine, h]

theorem selectEngine_of_due (hx : s.exitCond = none) (hd : headDue s = true) : selectEngine slice s = .enApply := by
  simp [selectEngine, hx, hd]

theorem selectEngine_of_behind (hx : s.exitCond = none) (hd : headDue s = false) (hb : engineBehind s = true) :
    selectEngine slice s = .enStep (if sliceAllowed slice s then slice else 1) := by
  simp [selectEngine, hx, hd, hb]

theorem selectEngine_of_caughtUp (hx : s.exitCond = none) (hd : headDue s = false) (hb : engineBehind s = false) :
    selectEngine slice s = .enIdle := by
  simp [selectEngine, hx, hd, hb]

/-- The slice the engine takes (R215): the one asked for where it fits. -/
theorem grantedSlice_of_fits (h : SliceFits slice s) : (if sliceAllowed slice s then slice else 1) = slice := by
  obtain ⟨-, -, hallowed⟩ := guard_of_sliceFits h
  exact if_pos hallowed

/-- Where the slice asked for does not fit, one cycle is taken. -/
theorem grantedSlice_of_not_fits (h : ¬SliceFits slice s) : (if sliceAllowed slice s then slice else 1) = 1 := by
  split
  next hallowed => exact by_contra fun hne => h ((sliceAllowed_iff hne).mp hallowed)
  next => rfl

end

/-- Settles O12: the branches of the choice, each under the conditions of the rule. -/
theorem engineChoice : Obligations.EngineChoice := by
  rintro s u inp rest hlive hs rfl
  rw [step_engine hlive hs]
  refine ⟨fun hfresh => by simp [hfresh], fun r hr => by rw [selectEngine_of_exit hr],
    fun hx hdue => by rw [selectEngine_of_due hx (headDue_iff.mpr hdue)], fun hx hdue hbehind => ?behind,
    fun hx hdue hlevel => ?idle⟩
  case behind =>
    rw [selectEngine_of_behind hx (Bool.eq_false_iff.mpr (mt headDue_iff.mp hdue)) (engineBehind_iff.mpr hbehind)]
    exact ⟨fun hfit => by rw [grantedSlice_of_fits hfit], fun hfit => by rw [grantedSlice_of_not_fits hfit]⟩
  case idle =>
    rw [selectEngine_of_caughtUp hx (Bool.eq_false_iff.mpr (mt headDue_iff.mp hdue))
      (Bool.eq_false_iff.mpr (mt engineBehind_iff.mp hlevel))]

end Sys2Proof.Machine

/-! SUPPORT. The family 43_detection, part 1: the operations DET.* (O32) and what leaves a chip's detection state alone
(O33). A write of either chip moves the detection state of that chip as R157 says, queue full or not. -/

namespace Sys2Proof.Machine

/-! The operations DET.* (R241 to R243). -/

/-- Settles O32: R241's guard selects between advance and miss, R243's the probe. -/
theorem detectionOperations : Obligations.DetectionOperations := by
  intro ch reg val s ⟨hf, hp⟩ hactive
  refine ⟨fun hexpected => ?advance, fun hother => ?miss, fun hemu hterminal => ?probe⟩
  case advance =>
    have hguard : (s.cfg.active ch.chip && detExpected s ch reg val) = true := by
      simp [hactive, hexpected]
    exact perform_next.mpr ⟨hf, hp, hguard, rfl⟩
  case miss =>
    have hunexpected : detExpected s ch reg val = false := Bool.eq_false_iff.mpr (mt detExpected_iff.mp hother)
    have hguard : (s.cfg.active ch.chip && !detExpected s ch reg val) = true := by
      simp [hactive, hunexpected]
    exact perform_next.mpr ⟨hf, hp, hguard, rfl⟩
  case probe =>
    have hguard : (s.cfg.active ch.chip && s.cfg.readEmu && detTerminal s ch) = true := by
      simp [hactive, hemu, hterminal]
    exact perform_next.mpr ⟨hf, hp, hguard, rfl⟩

/-! What an operation does to the detection state of a chip. -/

/-- A write moves the detection state of its chip, whether its event is queued or raises the fault (R157, R302). -/
theorem busWriteSid_det (ch : SynthId) (reg : RegIx) (val : Byte) {s : State} (h : s.fault = none) :
    (busWriteSid ch reg val s).det = s.det.set ch (writtenDet s ch reg val) := by
  rcases Nat.lt_or_ge (s.writeIndex - s.rView) s.params.qcap with hroom | hfull
  · rw [busWriteSid_of_room h hroom]
  · rw [busWriteSid_of_full h hfull]

theorem exec_writeSidOf_det {ch : SynthId} {reg : RegIx} {val : Byte} {s t : State}
    (h : exec (writeSidOf ch reg val) s = .next t) : t.det = s.det.set ch (writtenDet s ch reg val) := by
  rw [exec_writeSidOf] at h
  obtain ⟨hf, -, -, rfl⟩ := perform_next.mp h
  exact busWriteSid_det ch reg val hf

theorem exec_readProbeOf_det {ch : SynthId} {s t : State} (h : exec (readProbeOf ch) s = .next t) :
    t.det = s.det.set ch { s.det.get ch with step := 0 } := by
  rw [exec_readProbeOf] at h
  obtain ⟨hf, -, -, rfl⟩ := perform_next.mp h
  rw [busReadProbe_eq hf]

/-- The detection state of one chip is not that of another (R244). -/
theorem det_get_of_set {det : PerSynth DetState} {s : State} {ch c : SynthId} {d : DetState}
    (h : det = s.det.set c d) (hne : decide (ch = c) = false) : det.get ch = s.det.get ch := by
  rw [h, PerSynth.get_set, if_neg (of_decide_eq_false hne)]

/-- An operation that touches no detection state of a chip, and commits no reset, leaves that state alone (R244, R245). -/
theorem exec_det_get {i : Instr} {ch : SynthId} {s t : State} (hi : touchesDetection ch i = false)
    (hreset : i = .busReset → s.resetRun + 1 < s.params.tRst) (h : exec i s = .next t) :
    t.det.get ch = s.det.get ch := by
  cases i with
  | busReset =>
    obtain ⟨-, -, -, rfl⟩ := perform_next.mp h
    rw [busReset_below (hreset rfl)]
  | busWriteSid1 reg val => exact det_get_of_set (exec_writeSidOf_det (ch := .sid1) h) hi
  | busWriteSid2 reg val => exact det_get_of_set (exec_writeSidOf_det (ch := .sid2) h) hi
  | busReadProbe1 => exact det_get_of_set (exec_readProbeOf_det (ch := .sid1) h) hi
  | busReadProbe2 => exact det_get_of_set (exec_readProbeOf_det (ch := .sid2) h) hi
  | detAdvance c | detMiss c | detProbe c =>
    obtain ⟨-, -, -, rfl⟩ := perform_next.mp h
    exact det_get_of_set rfl hi
  | busWriteFm reg val =>
    obtain ⟨-, -, -, rfl⟩ := perform_next.mp h
    simp [busWriteFm, activation]
  | busReadSid1 reg | busReadSid2 reg =>
    obtain ⟨hf, -, -, rfl⟩ := perform_next.mp h
    rw [busReadSid_eq hf]
  | busReadSpecial off =>
    obtain ⟨hf, -, -, rfl⟩ := perform_next.mp h
    rw [busReadSpecial_eq hf]
  | busNop =>
    obtain ⟨hf, -, -, rfl⟩ := perform_next.mp h
    rw [busNop_eq hf]
  | busMeasure | qFlush =>
    obtain ⟨-, -, -, rfl⟩ := perform_next.mp h
    rfl
  | qEnqueue ev =>
    obtain ⟨-, -, -, rfl⟩ := perform_next.mp h
    simp
  | sessionStart | resetCommit => exact absurd hi.symm Bool.false_ne_true
  | _ =>
    obtain ⟨hkept, -⟩ := exec_engineOp rfl h
    exact congrArg (fun b => b.det.get ch) hkept

/-- Settles O33, operation by operation. -/
theorem detectionIsolated : Obligations.DetectionIsolated := fun _ _ _ _ => exec_det_get

end Sys2Proof.Machine

/-! SUPPORT. The family 43_detection, part 2: the handshake of a chip, operation by operation. What is left of it, the writes
to come and the reset cycles still allowed, is one predicate, and an operation moves it by what it writes to the chip. -/

namespace Sys2Proof.Machine

/-! What an operation leaves as it was. -/

/-- Nothing but the start of a session writes the parameters, the configuration or the script (R57; log 9), and a reset
run grows by BUS.RESET alone (R35, R152). -/
structure Steady (i : Instr) (s t : State) : Prop where
  params : t.params = s.params
  cfg : t.cfg = s.cfg
  script : t.script = s.script
  resetRun : t.resetRun ≤ s.resetRun ∨ i = .busReset ∧ t.resetRun ≤ s.resetRun + 1

theorem Transacted.steady {s t : State} (i : Instr) (h : Transacted s t) : Steady i s t := by
  cases h <;> exact ⟨rfl, rfl, rfl, .inl (Nat.zero_le _)⟩

theorem busReset_steady (s : State) : Steady .busReset s (busReset s) := by
  rcases Nat.lt_or_ge (s.resetRun + 1) s.params.tRst with hr | hr
  · rw [busReset_below hr]
    exact ⟨rfl, rfl, rfl, .inr ⟨rfl, le_rfl⟩⟩
  · rw [busReset_qualified hr]
    constructor <;> simp

@[simp] theorem engineStep_script (k : Nat) (s : State) : (engineStep k s).script = s.script := by simp [engineStep]

theorem exec_steady {i : Instr} {s t : State} (hi : ∀ config clk, i ≠ .sessionStart config clk)
    (h : exec i s = .next t) : Steady i s t := by
  cases i with
  | sessionStart config clk => exact absurd rfl (hi config clk)
  | busReset =>
    obtain ⟨-, -, -, rfl⟩ := perform_next.mp h
    exact busReset_steady s
  | busWriteSid1 | busWriteSid2 | busWriteFm | busReadProbe1 | busReadProbe2 | busReadSid1 | busReadSid2
  | busReadSpecial | busNop =>
    obtain ⟨-, ht⟩ := exec_transaction rfl h
    exact ht.steady _
  | qEnqueue | enStep | enSample | rateAccum | rateWindow | resetCommit =>
    obtain ⟨-, -, -, rfl⟩ := perform_next.mp h
    constructor <;> simp
  | _ =>
    obtain ⟨-, -, -, rfl⟩ := perform_next.mp h
    exact ⟨rfl, rfl, rfl, .inl le_rfl⟩

/-- A run of operations is its first operation and the run of the others. -/
theorem execAll_cons {i : Instr} {ops : List Instr} {s t : State} (h : execAll (i :: ops) s = .next t) :
    ∃ u, exec i s = .next u ∧ execAll ops u = .next t := by
  rw [execAll] at h
  cases hi : exec i s with
  | next u => rw [hi] at h; exact ⟨u, rfl, h⟩
  | fault f => rw [hi] at h; exact nomatch h
  | refused r => rw [hi] at h; exact nomatch h

/-- A run of steps is its first step and the run of the others. -/
theorem runSteps_succ {n : Nat} {s t : State} (h : runSteps (n + 1) s = .next t) :
    ∃ u, step s = .next u ∧ runSteps n u = .next t := by
  rw [runSteps] at h
  cases hs : step s with
  | next u => rw [hs] at h; exact ⟨u, rfl, h⟩
  | fault f => rw [hs] at h; exact nomatch h
  | refused r => rw [hs] at h; exact nomatch h

/-- The start of a session writes the detection state of every chip (R60), so what leaves one alone is none. -/
theorem ne_sessionStart_of_untouching {ch : SynthId} {i : Instr} (h : touchesDetection ch i = false)
    (config : SessionConfig) (clk : Nat) : i ≠ .sessionStart config clk := by
  rintro rfl
  exact nomatch h

theorem writeSidOf_ne_busReset (ch : SynthId) (reg : RegIx) (val : Byte) : writeSidOf ch reg val ≠ .busReset := by
  cases ch <;> exact nofun

theorem writeSidOf_ne_sessionStart (ch : SynthId) (reg : RegIx) (val : Byte) (config : SessionConfig) (clk : Nat) :
    writeSidOf ch reg val ≠ .sessionStart config clk := by
  cases ch <;> simp [writeSidOf]

/-! What is left of a handshake. -/

/-- Of the handshake of a chip the writes `todo` are left, the ones before them made; `resets` more reset cycles cannot
commit a reset. -/
structure HandshakeLeft (p : Params) (cfg : SessionConfig) (ch : SynthId) (todo : List (RegIx × Byte)) (resets : Nat)
    (s : State) : Prop where
  params : s.params = p
  cfg : s.cfg = cfg
  progress : ∃ made, p.detSeq = made ++ todo ∧ (s.det.get ch).step = made.length
  short : s.resetRun + resets < p.tRst

section
variable {p : Params} {cfg : SessionConfig} {ch : SynthId} {todo : List (RegIx × Byte)} {n : Nat} {s t : State}

/-- At step 0 the whole sequence is left. -/
theorem HandshakeLeft.start (h0 : (s.det.get ch).step = 0) (hshort : s.resetRun + n < s.params.tRst) :
    HandshakeLeft s.params s.cfg ch s.params.detSeq n s :=
  ⟨rfl, rfl, ⟨[], rfl, h0⟩, hshort⟩

theorem HandshakeLeft.of_same (h : HandshakeLeft p cfg ch todo n s) (hp : t.params = s.params) (hc : t.cfg = s.cfg)
    (hd : t.det = s.det) (hr : t.resetRun = s.resetRun) : HandshakeLeft p cfg ch todo n t :=
  ⟨hp.trans h.params, hc.trans h.cfg, hd ▸ h.progress, hr ▸ h.short⟩

/-- With nothing left the counter is terminal (R162). -/
theorem HandshakeLeft.terminal (h : HandshakeLeft p cfg ch [] n s) :
    (s.det.get ch).step = p.detSeq.length := by
  obtain ⟨made, hseq, hstep⟩ := h.progress
  rw [hstep, hseq, List.append_nil]

/-- With writes left the counter is not terminal, so no probe is answered (R162). -/
theorem HandshakeLeft.not_terminal (h : HandshakeLeft p cfg ch todo n s) (hne : todo ≠ []) :
    (s.det.get ch).step ≠ p.detSeq.length := by
  obtain ⟨made, hseq, hstep⟩ := h.progress
  have hpos := List.length_pos_iff.mpr hne
  rw [hstep, hseq, List.length_append]
  omega

/-- The next write of the sequence is the expected one, and advances the counter (R241). -/
theorem HandshakeLeft.write {reg : RegIx} {val : Byte} (h : HandshakeLeft p cfg ch ((reg, val) :: todo) n s)
    (he : exec (writeSidOf ch reg val) s = .next t) : HandshakeLeft p cfg ch todo n t := by
  obtain ⟨hparams, hcfg, ⟨made, hseq, hstep⟩, hshort⟩ := h
  obtain ⟨hp, hc, -, hrun⟩ := exec_steady (writeSidOf_ne_sessionStart ch reg val) he
  have hexpected : s.params.detSeq[(s.det.get ch).step]? = some (reg, val) := by
    simp [hparams, hseq, hstep]
  refine ⟨hp.trans hparams, hc.trans hcfg, ⟨made ++ [(reg, val)], by simp [hseq], ?_⟩, ?_⟩
  · rw [exec_writeSidOf_det he, PerSynth.get_set, if_pos rfl, writtenDet, if_pos hexpected, hstep,
      List.length_append, List.length_singleton]
  · rcases hrun with hrun | ⟨hi, -⟩
    · omega
    · exact absurd hi (writeSidOf_ne_busReset ch reg val)

/-- An operation that touches no detection state of the chip leaves the handshake where it is; a reset cycle uses up one of
those allowed (R152, R244, R245). -/
theorem HandshakeLeft.other {i : Instr} {k : Nat} (h : HandshakeLeft p cfg ch todo (k + n) s)
    (hi : touchesDetection ch i = false) (hk : i = .busReset → 0 < k) (he : exec i s = .next t) :
    HandshakeLeft p cfg ch todo n t := by
  obtain ⟨hparams, hcfg, hprogress, hshort⟩ := h
  obtain ⟨hp, hc, -, hrun⟩ := exec_steady (ne_sessionStart_of_untouching hi) he
  have hdet : t.det.get ch = s.det.get ch :=
    exec_det_get hi (fun hr => by have := hk hr; rw [hparams]; omega) he
  refine ⟨hp.trans hparams, hc.trans hcfg, hdet ▸ hprogress, ?_⟩
  rcases hrun with hrun | ⟨hr, hrun⟩
  · omega
  · have := hk hr
    omega

/-! The operations of a handshake, one after the other. -/

/-- The writes among the operations are made in order, the other operations change nothing of the handshake. -/
theorem HandshakeLeft.of_execAll {ops : List Instr} (h : HandshakeLeft p cfg ch todo (ops.count .busReset) s)
    (hops : ops.filter (touchesDetection ch) = todo.map (fun e => writeSidOf ch e.1 e.2))
    (hrun : execAll ops s = .next t) : HandshakeLeft p cfg ch [] 0 t := by
  induction ops generalizing s todo with
  | nil =>
    obtain rfl : s = t := Host.Outcome.next.inj hrun
    obtain rfl : todo = [] := List.map_eq_nil_iff.mp hops.symm
    exact h
  | cons i ops ih =>
    obtain ⟨u, hi, hrest⟩ := execAll_cons hrun
    cases htouch : touchesDetection ch i with
    | false =>
      rw [List.filter_cons_of_neg (by simp [htouch])] at hops
      rw [List.count_cons, Nat.add_comm] at h
      exact ih (h.other htouch (fun hr => by simp [hr]) hi) hops hrest
    | true =>
      rw [List.filter_cons_of_pos htouch] at hops
      obtain ⟨e, todo, rfl, rfl, hlater⟩ := List.map_eq_cons_iff.mp hops.symm
      rw [List.count_cons_of_ne (writeSidOf_ne_busReset ch e.1 e.2)] at h
      exact ih (h.write hi) hlater.symm hrest

end

end Sys2Proof.Machine

/-! SUPPORT. The family 43_detection, part 3: the handshake along a script of turns, and the statement (O34). A strobe uses
up one line of the script, and every other turn leaves the handshake as it is. -/

namespace Sys2Proof.Machine

/-! What one turn of a live session comes to. -/

/-- A turn that samples lines runs the operation they decode to (R130, R150). -/
theorem step_of_lines {s : State} {turn : Turn} {rest : List Turn} {sn : Snap} (hlive : Live s)
    (hs : s.script = turn :: rest) (hsn : turnLines s.params turn = some sn) :
    ∃ raw fresh, step s =
      exec (decodeRunning s.params s.cfg (detSteps s) sn) (latchStrobe raw fresh (takeTurn rest s)) := by
  obtain ⟨hf, hp⟩ := hlive
  have hd : decode s.params s.cfg s.phase (detSteps s) sn =
      .ok (decodeRunning s.params s.cfg (detSteps s) sn) := by rw [hp]; rfl
  cases turn with
  | strobe raw fresh =>
    obtain rfl := Option.some.inj hsn
    exact ⟨raw, fresh, step_of_decode hf (.inl hs) hd⟩
  | strobeRaw raw fresh =>
    obtain rfl := Option.some.inj hsn
    exact ⟨_, fresh, step_of_decode hf (.inr ⟨raw, hs, rfl⟩) hd⟩
  | _ => exact nomatch hsn

/-- A turn that samples no lines is an engine turn or a reading of a shared word: a running session is not started again
(R341). -/
theorem step_of_noLines {s t : State} {turn : Turn} {rest : List Turn} (hlive : Live s)
    (hs : s.script = turn :: rest) (hsn : turnLines s.params turn = none) (h : step s = .next t) :
    (∃ inp, exec (selectEngine inp.slice (latchEngine inp (takeTurn rest s))) (latchEngine inp (takeTurn rest s)) =
      .next t) ∨ ∃ v, t = syncView v (takeTurn rest s) := by
  have hp : (takeTurn rest s).phase = .running := hlive.2
  have houtcome := step_of_turn hlive.1 (by simp [hlive.2]) hs
  rw [houtcome] at h
  cases turn with
  | engine inp => exact .inl ⟨inp, (step_engine hlive hs).symm.trans (houtcome.trans h)⟩
  | sync v => exact .inr ⟨v, (Host.Outcome.next.inj h).symm⟩
  | start config clk =>
    obtain ⟨hn, -⟩ := exec_sessionStart h
    exact nomatch hp.symm.trans hn
  | beginSession config =>
    obtain ⟨hn, -⟩ := fetchBegin_outcome h
    exact nomatch hp.symm.trans hn
  | finishSession clk =>
    obtain ⟨hn, -⟩ := fetchFinish_outcome h
    exact nomatch hp.symm.trans hn
  | strobe | strobeRaw => exact nomatch hsn

/-- A run of steps that ends live was live after its first step: a fault and the exit stay, and a session is not left
otherwise (R54, R300, R319). -/
theorem live_of_runSteps {n : Nat} {s u t : State} (hlive : Live s) (h : step s = .next u)
    (hrun : runSteps n u = .next t) (ht : Live t) : Live u := by
  cases n with
  | zero =>
    obtain rfl : u = t := Host.Outcome.next.inj hrun
    exact ht
  | succ n =>
    obtain ⟨v, hv, -⟩ := runSteps_succ hrun
    obtain ⟨hf, -⟩ := step_next hv
    have hstarted : StartedWith (frozenPart s) s := ⟨by simp [hlive.2], by simp [hlive.2], rfl⟩
    have hu := (turnInvariant_startedWith _).step hstarted h
    refine ⟨hf, ?_⟩
    cases hp : u.phase with
    | running => rfl
    | notStarted => exact absurd hp hu.started
    | measuring => exact absurd hp hu.measured
    | exited r =>
      rw [step_of_exited hf hp] at hv
      exact nomatch hv

/-! What the decoder and the engine select. -/

/-- A live activation selects BUS.RESET where the reset line is asserted, else a transaction (R130). -/
theorem decodeRunning_cases (p : Params) (cfg : SessionConfig) (steps : PerSynth Nat) (sn : Snap) :
    decodeRunning p cfg steps sn = .busReset ∧ sn.rst = true ∨
      isTransaction (decodeRunning p cfg steps sn) = true := by
  unfold decodeRunning
  split
  next hrst => exact .inl ⟨rfl, hrst⟩
  next =>
    split
    · exact .inr (isTransaction_decodeRead ..)
    · exact .inr (isTransaction_decodeWrite ..)

theorem rst_of_decodeRunning_eq_busReset {p : Params} {cfg : SessionConfig} {steps : PerSynth Nat} {sn : Snap}
    (h : decodeRunning p cfg steps sn = .busReset) : sn.rst = true := by
  rcases decodeRunning_cases p cfg steps sn with ⟨-, hrst⟩ | ht
  · exact hrst
  · rw [h] at ht
    exact nomatch ht

theorem decodeRunning_ne_sessionStart (p : Params) (cfg : SessionConfig) (steps : PerSynth Nat) (sn : Snap)
    (config : SessionConfig) (clk : Nat) : decodeRunning p cfg steps sn ≠ .sessionStart config clk := by
  rcases decodeRunning_cases p cfg steps sn with ⟨hi, -⟩ | ht
  · simp [hi]
  · intro hi
    rw [hi] at ht
    exact nomatch ht

/-- Lines that write to the chip decode to that write (R130, R157). -/
theorem decodeRunning_of_writeToChip {p : Params} {cfg : SessionConfig} {steps : PerSynth Nat} {ch : SynthId}
    {sn : Snap} {reg : RegIx} {val : Byte} (h : writeToChip cfg ch sn = some (reg, val)) :
    sn.rst = false ∧ decodeRunning p cfg steps sn = writeSidOf ch reg val := by
  unfold writeToChip at h
  split at h
  next hw =>
    obtain ⟨hrst, hrw, hsynth⟩ := hw
    obtain ⟨rfl, rfl⟩ := Prod.mk.inj (Option.some.inj h)
    exact ⟨hrst, (decodeRunning_of_write hrst hrw).trans (decodeWrite_of_synth hsynth)⟩
  next => exact nomatch h

@[simp] theorem touchesDetection_writeSidOf (ch c : SynthId) (reg : RegIx) (val : Byte) :
    touchesDetection ch (writeSidOf c reg val) = decide (ch = c) := by
  cases c <;> rfl

@[simp] theorem touchesDetection_readProbeOf (ch c : SynthId) :
    touchesDetection ch (readProbeOf c) = decide (ch = c) := by
  cases c <;> rfl

@[simp] theorem touchesDetection_readSidOf (ch c : SynthId) (reg : RegIx) :
    touchesDetection ch (readSidOf c reg) = false := by
  cases c <;> rfl

/-- Lines that neither write to the chip nor read its probe at the terminal step touch no detection state of it (R244). -/
theorem touchesDetection_decodeRunning {p : Params} {cfg : SessionConfig} {steps : PerSynth Nat} {ch : SynthId}
    {sn : Snap} (hwrite : writeToChip cfg ch sn = none)
    (hprobe : ReadsProbe p cfg ch sn → steps.get ch ≠ p.detSeq.length) :
    touchesDetection ch (decodeRunning p cfg steps sn) = false := by
  unfold decodeRunning
  split
  next => rfl
  next hrst =>
    have hrst : sn.rst = false := Bool.eq_false_iff.mpr hrst
    split
    next hrw =>
      unfold decodeRead
      split
      next c hsynth =>
        split
        next hterminal =>
          obtain ⟨hstep, hreg⟩ := hterminal
          rw [touchesDetection_readProbeOf, decide_eq_false_iff_not]
          rintro rfl
          have hat : cfg.synthAt sn = some ch := (Option.ite_none_right_eq_some.mp hsynth).2
          exact hprobe ⟨hrst, hrw, hat, hreg⟩ hstep
        next => simp
      next => unfold decodeSpecial; split <;> rfl
    next hrw =>
      unfold decodeWrite
      split
      next c hsynth =>
        rw [touchesDetection_writeSidOf, decide_eq_false_iff_not]
        rintro rfl
        simp [writeToChip, hrst, hrw, hsynth] at hwrite
      next => split <;> rfl

/-- Everything an engine turn may select (R211). -/
theorem selectEngine_cases (slice : Nat) (s : State) :
    (∃ r, selectEngine slice s = .enExit r) ∨ selectEngine slice s = .enApply ∨
      (∃ k, selectEngine slice s = .enStep k) ∨ selectEngine slice s = .enIdle := by
  cases hx : s.exitCond with
  | some r => exact .inl ⟨r, selectEngine_of_exit hx⟩
  | none =>
    cases hd : headDue s with
    | true => exact .inr (.inl (selectEngine_of_due hx hd))
    | false =>
      cases hb : engineBehind s with
      | true => exact .inr (.inr (.inl ⟨_, selectEngine_of_behind hx hd hb⟩))
      | false => exact .inr (.inr (.inr (selectEngine_of_caughtUp hx hd hb)))

/-- The engine's choice touches no detection state and counts no reset cycle (R211, R313). -/
theorem selectEngine_isolated (ch : SynthId) (slice : Nat) (s : State) :
    touchesDetection ch (selectEngine slice s) = false ∧ selectEngine slice s ≠ .busReset := by
  rcases selectEngine_cases slice s with ⟨r, h⟩ | h | ⟨k, h⟩ | h <;> rw [h] <;> exact ⟨rfl, nofun⟩

theorem detSteps_get (s : State) (ch : SynthId) : (detSteps s).get ch = (s.det.get ch).step := by
  cases ch <;> rfl

/-! The handshake along a script. -/

/-- Every line of `lines` that reads the probe register of the chip comes before a write to the chip. -/
def ProbedBeforeWrites (p : Params) (cfg : SessionConfig) (ch : SynthId) (lines : List Snap) : Prop :=
  ∀ before sn later, lines = before ++ sn :: later → ReadsProbe p cfg ch sn →
    later.filterMap (writeToChip cfg ch) ≠ []

theorem ProbedBeforeWrites.head {p : Params} {cfg : SessionConfig} {ch : SynthId} {sn : Snap} {lines : List Snap}
    (h : ProbedBeforeWrites p cfg ch (sn :: lines)) :
    ReadsProbe p cfg ch sn → lines.filterMap (writeToChip cfg ch) ≠ [] :=
  h [] sn lines rfl

theorem ProbedBeforeWrites.tail {p : Params} {cfg : SessionConfig} {ch : SynthId} {sn : Snap} {lines : List Snap}
    (h : ProbedBeforeWrites p cfg ch (sn :: lines)) : ProbedBeforeWrites p cfg ch lines :=
  fun before sn' later he => h (sn :: before) sn' later (congrArg (sn :: ·) he)

/-- What is left of the handshake is what the lines to come carry. -/
abbrev HandshakeAhead (p : Params) (cfg : SessionConfig) (ch : SynthId) (lines : List Snap) (s : State) : Prop :=
  HandshakeLeft p cfg ch (lines.filterMap (writeToChip cfg ch)) (lines.countP fun sn => sn.rst) s

section
variable {p : Params} {cfg : SessionConfig} {ch : SynthId} {turn : Turn} {rest : List Turn} {sn : Snap}
  {lines : List Snap} {s t : State}

/-- A strobe uses up its line: it makes the next write, counts a reset cycle, or changes nothing of the handshake. -/
theorem HandshakeAhead.step_lines (h : HandshakeAhead p cfg ch (sn :: lines) s) (hlive : Live s)
    (hs : s.script = turn :: rest) (hsn : turnLines p turn = some sn)
    (hprobe : ReadsProbe p cfg ch sn → lines.filterMap (writeToChip cfg ch) ≠ []) (hstep : step s = .next t) :
    HandshakeAhead p cfg ch lines t ∧ t.script = rest := by
  obtain ⟨raw, fresh, hexec⟩ := step_of_lines hlive hs (h.params.symm ▸ hsn)
  rw [hexec, h.params, h.cfg] at hstep
  have hsteady := exec_steady (decodeRunning_ne_sessionStart _ _ _ _) hstep
  have hlatched : HandshakeAhead p cfg ch (sn :: lines) (latchStrobe raw fresh (takeTurn rest s)) :=
    h.of_same (by simp) (by simp) (by simp) (by simp)
  refine ⟨?_, hsteady.script.trans (by simp)⟩
  cases hwrite : writeToChip cfg ch sn with
  | some e =>
    obtain ⟨hrst, hdecode⟩ := decodeRunning_of_writeToChip (p := p) (steps := detSteps s) hwrite
    rw [HandshakeAhead, List.filterMap_cons_some hwrite, List.countP_cons_of_neg (by simp [hrst])] at hlatched
    exact hlatched.write (hdecode ▸ hstep)
  | none =>
    rw [HandshakeAhead, List.filterMap_cons_none hwrite, List.countP_cons, Nat.add_comm] at hlatched
    have hsilent : ReadsProbe p cfg ch sn → (detSteps s).get ch ≠ p.detSeq.length := by
      intro hread
      rw [detSteps_get]
      exact HandshakeLeft.not_terminal (hlatched.of_same (by simp) (by simp) (by simp) (by simp)) (hprobe hread)
    exact hlatched.other (touchesDetection_decodeRunning hwrite hsilent)
      (fun hr => by simp [rst_of_decodeRunning_eq_busReset hr]) hstep

/-- A turn that samples no lines changes nothing of the handshake. -/
theorem HandshakeAhead.step_noLines (h : HandshakeAhead p cfg ch lines s) (hlive : Live s)
    (hs : s.script = turn :: rest) (hsn : turnLines p turn = none) (hstep : step s = .next t) :
    HandshakeAhead p cfg ch lines t ∧ t.script = rest := by
  rcases step_of_noLines hlive hs (h.params.symm ▸ hsn) hstep with ⟨inp, hexec⟩ | ⟨v, rfl⟩
  · obtain ⟨htouch, hreset⟩ := selectEngine_isolated ch inp.slice (latchEngine inp (takeTurn rest s))
    have hlatched : HandshakeLeft p cfg ch (lines.filterMap (writeToChip cfg ch))
        (0 + lines.countP fun sn => sn.rst) (latchEngine inp (takeTurn rest s)) := by
      rw [Nat.zero_add]
      exact h.of_same (by simp) (by simp) (by simp) (by simp)
    exact ⟨hlatched.other htouch (fun hr => absurd hr hreset) hexec,
      (exec_steady (ne_sessionStart_of_untouching htouch) hexec).script.trans (by simp)⟩
  · obtain ⟨now, w, r, image, flight, he, -⟩ := syncView_views v (takeTurn rest s)
    rw [he]
    exact ⟨h.of_same rfl rfl rfl rfl, rfl⟩

end

/-- Every schedule that stays live takes the handshake to its end (R249). -/
theorem HandshakeAhead.of_runSteps {p : Params} {cfg : SessionConfig} {ch : SynthId} {turns rest : List Turn}
    {s t : State} (h : HandshakeAhead p cfg ch (turns.filterMap (turnLines p)) s) (hlive : Live s)
    (hs : s.script = turns ++ rest) (hprobe : ProbedBeforeWrites p cfg ch (turns.filterMap (turnLines p)))
    (hrun : runSteps turns.length s = .next t) (ht : Live t) : HandshakeLeft p cfg ch [] 0 t ∧ t.script = rest := by
  induction turns generalizing s with
  | nil =>
    obtain rfl : s = t := Host.Outcome.next.inj hrun
    exact ⟨h, hs⟩
  | cons turn turns ih =>
    obtain ⟨u, hstep, hrest⟩ := runSteps_succ hrun
    have hu := live_of_runSteps hlive hstep hrest ht
    cases hsn : turnLines p turn with
    | none =>
      rw [List.filterMap_cons_none hsn] at h hprobe
      obtain ⟨hleft, hscript⟩ := h.step_noLines hlive hs hsn hstep
      exact ih hleft hu hscript hprobe hrest
    | some sn =>
      rw [List.filterMap_cons_some hsn] at h hprobe
      obtain ⟨hleft, hscript⟩ := HandshakeAhead.step_lines h hlive hs hsn hprobe.head hstep
      exact ih hleft hu hscript hprobe.tail hrest

/-! The statement. -/

/-- With nothing left of the handshake the probe is answered with the sentinel (R162, R243). -/
theorem HandshakeLeft.probe {p : Params} {cfg : SessionConfig} {ch : SynthId} {m : ChipModel} {n : Nat} {t : State}
    (h : HandshakeLeft p cfg ch [] n t) (ht : Live t) (hm : cfg.model ch.chip = some m) (he : cfg.readEmu = true) :
    ∃ u, exec (readProbeOf ch) t = .next u ∧ u.out = ⟨some (p.sentinelOf m), true⟩ ∧ (u.det.get ch).step = 0 := by
  have hterminal := h.terminal
  obtain ⟨rfl, rfl, -, -⟩ := h
  exact ⟨_, probeDrivesSentinel ch m t ht hm he hterminal, rfl, by simp⟩

/-- The probe read of a live session whose handshake is done is answered with the sentinel (R130, R243). -/
theorem HandshakeLeft.step_probe {p : Params} {cfg : SessionConfig} {ch : SynthId} {m : ChipModel} {n : Nat}
    {last : Turn} {rest : List Turn} {probe : Snap} {t : State} (h : HandshakeLeft p cfg ch [] n t) (ht : Live t)
    (hm : cfg.model ch.chip = some m) (he : cfg.readEmu = true) (hs : t.script = last :: rest)
    (hlast : turnLines p last = some probe) (hread : ReadsProbe p cfg ch probe) :
    ∃ u, step t = .next u ∧ u.out = ⟨some (p.sentinelOf m), true⟩ ∧ (u.det.get ch).step = 0 := by
  obtain ⟨hrst, hrw, hsynth, hreg⟩ := hread
  obtain ⟨raw, fresh, hexec⟩ := step_of_lines ht hs (h.params.symm ▸ hlast)
  have hdecode : decodeRunning p cfg (detSteps t) probe = readProbeOf ch := by
    rw [decodeRunning_of_read hrst hrw, decodeRead_of_synth he hsynth, detSteps_get, h.terminal, if_pos ⟨rfl, hreg⟩]
  rw [h.params, h.cfg, hdecode] at hexec
  rw [hexec]
  exact HandshakeLeft.probe (h.of_same (by simp) (by simp) (by simp) (by simp)) (by simpa [Live] using ht) hm he

/-- Settles O34: both clauses take the handshake from its start to its end, by induction on the operations and on the
turns. -/
theorem handshakeGivesSentinel : Obligations.HandshakeGivesSentinel := by
  refine ⟨fun ch m ops s t hm he h0 hops hshort hrun ht => ?operations,
    fun ch m turns rest last probe s t hlive hm he h0 hs hwrites hprobe hshort hlast hread hrun ht => ?script⟩
  case operations =>
    have hdone := (HandshakeLeft.start h0 hshort).of_execAll hops hrun
    exact hdone.probe ht hm he
  case script =>
    have hahead : HandshakeAhead s.params s.cfg ch (turns.filterMap (turnLines s.params)) s := by
      rw [HandshakeAhead, hwrites]
      exact .start h0 hshort
    obtain ⟨hdone, hscript⟩ := HandshakeAhead.of_runSteps hahead hlive hs hprobe hrun ht
    exact hdone.step_probe ht hm he hscript hlast hread

end Sys2Proof.Machine

/-! SUPPORT. The family 44_rate_controller: the cases of a closing window, the operations of the controller, and the bound on
what one operation moves (O45 to O48). -/

namespace Sys2Proof.Machine

/-! The conditions of a closing window, when they fail. -/

@[simp] theorem acquiring_eq_false_iff {s : State} : acquiring s = false ↔ s.params.acqWindows ≤ s.rc.mc :=
  decide_eq_false_iff_not.trans Nat.not_lt

@[simp] theorem sinkLow_eq_false_iff {s : State} {avg : Nat} :
    sinkLow s avg = false ↔ s.rc.wm ≤ avg + s.params.marginLo :=
  decide_eq_false_iff_not.trans Nat.not_lt

@[simp] theorem sinkHigh_eq_false_iff {s : State} {avg : Nat} :
    sinkHigh s avg = false ↔ avg ≤ s.rc.wm + s.params.marginHi :=
  decide_eq_false_iff_not.trans Nat.not_lt

/-! The four cases of the decision (R259). -/

section
variable {s : State} {avg : Nat}

theorem rateDecide_of_acquiring (hm : s.rc.mc < s.params.acqWindows) : rateDecide avg s = rateAcquire avg s :=
  if_pos (acquiring_iff.mpr hm)

theorem rateDecide_of_low (hm : ¬s.rc.mc < s.params.acqWindows) (hlow : avg + s.params.marginLo < s.rc.wm) :
    rateDecide avg s = rateUp s := by
  rw [rateDecide, if_neg (mt acquiring_iff.mp hm), if_pos (sinkLow_iff.mpr hlow)]

theorem rateDecide_of_high (hm : ¬s.rc.mc < s.params.acqWindows) (hlow : ¬avg + s.params.marginLo < s.rc.wm)
    (hhigh : s.rc.wm + s.params.marginHi < avg) : rateDecide avg s = rateDown s := by
  rw [rateDecide, if_neg (mt acquiring_iff.mp hm), if_neg (mt sinkLow_iff.mp hlow), if_pos (sinkHigh_iff.mpr hhigh)]

theorem rateDecide_of_inBand (hm : ¬s.rc.mc < s.params.acqWindows) (hlow : ¬avg + s.params.marginLo < s.rc.wm)
    (hhigh : ¬s.rc.wm + s.params.marginHi < avg) : rateDecide avg s = s := by
  rw [rateDecide, if_neg (mt acquiring_iff.mp hm), if_neg (mt sinkLow_iff.mp hlow), if_neg (mt sinkHigh_iff.mp hhigh),
    rateHold]

end

theorem exec_rateWindow {s : State} (h : Live s) (hn : s.rc.n = s.params.window) :
    exec .rateWindow s = .next (rateWindow s) :=
  perform_next.mpr ⟨h.1, h.2, windowComplete_iff.mpr hn, rfl⟩

/-- Settles O46: one case of the decision at a time, each followed by the bookkeeping. -/
theorem windowDecides : Obligations.WindowDecides := by
  rintro s avg hlive hn rfl
  rw [exec_rateWindow hlive hn, rateWindow, windowAverage]
  by_cases hm : s.rc.mc < s.params.acqWindows
  · rw [rateDecide_of_acquiring hm, if_pos hm, if_pos hm]
    rfl
  · rw [if_neg hm, if_neg hm]
    by_cases hlow : s.rc.sum / s.params.window + s.params.marginLo < s.rc.wm
    · rw [rateDecide_of_low hm hlow, if_pos hlow]
      rfl
    · rw [if_neg hlow]
      by_cases hhigh : s.rc.wm + s.params.marginHi < s.rc.sum / s.params.window
      · rw [rateDecide_of_high hm hlow hhigh, if_pos hhigh]
        rfl
      · rw [rateDecide_of_inBand hm hlow hhigh, if_neg hhigh]
        rfl

/-! RATE.ACCUM (R258). -/

theorem rateAccum_of_incomplete {occ : Nat} {s : State} (h : s.rc.n + 1 ≠ s.params.window) :
    rateAccum occ s = countSample occ s :=
  if_neg (mt windowComplete_iff.mp h)

theorem rateAccum_of_complete {occ : Nat} {s : State} (h : s.rc.n + 1 = s.params.window) :
    rateAccum occ s = rateWindow (countSample occ s) :=
  if_pos (windowComplete_iff.mpr h)

theorem exec_rateAccum (occ : Nat) {s : State} (h : Live s) (hsink : s.sinkAvailable = true) :
    exec (.rateAccum occ) s = .next (rateAccum occ s) :=
  perform_next.mpr ⟨h.1, h.2, hsink, rfl⟩

/-- Settles O45: the counted state is `countSample`, which RATE.WINDOW by itself closes when its window is complete. -/
theorem accumCountsOneReading : Obligations.AccumCountsOneReading := by
  rintro occ s _ hlive rfl
  refine ⟨fun hsink hn => ?_, fun hsink hn => ?_, fun haway => ?_⟩
  · rw [exec_rateAccum occ hlive hsink, rateAccum_of_incomplete hn]
    rfl
  · refine ⟨rateWindow (countSample occ s), exec_rateWindow hlive hn, ?_⟩
    rw [exec_rateAccum occ hlive hsink, rateAccum_of_complete hn]
  · change perform .running s "RATE.ACCUM" s.sinkAvailable _ = _
    rw [haway]
    exact perform_notSelected hlive.1 hlive.2

/-- Settles O47: in the case of each operation its guard holds, and its effect is the one the model gives it. -/
theorem rateOperations : Obligations.RateOperations := by
  rintro s avg ⟨hf, hp⟩ hn
  refine ⟨fun hm => ?acquire, ?_⟩
  case acquire => exact perform_next.mpr ⟨hf, hp, by simp [hn, hm], rfl⟩
  rintro hm rfl
  refine ⟨fun hlow => ?up, fun hlow hhigh => ?down, fun hlow hhigh => ?hold⟩
  case up => exact perform_next.mpr ⟨hf, hp, by simp [windowAverage, hn, hm, hlow], rfl⟩
  case down => exact perform_next.mpr ⟨hf, hp, by simp [windowAverage, hn, hm, hlow, hhigh], rfl⟩
  case hold => exact perform_next.mpr ⟨hf, hp, by simp [windowAverage, hn, hm, hlow, hhigh], rfl⟩

/-! What one operation moves (R264). -/

/-- The rate moves by at most one, and the watermark only during the acquisition. -/
structure RateNear (p : Params) (rc rc' : RateState) : Prop where
  up : rc'.rate ≤ rc.rate + 1
  down : rc.rate ≤ rc'.rate + 1
  watermark : rc.mc = p.acqWindows → rc'.wm = rc.wm

/-- The rate is within its limits (R51). -/
abbrev RateWithin (s : State) : Prop := s.params.rateMin ≤ s.rc.rate ∧ s.rc.rate ≤ s.params.rateMax

theorem RateNear.of_same {p : Params} {rc rc' : RateState} (h : rc' = rc) : RateNear p rc rc' := by
  subst h
  exact ⟨Nat.le_succ _, Nat.le_succ _, fun _ => rfl⟩

section
variable {s : State}

theorem rateAcquire_near (avg : Nat) (hm : s.rc.mc < s.params.acqWindows) :
    RateNear s.params s.rc (rateAcquire avg s).rc :=
  ⟨Nat.le_succ _, Nat.le_succ _, fun he => absurd he hm.ne⟩

/-- A rate within its limits is not pulled back by the limit above. -/
theorem rateUp_near (h : RateWithin s) : RateNear s.params s.rc (rateUp s).rc := by
  refine ⟨?_, ?_, fun _ => rfl⟩ <;> simp only [rateUp_fields] <;> omega

/-- A rate within its limits is not pushed up by the limit below. -/
theorem rateDown_near (h : RateWithin s) : RateNear s.params s.rc (rateDown s).rc := by
  refine ⟨?_, ?_, fun _ => rfl⟩ <;> simp only [rateDown_fields] <;> omega

theorem rateDecide_near (avg : Nat) (h : RateWithin s) : RateNear s.params s.rc (rateDecide avg s).rc := by
  by_cases hm : s.rc.mc < s.params.acqWindows
  · rw [rateDecide_of_acquiring hm]
    exact rateAcquire_near avg hm
  · by_cases hlow : avg + s.params.marginLo < s.rc.wm
    · rw [rateDecide_of_low hm hlow]
      exact rateUp_near h
    · by_cases hhigh : s.rc.wm + s.params.marginHi < avg
      · rw [rateDecide_of_high hm hlow hhigh]
        exact rateDown_near h
      · rw [rateDecide_of_inBand hm hlow hhigh]
        exact .of_same rfl

/-- The bookkeeping of a window moves neither the rate nor the watermark. -/
theorem rateWindow_near (h : RateWithin s) : RateNear s.params s.rc (rateWindow s).rc := by
  obtain ⟨hup, hdown, hwm⟩ := rateDecide_near (windowAverage s) h
  exact ⟨hup, hdown, hwm⟩

/-- Nor does the counting of a sample. -/
theorem rateAccum_near (occ : Nat) (h : RateWithin s) : RateNear s.params s.rc (rateAccum occ s).rc := by
  by_cases hn : s.rc.n + 1 = s.params.window
  · rw [rateAccum_of_complete hn]
    obtain ⟨hup, hdown, hwm⟩ := rateWindow_near (s := countSample occ s) h
    exact ⟨hup, hdown, hwm⟩
  · rw [rateAccum_of_incomplete hn]
    exact ⟨Nat.le_succ _, Nat.le_succ _, fun _ => rfl⟩

/-- EN.SAMPLE counts once at most (R217). -/
theorem takeSample_near (h : RateWithin s) : RateNear s.params s.rc (takeSample s).rc := by
  cases hsink : s.sinkAvailable with
  | false =>
    rw [takeSample_of_away hsink]
    exact .of_same rfl
  | true =>
    rw [takeSample_of_available hsink]
    exact rateAccum_near (s := writtenState s) _ h

/-- A slice takes one sample at most (R216). -/
theorem engineStep_near (k : Nat) (h : RateWithin s) : RateNear s.params s.rc (engineStep k s).rc := by
  by_cases hq : (s.E + k) * s.rc.rate / s.clk = s.prevS
  · rw [engineStep_of_quiet hq]
    exact .of_same rfl
  · rw [engineStep_of_sample hq]
    exact takeSample_near (s := { clockAndPublish k s with prevS := (s.E + k) * s.rc.rate / s.clk }) h

/-- A bus transaction writes nothing that EN owns (R59). -/
theorem Transacted.rc_eq {t : State} (h : Transacted s t) : t.rc = s.rc :=
  congrArg EngineOwned.rc h.engineOwned_eq

end

/-- Settles O48: the operations that reach the controller move it by one decision at most; the others leave it. -/
theorem rateMovesByOne : Obligations.RateMovesByOne := by
  intro i s t hrunning hbounds hcommit hreset h
  have hwithin : RateWithin s := hbounds.rate hrunning
  suffices hnear : RateNear s.params s.rc t.rc from ⟨hnear.up, hnear.down, hnear.watermark⟩
  cases i with
  | resetCommit => exact absurd rfl hcommit
  | sessionStart config clk =>
    obtain ⟨hp, -⟩ := exec_sessionStart h
    exact nomatch hp.symm.trans hrunning
  | busReset =>
    obtain ⟨-, -, -, rfl⟩ := perform_next.mp h
    rw [busReset_below (hreset rfl)]
    exact .of_same rfl
  | busWriteSid1 | busWriteSid2 | busWriteFm | busReadProbe1 | busReadProbe2 | busReadSid1 | busReadSid2
  | busReadSpecial | busNop =>
    obtain ⟨-, ht⟩ := exec_transaction rfl h
    exact .of_same ht.rc_eq
  | enStep k =>
    obtain ⟨-, -, -, rfl⟩ := perform_next.mp h
    exact engineStep_near k hwithin
  | enSample =>
    obtain ⟨-, -, -, rfl⟩ := perform_next.mp h
    exact takeSample_near hwithin
  | rateAccum occ =>
    obtain ⟨-, -, -, rfl⟩ := perform_next.mp h
    exact rateAccum_near occ hwithin
  | rateWindow =>
    obtain ⟨-, -, -, rfl⟩ := perform_next.mp h
    exact rateWindow_near hwithin
  | rateAcquire avg =>
    obtain ⟨-, -, hguard, rfl⟩ := perform_next.mp h
    rw [Bool.and_eq_true, acquiring_iff] at hguard
    exact rateAcquire_near avg hguard.2
  | rateUp =>
    obtain ⟨-, -, -, rfl⟩ := perform_next.mp h
    exact rateUp_near hwithin
  | rateDown =>
    obtain ⟨-, -, -, rfl⟩ := perform_next.mp h
    exact rateDown_near hwithin
  | _ =>
    obtain ⟨-, -, -, rfl⟩ := perform_next.mp h
    exact .of_same (by simp)

end Sys2Proof.Machine

/-! SUPPORT. The family 45_mixer: the accumulators as sums over the active chips, the range of a finished channel (O43), and
the write to the sink (O44). -/

namespace Sys2Proof.Machine

/-! MIX (R282, R287). -/

/-- A source that is not active adds nothing, so summing contributions is summing over the active sources. -/
theorem sum_contribution (s : State) (weight : ChipId → Int) (samples : PerChip Sample) (cs : List ChipId) :
    (cs.map fun c => contribution s c (weight c) samples).sum =
      ((cs.filter s.cfg.active).map fun c => weight c * (samples.get c).toInt).sum := by
  simp only [contribution, List.sum_map_ite, List.map_const', List.sum_replicate, smul_zero, add_zero,
    Bool.decide_eq_true]

theorem accLeft_eq_sum (s : State) (samples : PerChip Sample) :
    accLeft s samples = (([ChipId.sid1, .sid2, .fm].filter s.cfg.active).map
      fun c => (s.weights.get c).1 * (samples.get c).toInt).sum := by
  rw [← sum_contribution s fun c => (s.weights.get c).1]
  simp [accLeft, PerChip.get, add_assoc]

theorem accRight_eq_sum (s : State) (samples : PerChip Sample) :
    accRight s samples = (([ChipId.sid1, .sid2, .fm].filter s.cfg.active).map
      fun c => (s.weights.get c).2 * (samples.get c).toInt).sum := by
  rw [← sum_contribution s fun c => (s.weights.get c).2]
  simp [accRight, PerChip.get, add_assoc]

/-- The range property of the clamp (R287). -/
theorem finishChannel_mem_range {p : Params} (h : p.sampleMin ≤ p.sampleMax) (acc : Int) :
    p.sampleMin ≤ finishChannel p acc ∧ finishChannel p acc ≤ p.sampleMax :=
  ⟨le_max_left _ _, max_le h (min_le_left _ _)⟩

theorem exec_mix (samples : PerChip Sample) {s : State} (h : Live s) :
    exec (.mix samples) s = .next { s with mixed := mixPair s samples } :=
  perform_next.mpr ⟨h.1, h.2, rfl, rfl⟩

/-- Settles O43: each channel is its accumulator, a sum over the active chips, shifted and clamped. -/
theorem mixWeighsAndClamps : Obligations.MixWeighsAndClamps := by
  intro samples s hlive
  refine ⟨finishChannel s.params (accLeft s samples), finishChannel s.params (accRight s samples),
    exec_mix samples hlive, ?left, ?right, fun hrange => ?range⟩
  case left => rw [← accLeft_eq_sum, finishChannel, clampInt, floorShift]
  case right => rw [← accRight_eq_sum, finishChannel, clampInt, floorShift]
  case range =>
    obtain ⟨hleft_min, hleft_max⟩ := finishChannel_mem_range hrange (accLeft s samples)
    exact ⟨hleft_min, hleft_max, finishChannel_mem_range hrange (accRight s samples)⟩

/-! SINK.WRITE (R283, R289). -/

theorem exec_sinkWrite_of_available (l r : Int) {s : State} (h : Live s) (hsink : s.sinkAvailable = true) :
    exec (.sinkWrite l r) s = .next (sinkWrite l r s) :=
  perform_next.mpr ⟨h.1, h.2, hsink, rfl⟩

theorem exec_sinkWrite_of_away (l r : Int) {s : State} (h : Live s) (haway : s.sinkAvailable = false) :
    exec (.sinkWrite l r) s = .refused (.notSelected "SINK.WRITE") := by
  change perform .running s "SINK.WRITE" s.sinkAvailable _ = _
  rw [haway]
  exact perform_notSelected h.1 h.2

/-- Settles O44: the sink's availability is the guard of SINK.WRITE, and `sinkWrite` is its effect. -/
theorem sinkWriteAppendsPair : Obligations.SinkWriteAppendsPair := fun l r _ hlive =>
  ⟨exec_sinkWrite_of_available l r hlive, exec_sinkWrite_of_away l r hlive⟩

end Sys2Proof.Machine

/-! SUPPORT. The family 60_exceptions, part 1: the write that finds the queue full (O19), and the faults an operation can
leave (O54). -/

namespace Sys2Proof.Machine

/-- Settles O19: the guards are those of a write with room, and the activation stops at the raise. -/
theorem writeOverflows : Obligations.WriteOverflows := by
  intro reg val s ⟨hf, hp⟩ hfull
  refine ⟨fun ch hactive => ?_, fun hfm => perform_next.mpr ⟨hf, hp, hfm, busWriteFm_of_full hf hfull⟩⟩
  rw [exec_writeSidOf]
  exact perform_next.mpr ⟨hf, hp, hactive, busWriteSid_of_full hf hfull⟩

/-! What an operation leaves in `fault`. -/

/-- An operation with a next state found no fault (R300). -/
theorem fault_of_exec_next {i : Instr} {s t : State} (h : exec i s = .next t) : s.fault = none := by
  cases hf : s.fault with
  | none => rfl
  | some f =>
    rw [exec_of_fault hf i] at h
    exact nomatch h

theorem enqueue_fault (ev : BusEvent) (s : State) :
    (enqueue ev s).fault = s.fault ∨ (enqueue ev s).fault = some .queueOverflow := by
  rcases enqueue_cases ev s with ⟨-, h⟩ | ⟨-, h⟩
  · rw [h]
    cases hf : s.fault with
    | none => exact .inr (by rw [raiseFatal_of_none hf])
    | some f => exact .inl (by rw [raiseFatal_of_some hf, hf])
  · exact .inl (by rw [h])

theorem Transacted.fault_cases {s t : State} (h : Transacted s t) :
    t.fault = s.fault ∨ t.fault = some .queueOverflow := by
  cases h with
  | answered | queued => exact .inl rfl
  | overflowed => exact .inr rfl

theorem busReset_fault (s : State) : (busReset s).fault = s.fault := by
  rcases Nat.lt_or_ge (s.resetRun + 1) s.params.tRst with hr | hr
  · rw [busReset_below hr]
  · rw [busReset_qualified hr]
    simp

/-- An operation keeps `fault` as it found it, unless a queue overflows in it (R301, R302). -/
theorem exec_fault_cases {i : Instr} {s t : State} (h : exec i s = .next t) :
    t.fault = s.fault ∨ t.fault = some .queueOverflow := by
  have hf := fault_of_exec_next h
  cases i with
  | busWriteSid1 | busWriteSid2 | busWriteFm | busReadProbe1 | busReadProbe2 | busReadSid1 | busReadSid2
  | busReadSpecial | busNop =>
    obtain ⟨-, ht⟩ := exec_transaction rfl h
    exact ht.fault_cases
  | qEnqueue ev =>
    obtain ⟨-, -, -, rfl⟩ := perform_next.mp h
    exact enqueue_fault ev s
  | busReset =>
    obtain ⟨-, -, -, rfl⟩ := perform_next.mp h
    exact .inl (busReset_fault s)
  | sessionStart config clk =>
    obtain ⟨-, -, -, rfl⟩ := exec_sessionStart h
    exact .inl (hf ▸ rfl)
  | busMeasure | qFlush | detAdvance | detMiss | detProbe | resetCommit =>
    obtain ⟨-, -, -, rfl⟩ := perform_next.mp h
    exact .inl rfl
  | _ =>
    obtain ⟨-, hkept⟩ := exec_engineOp rfl h
    exact .inl hkept

/-- Settles O54: an operation that has a step finds no fault, and leaves that or the overflow of its queue. -/
theorem deadlineMissNeverRaised : Obligations.DeadlineMissNeverRaised := fun _ _ _ h =>
  (exec_fault_cases h).imp_left fun hkept => hkept.trans (fault_of_exec_next h)

end Sys2Proof.Machine

/-! SUPPORT. The family 60_exceptions, part 2: a running session is never stuck (O15). The decoder selects an operation
of a chip or of the special region only where a window matches, and under V1 every window belongs to the session; the engine
tests the conditions of each guard as it selects. -/

namespace Sys2Proof

/-! Which operations a session with a fitting mapping mode has. -/

/-- Under V1 a session with one synthesizer chip has one window for them (R86, R340). -/
theorem mapMode_of_noSid2 {cfg : SessionConfig} (h : clauseV1 cfg = true) (h2 : cfg.modelSid2 = none) :
    ∃ w, cfg.mapMode = .single w := by
  cases hm : cfg.mapMode with
  | single w => exact ⟨w, rfl⟩
  | sideBySide | sharedSel => simp [clauseV1, hm, h2] at h

/-- Under V1 a synthesizer chip that a snapshot reaches is active (R30, R124). -/
theorem active_of_synthAt {cfg : SessionConfig} {sn : Snap} {ch : SynthId} (h : clauseV1 cfg = true)
    (hat : cfg.synthAt sn = some ch) : cfg.active ch.chip = true := by
  cases h2 : cfg.modelSid2 with
  | none =>
    obtain ⟨w, hm⟩ := mapMode_of_noSid2 h h2
    rw [synthAt_eq, hm] at hat
    obtain ⟨r, hr, hfound⟩ := List.exists_of_findSome?_eq_some hat
    obtain rfl := List.mem_singleton.mp hr
    obtain rfl : SynthId.sid1 = ch := Option.some.inj (Option.ite_none_right_eq_some.mp hfound).2
    rfl
  | some m =>
    cases ch with
    | sid1 => rfl
    | sid2 => exact Option.isSome_of_eq_some h2

/-- An FM entry in the window list is that of an enabled FM chip (R88). -/
theorem fmEnabled_of_mem_windows {cfg : SessionConfig} {r : Region} (hr : r ∈ cfg.windows)
    (ho : r.owner = .chip .fm) : cfg.fmEnabled = true := by
  simp only [SessionConfig.windows, List.mem_append] at hr
  rcases hr with (hmode | hfm) | hspecial
  · obtain ⟨w, ch, rfl⟩ := mem_mapMode_regions hmode
    cases ch <;> exact nomatch ho
  · exact (List.mem_ite_nil_right.mp hfm).1
  · cases hs : cfg.special with
    | none => simp [hs] at hspecial
    | some sp =>
      rw [hs, List.mem_singleton] at hspecial
      subst hspecial
      exact nomatch ho

/-- A special entry in the window list is the configured special region (R88, R90). -/
theorem special_of_mem_windows {cfg : SessionConfig} {r : Region} (hr : r ∈ cfg.windows) (ho : r.owner = .special) :
    cfg.special.isSome = true := by
  rcases mem_windows hr with hmode | rfl | ⟨sp, hs, -⟩
  · obtain ⟨w, ch, rfl⟩ := mem_mapMode_regions hmode
    exact nomatch ho
  · exact nomatch ho
  · rw [hs]
    rfl

/-- A snapshot reaches an owner through an entry of that owner (R85). -/
theorem mem_windows_of_ownerAt {cfg : SessionConfig} {sn : Snap} {o : Owner} (hat : cfg.ownerAt o sn = true) :
    ∃ r ∈ cfg.windows, r.owner = o := by
  obtain ⟨r, hr, hmatch⟩ := List.any_eq_true.mp hat
  exact ⟨r, hr, of_decide_eq_true (Bool.and_eq_true_iff.mp hmatch).1⟩

end Sys2Proof

namespace Sys2Proof.Machine

section

variable {s : State} {sn : Snap}

/-! The operation a strobe selects has a step. -/

theorem exec_decodeWrite_hasNext (hlive : Live s) (h1 : clauseV1 s.cfg = true) :
    ∃ t, exec (decodeWrite s.cfg sn) s = .next t := by
  obtain ⟨hf, hp⟩ := hlive
  cases hsynth : s.cfg.synthAt sn with
  | some ch =>
    rw [decodeWrite_of_synth hsynth, exec_writeSidOf]
    exact ⟨_, perform_next.mpr ⟨hf, hp, active_of_synthAt h1 hsynth, rfl⟩⟩
  | none =>
    cases hfm : s.cfg.ownerAt (.chip .fm) sn with
    | true =>
      obtain ⟨r, hr, ho⟩ := mem_windows_of_ownerAt hfm
      rw [decodeWrite_of_fm hsynth hfm]
      exact ⟨_, perform_next.mpr ⟨hf, hp, fmEnabled_of_mem_windows hr ho, rfl⟩⟩
    | false =>
      rw [decodeWrite_of_unowned hsynth hfm]
      exact ⟨_, perform_next.mpr ⟨hf, hp, rfl, rfl⟩⟩

theorem exec_decodeSpecial_hasNext (hlive : Live s) : ∃ t, exec (decodeSpecial s.cfg sn) s = .next t := by
  obtain ⟨hf, hp⟩ := hlive
  cases hspecial : s.cfg.ownerAt .special sn with
  | true =>
    obtain ⟨r, hr, ho⟩ := mem_windows_of_ownerAt hspecial
    rw [decodeSpecial_of_owned hspecial]
    exact ⟨_, perform_next.mpr ⟨hf, hp, special_of_mem_windows hr ho, rfl⟩⟩
  | false =>
    rw [decodeSpecial_of_unowned hspecial]
    exact ⟨_, perform_next.mpr ⟨hf, hp, rfl, rfl⟩⟩

/-- The decoder's test of the detection override is the one that tells the guards of R160 and R162 apart. -/
theorem exec_decodeRead_hasNext (hlive : Live s) (h1 : clauseV1 s.cfg = true) :
    ∃ t, exec (decodeRead s.params s.cfg (detSteps s) sn) s = .next t := by
  by_cases hn : s.cfg.readEmu = false ∨ s.cfg.synthAt sn = none
  · rw [decodeRead_of_noSynth hn]
    exact exec_decodeSpecial_hasNext hlive
  obtain ⟨hf, hp⟩ := hlive
  obtain ⟨hemu, hat⟩ := not_or.mp hn
  have hemu : s.cfg.readEmu = true := by simpa using hemu
  obtain ⟨ch, hsynth⟩ := Option.ne_none_iff_exists'.mp hat
  have hactive := active_of_synthAt h1 hsynth
  rw [decodeRead_of_synth hemu hsynth, detSteps_get]
  split
  next hprobe =>
    have hguard : (s.cfg.active ch.chip && s.cfg.readEmu && detTerminal s ch) = true := by
      simp [hactive, hemu, hprobe]
    rw [exec_readProbeOf]
    exact ⟨_, perform_next.mpr ⟨hf, hp, hguard, rfl⟩⟩
  next hplain => exact ⟨_, readSidDrivesImage ch sn.reg s ⟨hf, hp⟩ hactive hemu hplain⟩

theorem exec_decodeRunning_hasNext (hlive : Live s) (h1 : clauseV1 s.cfg = true) :
    ∃ t, exec (decodeRunning s.params s.cfg (detSteps s) sn) s = .next t := by
  cases hrst : sn.rst with
  | true =>
    rw [decodeRunning_of_reset hrst]
    exact ⟨_, perform_next.mpr ⟨hlive.1, hlive.2, rfl, rfl⟩⟩
  | false =>
    cases hrw : sn.rw with
    | true =>
      rw [decodeRunning_of_read hrst hrw]
      exact exec_decodeRead_hasNext hlive h1
    | false =>
      rw [decodeRunning_of_write hrst hrw]
      exact exec_decodeWrite_hasNext hlive h1

/-! The operation an engine turn selects has a step. -/

/-- The slice the engine takes is allowed: the one asked for, or one cycle (R215). -/
theorem sliceAllowed_granted (slice : Nat) (s : State) :
    sliceAllowed (if sliceAllowed slice s then slice else 1) s = true := by
  split
  next hallowed => exact hallowed
  next => rfl

theorem exec_selectEngine_hasNext (slice : Nat) (hlive : Live s) : ∃ t, exec (selectEngine slice s) s = .next t := by
  obtain ⟨hf, hp⟩ := hlive
  cases hx : s.exitCond with
  | some r =>
    rw [selectEngine_of_exit hx]
    exact ⟨_, perform_next.mpr ⟨hf, hp, decide_eq_true hx, rfl⟩⟩
  | none =>
    cases hd : headDue s with
    | true =>
      rw [selectEngine_of_due hx hd]
      exact ⟨_, perform_next.mpr ⟨hf, hp, hd, rfl⟩⟩
    | false =>
      cases hb : engineBehind s with
      | true =>
        rw [selectEngine_of_behind hx hd hb]
        exact ⟨_, perform_next.mpr ⟨hf, hp, by simp [hd, hb, sliceAllowed_granted], rfl⟩⟩
      | false =>
        rw [selectEngine_of_caughtUp hx hd hb]
        exact ⟨_, perform_next.mpr ⟨hf, hp, by simp [hx, hd, hb], rfl⟩⟩

/-! The turns. -/

theorem step_lines_hasNext {turn : Turn} {rest : List Turn} (hlive : Live s) (h1 : clauseV1 s.cfg = true)
    (hs : s.script = turn :: rest) (hsn : turnLines s.params turn = some sn) : ∃ t, step s = .next t := by
  obtain ⟨raw, fresh, hstep⟩ := step_of_lines hlive hs hsn
  have hdec : decodeRunning s.params s.cfg (detSteps s) sn =
      decodeRunning (latchStrobe raw fresh (takeTurn rest s)).params (latchStrobe raw fresh (takeTurn rest s)).cfg
        (detSteps (latchStrobe raw fresh (takeTurn rest s))) sn := by simp [detSteps]
  rw [hstep, hdec]
  exact exec_decodeRunning_hasNext (by simpa [Live] using hlive) (by simpa using h1)

/-- With an empty script the engine takes its turn, its inputs as they were (R4; log 9). -/
theorem step_of_emptyScript (hlive : Live s) (hs : s.script = []) :
    step s = exec (selectEngine 1 (latchEngine (idleInput s) s)) (latchEngine (idleInput s) s) := by
  obtain ⟨hf, hp⟩ := hlive
  have hfetch : fetch s = .run (selectEngine 1 (latchEngine (idleInput s) s)) (latchEngine (idleInput s) s) := by
    rw [fetch, hp, hs]
    exact if_pos hp
  rw [step_eq, hf, hfetch]
  rfl

end

/-- Settles O15, turn by turn: what the decoder or the engine selects has its guard true, and a reading is no operation. -/
theorem neverStuck : Obligations.NeverStuck := by
  rintro s hlive h1 (hs | ⟨raw, fresh, rest, hs⟩ | ⟨raw, fresh, rest, hs⟩ | ⟨inp, rest, hs⟩ | ⟨v, rest, hs⟩)
  · rw [step_of_emptyScript hlive hs]
    exact exec_selectEngine_hasNext 1 (by simpa [Live] using hlive)
  · exact step_lines_hasNext hlive h1 hs rfl
  · exact step_lines_hasNext hlive h1 hs rfl
  · rw [step_engine hlive hs]
    exact exec_selectEngine_hasNext inp.slice (by simpa [Live] using hlive)
  · exact ⟨_, step_sync hlive hs⟩

end Sys2Proof.Machine

/-! SUPPORT. The family 70_reset_and_hazards: the run of reset cycles (O24), the baseline that a reset commit and the start of
a session share (O25, O26), and that start (O49). A commit is the baseline with the control words set anew beside it; what the
baseline gives an active chip depends on the parameters and the configuration alone. -/

namespace Sys2Proof.Machine

/-! The baseline (R60, R345). -/

theorem freshDet_get (ch : SynthId) : freshDet.get ch = ⟨0, []⟩ := by cases ch <;> rfl

theorem baseline_chip_get {s : State} {c : ChipId} (hc : s.cfg.active c = true) :
    (baseline s).chip.get c = freshChip s.params s.cfg c := by
  simp [hc]

theorem baseline_det_get {s : State} {ch : SynthId} (hc : s.cfg.active ch.chip = true) :
    (baseline s).det.get ch = ⟨0, []⟩ := by
  simp [hc, freshDet_get]

theorem baseline_rb_get {s : State} {c : ChipId} (hc : s.cfg.active c = true) :
    (baseline s).rb.get c = chipImage s.params.roRegs (freshChip s.params s.cfg c).core := by
  simp [hc]

theorem atBaseline_baseline (s : State) : AtBaseline (baseline s) where
  queue := ⟨rfl, rfl⟩
  position := ⟨rfl, rfl, rfl⟩
  views := ⟨rfl, rfl, rfl, rfl, rfl⟩
  rate := rfl
  chips _ hc := baseline_chip_get hc
  detection ch hc := by
    rw [baseline_det_get (s := s) hc]
    exact ⟨rfl, fun _ => rfl⟩
  image c hc r := by
    rw [baseline_rb_get (s := s) hc, get_chipImage]
    rfl

/-- The control words, which a commit and a start set beside the baseline. -/
def setControl (run : Nat) (fault : Option FatalReason) (out : BusOut) (phase : Phase) (s : State) : State :=
  { s with resetRun := run, fault := fault, out := out, phase := phase }

/-- The baseline says nothing of the control words. -/
theorem AtBaseline.setControl {t : State} (h : AtBaseline t) (run : Nat) (fault : Option FatalReason) (out : BusOut)
    (phase : Phase) : AtBaseline (setControl run fault out phase t) :=
  ⟨h.queue, h.position, h.views, h.rate, h.chips, h.detection, h.image⟩

/-- The baseline neither reads nor writes the control words. -/
theorem baseline_setControl (run : Nat) (fault : Option FatalReason) (out : BusOut) (phase : Phase) (s : State) :
    baseline (setControl run fault out phase s) = setControl run fault out phase (baseline s) :=
  rfl

/-- The last setting of the control words stays. -/
theorem setControl_setControl (run run' : Nat) (fault fault' : Option FatalReason) (out out' : BusOut)
    (phase phase' : Phase) (s : State) :
    setControl run fault out phase (setControl run' fault' out' phase' s) = setControl run fault out phase s :=
  rfl

/-! The run of reset cycles (R152, R347). -/

theorem exec_busReset {s : State} (h : Live s) : exec .busReset s = .next (busReset s) := by
  obtain ⟨hf, hp⟩ := h
  exact perform_next.mpr ⟨hf, hp, rfl, rfl⟩

/-- A run of n reset cycles below the threshold (R347): with no cycle the response of the last activation stands. -/
def shortRun (n : Nat) (s : State) : State :=
  { s with resetRun := n, cycleCount := s.cycleCount + n, out := if n = 0 then s.out else ⟨none, true⟩ }

theorem shortRun_zero {s : State} (h : s.resetRun = 0) : shortRun 0 s = s :=
  calc shortRun 0 s = { s with resetRun := 0 } := rfl
    _ = s := by rw [← h]

/-- One more reset cycle, still below the threshold. -/
theorem busReset_shortRun {s : State} {n : Nat} (h : n + 1 < s.params.tRst) :
    busReset (shortRun n s) = shortRun (n + 1) s :=
  busReset_below (s := shortRun n s) h

theorem execAll_busReset {s : State} {n : Nat} (hlive : Live s) (h0 : s.resetRun = 0) (hn : n < s.params.tRst) :
    execAll (List.replicate n .busReset) s = .next (shortRun n s) := by
  induction n with
  | zero =>
    rw [shortRun_zero h0]
    rfl
  | succ n ih =>
    have hlast : exec .busReset (shortRun n s) = .next (shortRun (n + 1) s) := by
      rw [exec_busReset (s := shortRun n s) hlive, busReset_shortRun hn]
    rw [List.replicate_succ', execAll_append (ih (Nat.lt_of_succ_lt hn)), execAll, hlast]
    rfl

/-- Settles O24, by induction on the length of the run; BUS.NOP ends the run as every activation with the line released does. -/
theorem shortResetRun : Obligations.ShortResetRun := by
  intro s n hlive h0 hn
  have hrun := execAll_busReset hlive h0 hn
  have hnop : exec .busNop (shortRun n s) =
      .next { s with resetRun := 0, cycleCount := s.cycleCount + n + 1, out := ⟨none, true⟩ } :=
    nopOnlyCounts (shortRun n s) hlive
  refine ⟨hrun, ?_⟩
  rw [execAll_append hrun, execAll, hnop]
  rfl

/-! The reset commit (R344, R345, R346). -/

/-- BUS.RESET of a run that qualifies is the baseline, the run counted and the activation completed (R153). -/
theorem busReset_committed {s : State} (h : s.params.tRst ≤ s.resetRun + 1) :
    busReset s = setControl (min (s.resetRun + 1) s.params.tRst) s.fault ⟨none, true⟩ s.phase (baseline s) :=
  busReset_qualified h

/-- Settles O25: either operation is the baseline, and a commit sets no control word but those of its activation. -/
theorem qualifiedResetCommits : Obligations.QualifiedResetCommits := by
  refine ⟨fun s hlive hrun => ?cycle, fun s ⟨hf, hp⟩ hrun => ?alone⟩
  case cycle =>
    refine ⟨_, exec_busReset hlive, ?_⟩
    rw [busReset_committed hrun]
    exact ⟨(atBaseline_baseline s).setControl _ _ _ _, rfl⟩
  case alone =>
    exact ⟨baseline s, perform_next.mpr ⟨hf, hp, decide_eq_true hrun, rfl⟩, atBaseline_baseline s, rfl⟩

/-- A run that qualifies stays at the threshold, and the second baseline finds the first. -/
theorem busReset_idem {s : State} (h : s.params.tRst ≤ s.resetRun + 1) : busReset (busReset s) = busReset s := by
  have hfirst : busReset s = setControl s.params.tRst s.fault ⟨none, true⟩ s.phase (baseline s) := by
    rw [busReset_committed h, Nat.min_eq_right h]
  have hsecond : busReset (setControl s.params.tRst s.fault ⟨none, true⟩ s.phase (baseline s)) =
      setControl (min (s.params.tRst + 1) s.params.tRst) s.fault ⟨none, true⟩ s.phase
        (baseline (setControl s.params.tRst s.fault ⟨none, true⟩ s.phase (baseline s))) :=
    busReset_committed (Nat.le_succ _)
  rw [hfirst, hsecond, baseline_setControl, baseline_idem, setControl_setControl, Nat.min_eq_right (Nat.le_succ _)]

/-- Everything RESET.COMMIT by itself can do. -/
theorem exec_resetCommit {s t : State} (h : exec .resetCommit s = .next t) : t = baseline s := by
  obtain ⟨-, -, -, rfl⟩ := perform_next.mp h
  rfl

/-- Settles O26: a second committing cycle adds nothing, and what a commit gives the active chips is a function of the
parameters and the configuration. -/
theorem commitIdempotent : Obligations.CommitIdempotent := by
  refine ⟨fun s t _ hrun h => ?again, fun s s' t t' hparams hcfg h h' => ?agree⟩
  case again =>
    obtain ⟨hf, hp, -, rfl⟩ := perform_next.mp h
    have hlive : Live (busReset s) := by
      rw [busReset_committed hrun]
      exact ⟨hf, hp⟩
    rw [exec_busReset hlive, busReset_idem hrun]
  case agree =>
    obtain rfl := exec_resetCommit h
    obtain rfl := exec_resetCommit h'
    refine ⟨fun c hc => ⟨?_, ?_⟩, fun ch hc => ?_, congrArg freshRate hparams, rfl, rfl, rfl, rfl, rfl⟩
    · rw [baseline_chip_get hc, baseline_chip_get (hcfg ▸ hc), hparams, hcfg]
    · rw [baseline_rb_get hc, baseline_rb_get (hcfg ▸ hc), hparams, hcfg]
    · rw [baseline_det_get hc, baseline_det_get (hcfg ▸ hc)]

/-! The start of a session (R341, R305). -/

/-- The session's weight of an active source is its pan law's (R285). -/
theorem sessionWeights_get {p : Params} {cfg : SessionConfig} {c : ChipId} (hc : cfg.active c = true) :
    (sessionWeights p cfg).get c = weightOf p cfg c := by
  rw [sessionWeights, onActive_get, if_pos hc]
  cases c <;> rfl

/-- From NotStarted the outcome of SESSION.START is the validity predicate's (R305, R340). -/
theorem exec_sessionStart_notStarted {s : State} (config : SessionConfig) (clk : Nat) (hf : s.fault = none)
    (hp : s.phase = .notStarted) :
    exec (.sessionStart config clk) s =
      refuseInvalid (sessionViolation s.params config clk) (.next (startSession config clk s)) :=
  congrArg (refuseInvalid _) (perform_next.mpr ⟨hf, hp, rfl, rfl⟩)

/-- A start leaves the baseline, whatever the state words were before. -/
theorem atBaseline_startSession (config : SessionConfig) (clk : Nat) (s : State) :
    AtBaseline (startSession config clk s) :=
  (atBaseline_baseline { openSession config s with clk := clk }).setControl 0 none ⟨none, false⟩ .running

/-- Settles O49: from NotStarted the validity predicate decides between the baseline and the refusal, and any other phase is
the wrong one. -/
theorem startReachesBaseline : Obligations.StartReachesBaseline := by
  refine fun config clk s hf => ⟨fun hp hv => ?valid, fun hp v hv => ?invalid, fun hp => exec_wrongPhase hf hp⟩
  case valid =>
    refine ⟨startSession config clk s, ?_, atBaseline_startSession config clk s, ⟨rfl, rfl⟩, rfl, rfl, rfl, rfl, rfl,
      fun c hc => sessionWeights_get hc, rfl, rfl, rfl⟩
    rw [exec_sessionStart_notStarted config clk hf hp, hv, refuseInvalid_none]
  case invalid =>
    rw [exec_sessionStart_notStarted config clk hf hp, hv]
    rfl

end Sys2Proof.Machine

/-! SUPPORT. The family other: the canonical forms of everything the model holds sparse (O55). Each writer of a sparse piece
keeps that piece's form; a move that writes none of them keeps them all. -/

namespace Sys2Proof.Machine

/-! The byte arrays (log 14). -/

theorem canonicalBytes_nil (n : Nat) : CanonicalBytes n [] := ⟨rfl, rfl⟩

theorem CanonicalBytes.set {n : Nat} {m : Memory} {a : Nat} (h : CanonicalBytes n m) (ha : a < n) (v : Byte) :
    CanonicalBytes n (Memory.set m a v) :=
  ⟨Memory.wf_set a v h.1, Memory.within_set v h.2 ha⟩

/-- A publication writes filled arrays for the active chips and leaves the images of the others (R218). -/
theorem canonicalBytes_published {rb : PerChip Memory} (h : ∀ c, CanonicalBytes 32 (rb.get c)) (cfg : SessionConfig)
    (p : Params) (chip : PerChip ChipState) (c : ChipId) :
    CanonicalBytes 32 ((onActive cfg rb (images p chip)).get c) := by
  rw [onActive_get]
  split
  · rw [images_get]
    exact chipImage_canonical _ _
  · exact h c

/-- V4 asks for a canonical table of the special region (R340). -/
theorem canonicalBytes_special {p : Params} {cfg : SessionConfig} (h : configViolation p cfg = none) :
    CanonicalBytes 256 (specialBytes cfg) := by
  obtain ⟨-, -, -, h4, -⟩ := configViolation_none h
  unfold clauseV4 at h4
  unfold specialBytes
  cases hsp : cfg.special with
  | none => exact canonicalBytes_nil 256
  | some sp =>
    simp only [hsp, Bool.and_eq_true] at h4
    obtain ⟨⟨-, hwf⟩, hwithin⟩ := h4
    exact ⟨hwf, hwithin⟩

/-! The chip cores (log 4). -/

/-- A history that begins with a clock run: the run is not empty, no other follows it, and the rest is canonical. -/
theorem historyWf_clock {k : Nat} {ops : List ChipOp} :
    historyWf (.clock k :: ops) = true ↔ k ≠ 0 ∧ (∀ j rest, ops ≠ .clock j :: rest) ∧ historyWf ops = true := by
  match ops with
  | [] => simp [historyWf]
  | .write r v :: ops => simp [historyWf]
  | .clock j :: ops => simp [historyWf]

/-- A run put on a history merges with the run it begins with, or is none where it is empty (R203). -/
theorem historyWf_clockHistory {ops : List ChipOp} (h : historyWf ops = true) (k : Nat) :
    historyWf (clockHistory ops k) = true := by
  by_cases hk : k = 0
  · subst hk
    exact h
  · match ops with
    | [] => simp [clockHistory, hk, historyWf]
    | .write r v :: ops =>
      have hrun : clockHistory (.write r v :: ops) k = .clock k :: .write r v :: ops := by simp [clockHistory, hk]
      rw [hrun]
      exact historyWf_clock.mpr ⟨hk, by simp, h⟩
    | .clock j :: ops =>
      obtain ⟨-, hrest, hops⟩ := historyWf_clock.mp h
      rw [clockHistory_clock]
      exact historyWf_clock.mpr ⟨by omega, hrest, hops⟩

theorem canonicalCore_chipReset (impl : ChipImpl) (kind : ChipKind) (model : Option ChipModel) :
    CanonicalCore (chipReset impl kind model) := by
  cases impl with
  | testchip => exact canonicalBytes_nil 32
  | opaqueCore => cases kind <;> rfl

theorem CanonicalCore.chipWrite {core : ChipCore} (h : CanonicalCore core) (r : RegIx) (v : Byte) :
    CanonicalCore (chipWrite core r v) := by
  cases core with
  | testchip regs phase =>
    simp only [Machine.chipWrite]
    split
    · exact h
    · exact CanonicalBytes.set h r.isLt v
  | history kind model ops => exact h

theorem CanonicalCore.chipClock {core : ChipCore} (h : CanonicalCore core) (k : Nat) :
    CanonicalCore (chipClock core k) := by
  cases core with
  | testchip regs phase => exact h
  | history kind model ops => exact historyWf_clockHistory h k

/-- A baseline puts every active core to its defaults (R201, R345). -/
theorem canonicalCore_freshened {chip : PerChip ChipState} (h : ∀ c, CanonicalCore (chip.get c).core) (p : Params)
    (cfg : SessionConfig) (c : ChipId) : CanonicalCore ((onActive cfg chip (freshChips p cfg)).get c).core := by
  rw [onActive_get]
  split
  · rw [freshChips_get]
    exact canonicalCore_chipReset _ _ _
  · exact h c

/-! The detection snapshots (R44). -/

/-- A transaction writes one register of a snapshot or none (R157, R246). -/
theorem DetMoved.snapshot_canonical {s : State} {det : PerSynth DetState} (hd : DetMoved s det)
    (h : ∀ ch, CanonicalBytes 32 (s.det.get ch).snapshot) (ch : SynthId) : CanonicalBytes 32 (det.get ch).snapshot := by
  cases hd with
  | kept => exact h ch
  | written c reg val =>
    rw [PerSynth.get_set]
    split
    · exact (h c).set reg.isLt val
    · exact h ch
  | probed c =>
    rw [PerSynth.get_set]
    split
    · exact h c
    · exact h ch

/-- A baseline empties the snapshots of the active chips (R247). -/
theorem canonicalBytes_freshDet {det : PerSynth DetState} (h : ∀ ch, CanonicalBytes 32 (det.get ch).snapshot)
    (cfg : SessionConfig) (ch : SynthId) : CanonicalBytes 32 ((onActiveSynth cfg det freshDet).get ch).snapshot := by
  rw [onActiveSynth_get]
  split
  · rw [freshDet_get]
    exact canonicalBytes_nil 32
  · exact h ch

/-! The forms together. -/

/-- The fields that the canonical forms speak of. -/
theorem Canonical.of_same_arrays {s t : State} (h : Canonical s) (hp : t.params = s.params) (hcfg : t.cfg = s.cfg)
    (hsl : t.slots = s.slots) (hrb : t.rb = s.rb) (hview : t.rbView = s.rbView) (hfl : t.rbFlight = s.rbFlight)
    (hdet : t.det = s.det) (hchip : t.chip = s.chip) : Canonical t where
  capacity := by rw [hp]; exact h.capacity
  slots := by rw [hp, hsl]; exact h.slots
  images := by rw [hrb, hview]; exact h.images
  flight := by rw [hfl]; exact h.flight
  snapshots := by rw [hdet]; exact h.snapshots
  cores := by rw [hchip]; exact h.cores
  special := by rw [hcfg]; exact h.special

theorem canonical_baseline {s : State} (h : Canonical s) : Canonical (baseline s) where
  capacity := h.capacity
  slots := h.slots
  images c :=
    have hrb := canonicalBytes_published (fun c => (h.images c).1) _ _ _ c
    ⟨hrb, hrb⟩
  flight := by simp
  snapshots := canonicalBytes_freshDet h.snapshots s.cfg
  cores := canonicalCore_freshened h.cores s.params s.cfg
  special := h.special

/-- BD's views made exact drop the images on their way (R100). -/
theorem canonical_latchStrobe (sn : Snap) (fresh : Bool) {s : State} (h : Canonical s) :
    Canonical (latchStrobe sn fresh s) := by
  cases fresh with
  | false => apply h.of_same_arrays <;> simp
  | true =>
    exact ⟨h.capacity, h.slots, fun c => ⟨(h.images c).1, (h.images c).1⟩, by simp, h.snapshots, h.cores, h.special⟩

/-- What BD sees is an image that was published, now or before (R100). -/
theorem canonical_syncView (v : ViewSync) {s : State} (h : Canonical s) : Canonical (syncView v s) := by
  obtain ⟨now, w, r, image, flight, he, -, -, -, himage, hflight⟩ := syncView_views v s
  have hview : ∀ c, CanonicalBytes 32 (image.get c) := by
    rcases himage with rfl | rfl | hm
    · exact fun c => (h.images c).2
    · exact fun c => (h.images c).1
    · exact h.flight image hm
  have hway : ∀ m ∈ flight, ∀ c, CanonicalBytes 32 (m.get c) := by
    intro m hm
    rcases hflight m hm with rfl | hm
    · exact fun c => (h.images c).1
    · exact h.flight m hm
  rw [he]
  exact ⟨h.capacity, h.slots, fun c => ⟨(h.images c).1, hview c⟩, hway, h.snapshots, h.cores, h.special⟩

/-- An event goes to a slot below the capacity (R92), whatever the index. -/
theorem canonical_transacted {s t : State} (ht : Transacted s t) (h : Canonical s) : Canonical t := by
  cases ht with
  | answered det out hd =>
    exact ⟨h.capacity, h.slots, h.images, h.flight, hd.snapshot_canonical h.snapshots, h.cores, h.special⟩
  | queued det ev hd hroom hts =>
    exact ⟨h.capacity, Slots.wf_set ev h.slots (Nat.mod_lt _ h.capacity), h.images, h.flight,
      hd.snapshot_canonical h.snapshots, h.cores, h.special⟩
  | overflowed det hd hfull =>
    exact ⟨h.capacity, h.slots, h.images, h.flight, hd.snapshot_canonical h.snapshots, h.cores, h.special⟩

theorem canonical_busMoved {s t : State} (ht : BusMoved s t) (h : Canonical s) : Canonical t := by
  cases ht with
  | measured hp => exact h.of_same_arrays rfl rfl rfl rfl rfl rfl rfl rfl
  | counted hp hr => exact h.of_same_arrays rfl rfl rfl rfl rfl rfl rfl rfl
  | committed hp hr =>
    have hcounted : Canonical (countReset s) := h.of_same_arrays rfl rfl rfl rfl rfl rfl rfl rfl
    exact (canonical_baseline hcounted).of_same_arrays rfl rfl rfl rfl rfl rfl rfl rfl
  | transacted hp ht => exact canonical_transacted ht h

theorem canonical_publish {s : State} (h : Canonical s) : Canonical (publish s) :=
  ⟨h.capacity, h.slots, fun c => ⟨canonicalBytes_published (fun c => (h.images c).1) _ _ _ c, (h.images c).2⟩, h.flight,
    h.snapshots, h.cores, h.special⟩

theorem canonical_applyHead {s : State} (h : Canonical s) : Canonical (applyHead s) := by
  refine canonical_publish ⟨h.capacity, h.slots, h.images, h.flight, h.snapshots, fun c => ?_, h.special⟩
  simp only [PerChip.get_set]
  split
  · exact (h.cores _).chipWrite _ _
  · exact h.cores c

/-- What EN.STEP makes of each chip, slot by slot (R214). -/
theorem clockedChips_get (k : Nat) (chip : PerChip ChipState) (c : ChipId) :
    (PerChip.mk (clockChip k chip.sid1) (clockChip k chip.sid2) (clockChip k chip.fm)).get c =
      clockChip k (chip.get c) := by
  cases c <;> rfl

theorem canonical_clockChips (k : Nat) {s : State} (h : Canonical s) : Canonical (clockChips k s) := by
  refine ⟨h.capacity, h.slots, h.images, h.flight, h.snapshots, fun c => ?_, h.special⟩
  simp only [clockChips_fields, onActive_get, clockedChips_get]
  split
  · exact (h.cores c).chipClock k
  · exact h.cores c

theorem canonical_engineStep (k : Nat) {s : State} (h : Canonical s) : Canonical (engineStep k s) := by
  have hpublished := canonical_publish (canonical_clockChips k h)
  unfold engineStep
  apply hpublished.of_same_arrays <;> simp

theorem canonical_engineMoved {s t : State} (ht : EngineMoved s t) (h : Canonical s) : Canonical t := by
  cases ht with
  | exited r => exact h.of_same_arrays rfl rfl rfl rfl rfl rfl rfl rfl
  | applied hd => exact canonical_applyHead h
  | stepped k hk => exact canonical_engineStep k h
  | idled => exact h

/-- The first half of a start takes over a table that V4 has checked (R340, R341). -/
theorem canonical_openSession {config : SessionConfig} {s : State} (hv : configViolation s.params config = none)
    (h : Canonical s) : Canonical (openSession config s) :=
  ⟨h.capacity, h.slots, h.images, h.flight, h.snapshots, h.cores, canonicalBytes_special hv⟩

theorem canonical_runSession (clk : Nat) {s : State} (h : Canonical s) : Canonical (runSession clk s) := by
  have hclk : Canonical { s with clk := clk } := h.of_same_arrays rfl rfl rfl rfl rfl rfl rfl rfl
  exact (canonical_baseline hclk).of_same_arrays rfl rfl rfl rfl rfl rfl rfl rfl

theorem turnInvariant_canonical : TurnInvariant Canonical where
  take _ _ h := h.of_same_arrays rfl rfl rfl rfl rfl rfl rfl rfl
  strobe sn fresh _ := canonical_latchStrobe sn fresh
  inputs _ _ h := by apply h.of_same_arrays <;> simp
  sync v _ := canonical_syncView v
  bus _ _ := canonical_busMoved
  engine _ _ _ := canonical_engineMoved
  opened _ _ _ := canonical_openSession
  started clk _ _ _ := canonical_runSession clk

/-- Settles O55: each move keeps the canonical forms, so each step does. -/
theorem stepKeepsCanonical : Obligations.StepKeepsCanonical :=
  fun _ _ hc h => turnInvariant_canonical.step hc h

end Sys2Proof.Machine
